-- ==== Sys2Proof/Word.lean ====
section
/-! DEFINITION. The word types of the block (spec/00_scope.md rules R6, R7, R8): every register is an unsigned bit
vector whose bit 0 is the least significant, and a codeword or a bit stream is a list of bits whose head is the first bit. -/

namespace Sys2Proof

/-- A symbol, a data byte, or a header byte (`SYM_W` = 8, rule R6). -/
abbrev Byte := BitVec 8

/-- A weight: an occurrence count or a sum of counts (`WEIGHT_W` = 32, rule R6). -/
abbrev Weight := BitVec 32

/-- A node index (`NODE_IDX_W` = 9, rule R6). -/
abbrev NodeIdx := BitVec 9

/-- A command word (`CMD_W` = 40, rules R6 and R80). -/
abbrev CmdWord := BitVec 40

/-- A finite bit sequence, first bit at the head (rule R8). -/
abbrev Bits := List Bool

end Sys2Proof
end

