-- ==== Sys2Proof/Config.lean ====
section
/-! DEFINITION. The parameters of the hardware (spec/00_scope.md rule R6). All are fixed by the spec but `OBUF_SIZE`,
which the spec leaves open: it is a field of State that no instruction writes, and the value here is only the one that
State.reset starts from (notes/assumptions/1.md). -/

namespace Sys2Proof.Config

/-- `TOTAL_MAX` = 2^32 - 1: the largest number of bytes one counting pass accepts (rule R6). -/
abbrev totalMax : Weight := 0xFFFFFFFF#32

/-- `NODE_MAX`: the capacity of the node memory (rule R6). -/
abbrev nodeMax : Nat := 511

/-- `NIL` = 0x1FF: the node index that means "no node" (rule R6). -/
abbrev nil : NodeIdx := 0x1FF#9

/-- `CODE_MAX`: the largest codeword length in bits (rule R6). -/
abbrev codeMax : Nat := 255

/-- DESIGN CHOICE (notes/assumptions/1.md): the `OBUF_SIZE` that State.reset starts from. Rule R6 leaves it OPEN, 1 to
2^32 - 1; 65536 is the default that spec/COVERAGE.json names. No statement rests on it: every statement is about every
value of the field. -/
abbrev obufSize : BitVec 32 := 65536#32

end Sys2Proof.Config
end

