-- ==== Sys2Proof/Syntax.lean ====
section
/-! DEFINITION. The instruction set: the 24 host commands of spec/30_encoding.md rule R82, one constructor per row of
spec/opcode_table.json, each with the operands of its form (rule R81). -/

namespace Sys2Proof

/-- The seven operand forms of rule R81. -/
inductive Form where
  | Z
  | S
  | H
  | N
  | B
  | SI
  | A
deriving DecidableEq, Repr

/-- A command (rule R82). Operand types are exactly the operand fields of rule R81, so no operand can fail to fit. -/
inductive Instr where
  | nop
  | clr
  | stat
  | cnt (sym : Byte)
  | bld
  | gen
  | frd (sym : Byte)
  | ftot
  | ncnt
  | nwt (idx : NodeIdx)
  | nlk (idx : NodeIdx)
  | tsel (sym : Byte)
  | tbit (bit : Bool)
  | tend
  | tlen (sym : Byte)
  | tget (sym : Byte) (bi : Byte)
  | ebeg
  | enc (sym : Byte)
  | efin
  | dbeg (hdr : Byte)
  | dpl (byte : Byte)
  | dfin
  | olen
  | ord (addr : BitVec 32)
deriving DecidableEq, Repr

namespace Instr

/-- The mnemonic of a command, as spec/opcode_table.json spells it (rule R82). -/
def mnemonic : Instr → String
  | .nop => "NOP"
  | .clr => "CLR"
  | .stat => "STAT"
  | .cnt _ => "CNT"
  | .bld => "BLD"
  | .gen => "GEN"
  | .frd _ => "FRD"
  | .ftot => "FTOT"
  | .ncnt => "NCNT"
  | .nwt _ => "NWT"
  | .nlk _ => "NLK"
  | .tsel _ => "TSEL"
  | .tbit _ => "TBIT"
  | .tend => "TEND"
  | .tlen _ => "TLEN"
  | .tget _ _ => "TGET"
  | .ebeg => "EBEG"
  | .enc _ => "ENC"
  | .efin => "EFIN"
  | .dbeg _ => "DBEG"
  | .dpl _ => "DPL"
  | .dfin => "DFIN"
  | .olen => "OLEN"
  | .ord _ => "ORD"

/-- The operand form of a command (rule R82, column "form"). -/
def form : Instr → Form
  | .nop | .clr | .stat | .bld | .gen | .ftot | .ncnt | .tend | .ebeg | .efin | .dfin | .olen => .Z
  | .cnt _ | .frd _ | .tsel _ | .tlen _ | .enc _ | .dpl _ => .S
  | .dbeg _ => .H
  | .nwt _ | .nlk _ => .N
  | .tbit _ => .B
  | .tget _ _ => .SI
  | .ord _ => .A

/-- The operands of a command as numbers, in the order a script line writes them (rule R86: `TGET sym, bi`). -/
def operands : Instr → List Nat
  | .nop | .clr | .stat | .bld | .gen | .ftot | .ncnt | .tend | .ebeg | .efin | .dfin | .olen => []
  | .cnt sym | .frd sym | .tsel sym | .tlen sym | .enc sym => [sym.toNat]
  | .dpl byte => [byte.toNat]
  | .dbeg hdr => [hdr.toNat]
  | .nwt idx | .nlk idx => [idx.toNat]
  | .tbit bit => [bit.toNat]
  | .tget sym bi => [sym.toNat, bi.toNat]
  | .ord addr => [addr.toNat]

end Instr

end Sys2Proof
end

