-- ==== Sys2Proof/WellFormed.lean ====
section
/-! DEFINITION. When a written command is well formed (spec/30_encoding.md rules R81 and R86): its mnemonic is one of
rule R82, it has as many operands as its form, and each operand fits its field. A term of Instr always is
(Sys2Proof/Laws/PerInstr.lean, one lemma per constructor), since its operand types are the fields themselves; a script
line, whose operands are numbers, need not be, and "the assembler refuses an operand that does not fit its field". -/

namespace Sys2Proof

/-- The widths of a form's operand fields, in script order (rule R81). -/
def Form.widths : Form → List Nat
  | .Z => []
  | .S => [8]
  | .H => [8]
  | .N => [9]
  | .B => [1]
  | .SI => [8, 8]
  | .A => [32]

/-- Each operand fits the field it is written for, and there is one operand per field. -/
def fitFields : List Nat → List Nat → Bool
  | [], [] => true
  | w :: ws, v :: vs => v < 2 ^ w && fitFields ws vs
  | _, _ => false

/-- A command as a script line writes it: a mnemonic and numbers (rule R86). -/
structure Line where
  mnemonic : String
  operands : List Nat
deriving DecidableEq, Repr

/-- The mnemonics of rule R82 with their forms. -/
def forms : List (String × Form) :=
  [("NOP", .Z), ("CLR", .Z), ("STAT", .Z), ("CNT", .S), ("BLD", .Z), ("GEN", .Z), ("FRD", .S), ("FTOT", .Z),
   ("NCNT", .Z), ("NWT", .N), ("NLK", .N), ("TSEL", .S), ("TBIT", .B), ("TEND", .Z), ("TLEN", .S), ("TGET", .SI),
   ("EBEG", .Z), ("ENC", .S), ("EFIN", .Z), ("DBEG", .H), ("DPL", .S), ("DFIN", .Z), ("OLEN", .Z), ("ORD", .A)]

/-- The three checks of the assembler of rule R86. -/
def Line.wellFormed (l : Line) : Bool :=
  match forms.lookup l.mnemonic with
  | none => false
  | some f => fitFields f.widths l.operands

/-- The script line of a command. -/
def Instr.line (i : Instr) : Line := { mnemonic := i.mnemonic, operands := i.operands }

/-- A command is well formed when its script line is. -/
def Instr.wellFormed (i : Instr) : Bool := i.line.wellFormed

end Sys2Proof
end

