-- ==== Sys2Proof/Decode.lean ====
section
/-! DEFINITION. The decoder and the encoder of command words (spec/30_encoding.md rules R80 to R83). Decoding is total
on all 40-bit words: a word is a command of rule R82 or is refused by the name of what is wrong with it. -/

namespace Sys2Proof

/-- Why a word is illegal (rule R83). -/
inductive DecodeError where
  /-- The opcode is one of the 232 values that rule R82 does not list. -/
  | unassignedOpcode
  /-- A must-be-zero bit of the form of a listed opcode is 1. -/
  | reservedBitSet
deriving DecidableEq, Repr

/-- `op` = bits 39:32 of a command word (rule R80). -/
def opField (w : CmdWord) : BitVec 8 := w.extractLsb' 32 8

/-- `arg` = bits 31:0 of a command word (rule R80). -/
def argField (w : CmdWord) : BitVec 32 := w.extractLsb' 0 32

/-- `i` when the must-be-zero bits are zero (rules R81 and R83). -/
def whenZero {n : Nat} (mbz : BitVec n) (i : Instr) : Except DecodeError Instr :=
  if mbz = 0#n then .ok i else .error .reservedBitSet

/-- Form `Z`: no operand, `arg[31:0]` must be zero. -/
def formZ (arg : BitVec 32) (i : Instr) : Except DecodeError Instr := whenZero arg i

/-- Forms `S` and `H`: an 8-bit operand `arg[7:0]`, `arg[31:8]` must be zero. -/
def formS (arg : BitVec 32) (mk : Byte → Instr) : Except DecodeError Instr :=
  whenZero (arg.extractLsb' 8 24) (mk (arg.extractLsb' 0 8))

/-- Form `N`: a node index `arg[8:0]`, `arg[31:9]` must be zero. -/
def formN (arg : BitVec 32) (mk : NodeIdx → Instr) : Except DecodeError Instr :=
  whenZero (arg.extractLsb' 9 23) (mk (arg.extractLsb' 0 9))

/-- Form `B`: a bit `arg[0]`, `arg[31:1]` must be zero. -/
def formB (arg : BitVec 32) (mk : Bool → Instr) : Except DecodeError Instr :=
  whenZero (arg.extractLsb' 1 31) (mk (arg.getLsbD 0))

/-- Form `SI`: `sym = arg[7:0]`, `bi = arg[15:8]`, `arg[31:16]` must be zero. -/
def formSI (arg : BitVec 32) (mk : Byte → Byte → Instr) : Except DecodeError Instr :=
  whenZero (arg.extractLsb' 16 16) (mk (arg.extractLsb' 0 8) (arg.extractLsb' 8 8))

/-- Form `A`: a byte address `arg[31:0]`; no bit must be zero. -/
def formA (arg : BitVec 32) (mk : BitVec 32 → Instr) : Except DecodeError Instr := .ok (mk arg)

/-- The command a word is, or why it is illegal (rules R82 and R83). -/
def decode (w : CmdWord) : Except DecodeError Instr :=
  match opField w with
  | 0x00#8 => formZ (argField w) .nop
  | 0x01#8 => formZ (argField w) .clr
  | 0x02#8 => formZ (argField w) .stat
  | 0x10#8 => formS (argField w) .cnt
  | 0x11#8 => formZ (argField w) .bld
  | 0x12#8 => formZ (argField w) .gen
  | 0x13#8 => formS (argField w) .frd
  | 0x14#8 => formZ (argField w) .ftot
  | 0x15#8 => formZ (argField w) .ncnt
  | 0x16#8 => formN (argField w) .nwt
  | 0x17#8 => formN (argField w) .nlk
  | 0x20#8 => formS (argField w) .tsel
  | 0x21#8 => formB (argField w) .tbit
  | 0x22#8 => formZ (argField w) .tend
  | 0x23#8 => formS (argField w) .tlen
  | 0x24#8 => formSI (argField w) .tget
  | 0x30#8 => formZ (argField w) .ebeg
  | 0x31#8 => formS (argField w) .enc
  | 0x32#8 => formZ (argField w) .efin
  | 0x40#8 => formS (argField w) .dbeg
  | 0x41#8 => formS (argField w) .dpl
  | 0x42#8 => formZ (argField w) .dfin
  | 0x50#8 => formZ (argField w) .olen
  | 0x51#8 => formA (argField w) .ord
  | _ => .error .unassignedOpcode

/-- The opcode of a command (rule R82, column "op"). -/
def opcode : Instr → BitVec 8
  | .nop => 0x00
  | .clr => 0x01
  | .stat => 0x02
  | .cnt _ => 0x10
  | .bld => 0x11
  | .gen => 0x12
  | .frd _ => 0x13
  | .ftot => 0x14
  | .ncnt => 0x15
  | .nwt _ => 0x16
  | .nlk _ => 0x17
  | .tsel _ => 0x20
  | .tbit _ => 0x21
  | .tend => 0x22
  | .tlen _ => 0x23
  | .tget _ _ => 0x24
  | .ebeg => 0x30
  | .enc _ => 0x31
  | .efin => 0x32
  | .dbeg _ => 0x40
  | .dpl _ => 0x41
  | .dfin => 0x42
  | .olen => 0x50
  | .ord _ => 0x51

/-- The operand field of a command (rule R81): the operands in their places, every other bit 0. -/
def argOf : Instr → BitVec 32
  | .nop | .clr | .stat | .bld | .gen | .ftot | .ncnt | .tend | .ebeg | .efin | .dfin | .olen => 0
  | .cnt sym | .frd sym | .tsel sym | .tlen sym | .enc sym => sym.setWidth 32
  | .dpl byte => byte.setWidth 32
  | .dbeg hdr => hdr.setWidth 32
  | .nwt idx | .nlk idx => idx.setWidth 32
  | .tbit bit => (BitVec.ofBool bit).setWidth 32
  | .tget sym bi => (bi ++ sym).setWidth 32
  | .ord addr => addr

/-- The word of a command (rule R80): `op` in bits 39:32, `arg` in bits 31:0. -/
def encode (i : Instr) : CmdWord := opcode i ++ argOf i

/-- A row of the opcode table (rule R82). -/
structure OpcodeRow where
  mnemonic : String
  form : Form
  pattern : CmdWord
  mask : CmdWord
deriving DecidableEq, Repr

/-- The opcode table of rule R82, columns "mnemonic", "form", "match" and "mask", letter for letter. -/
def opcodeTable : List OpcodeRow :=
  [{ mnemonic := "NOP", form := .Z, pattern := 0x0000000000, mask := 0xFFFFFFFFFF },
   { mnemonic := "CLR", form := .Z, pattern := 0x0100000000, mask := 0xFFFFFFFFFF },
   { mnemonic := "STAT", form := .Z, pattern := 0x0200000000, mask := 0xFFFFFFFFFF },
   { mnemonic := "CNT", form := .S, pattern := 0x1000000000, mask := 0xFFFFFFFF00 },
   { mnemonic := "BLD", form := .Z, pattern := 0x1100000000, mask := 0xFFFFFFFFFF },
   { mnemonic := "GEN", form := .Z, pattern := 0x1200000000, mask := 0xFFFFFFFFFF },
   { mnemonic := "FRD", form := .S, pattern := 0x1300000000, mask := 0xFFFFFFFF00 },
   { mnemonic := "FTOT", form := .Z, pattern := 0x1400000000, mask := 0xFFFFFFFFFF },
   { mnemonic := "NCNT", form := .Z, pattern := 0x1500000000, mask := 0xFFFFFFFFFF },
   { mnemonic := "NWT", form := .N, pattern := 0x1600000000, mask := 0xFFFFFFFE00 },
   { mnemonic := "NLK", form := .N, pattern := 0x1700000000, mask := 0xFFFFFFFE00 },
   { mnemonic := "TSEL", form := .S, pattern := 0x2000000000, mask := 0xFFFFFFFF00 }] ++
  [{ mnemonic := "TBIT", form := .B, pattern := 0x2100000000, mask := 0xFFFFFFFFFE },
   { mnemonic := "TEND", form := .Z, pattern := 0x2200000000, mask := 0xFFFFFFFFFF },
   { mnemonic := "TLEN", form := .S, pattern := 0x2300000000, mask := 0xFFFFFFFF00 },
   { mnemonic := "TGET", form := .SI, pattern := 0x2400000000, mask := 0xFFFFFF0000 },
   { mnemonic := "EBEG", form := .Z, pattern := 0x3000000000, mask := 0xFFFFFFFFFF },
   { mnemonic := "ENC", form := .S, pattern := 0x3100000000, mask := 0xFFFFFFFF00 },
   { mnemonic := "EFIN", form := .Z, pattern := 0x3200000000, mask := 0xFFFFFFFFFF },
   { mnemonic := "DBEG", form := .H, pattern := 0x4000000000, mask := 0xFFFFFFFF00 },
   { mnemonic := "DPL", form := .S, pattern := 0x4100000000, mask := 0xFFFFFFFF00 },
   { mnemonic := "DFIN", form := .Z, pattern := 0x4200000000, mask := 0xFFFFFFFFFF },
   { mnemonic := "OLEN", form := .Z, pattern := 0x5000000000, mask := 0xFFFFFFFFFF },
   { mnemonic := "ORD", form := .A, pattern := 0x5100000000, mask := 0xFF00000000 }]

/-- The instruction the decoder reads from the 40-bit word that spec/opcode_table.json numbers `w`: bit 0 is the word's
least significant bit, and every bit above `nbits` is 0. A number that does not fit the 40-bit channel is no word. -/
def decodeTableWord (nbits w : Nat) : Option Instr :=
  if w % 2 ^ nbits < 2 ^ 40 then
    match decode (BitVec.ofNat 40 (w % 2 ^ nbits)) with
    | .ok i => some i
    | .error _ => none
  else none

end Sys2Proof
end

