-- ==== Sys2Proof/Machine/State.lean ====
section
/-! DEFINITION. The state of the block (spec/10_state.md rule R40, the complete list) and of its ports
(spec/30_encoding.md rule R92), as plain data, and the state right after reset (spec/70_reset_and_hazards.md R230). -/

namespace Sys2Proof.Machine

/-- The values of the `PHASE` register (rule R21). Value 6 is reserved and "never taken": it has no constructor. -/
inductive Phase where
  | idle
  | tree
  | load
  | table
  | encode
  | decode
  | fault
deriving DecidableEq, Repr

/-- The errors that `raise` takes, codes 1 to 8 of rule R200. Code 15 is only ever a response, "never stored in `ERR`",
and codes 9 to 14 are never produced, so none of them has a constructor. -/
inductive ErrorCode where
  | illegal
  | seq
  | unknownSymbol
  | malformedStream
  | range
  | countOverflow
  | obufFull
  | badTable
deriving DecidableEq, Repr

/-- An entry of the node memory (rule R29). -/
structure Node where
  leaf : Bool
  sym : Byte
  w : Weight
  left : NodeIdx
  right : NodeIdx
deriving DecidableEq, Repr

/-- A response (rule R88). -/
structure Response where
  err : BitVec 4
  data : BitVec 32
deriving DecidableEq, Repr

/-- What the host drives on the input ports at one rising edge of `clk` (rule R92). -/
structure PortIn where
  rst : Bool
  cmdValid : Bool
  cmdWord : CmdWord
  rspReady : Bool
deriving DecidableEq, Repr

/-- The content of the output buffer: the bytes that are not `Memory.unlisted`, by address (rule R38). -/
abbrev Memory := List Host.Cell

/-- The state. The fields down to `olen` are rule R40's, in its order and with its widths; `obufSize` is the build
parameter of rule R6, which no instruction writes; the last five are the ports of rule R92 and the host's side of them. -/
structure State where
  /-- `PHASE` (rule R21). -/
  phase : Phase
  /-- `ERR` (rule R23): the first error since reset or `CLR`, `none` for 0. -/
  err : Option ErrorCode
  /-- `OVALID` (rule R24). -/
  ovalid : Bool
  /-- `NSYM` (rule R25). -/
  nsym : BitVec 9
  /-- `FREQ[0..255]` (rule R27). -/
  freq : Vector Weight 256
  /-- `TOTAL` (rule R28). -/
  total : Weight
  /-- `NODE[0..510]` (rule R29). -/
  node : Vector Node 511
  /-- `NNODES` (rule R30). -/
  nnodes : BitVec 9
  /-- `ROOT` (rule R30). -/
  root : NodeIdx
  /-- `LEN[0..255]` (rule R31). -/
  len : Vector (BitVec 8) 256
  /-- `BITS[0..255]`, 255 bits of storage per entry (rule R31): element `i` of the codeword is bit `i` of the storage. -/
  bits : Vector (BitVec 255) 256
  /-- `TSYM` (rule R32). -/
  tsym : Byte
  /-- `ACC` (rule R34). -/
  acc : BitVec 8
  /-- `NACC` (rule R34). -/
  nacc : BitVec 3
  /-- `HDR` (rule R35). -/
  hdr : BitVec 3
  /-- `HOLD` (rule R36). -/
  hold : Byte
  /-- `HOLD_V` (rule R36). -/
  holdV : Bool
  /-- `CAND`, 255 bits of storage (rule R37): element `i` of the candidate is bit `i` of the storage. -/
  cand : BitVec 255
  /-- `CLEN` (rule R37). -/
  clen : BitVec 8
  /-- `OBUF` (rule R38). -/
  obuf : Memory
  /-- `OLEN` (rule R38). -/
  olen : BitVec 32
  /-- `OBUF_SIZE` (rules R6 and R22): the build parameter; no step writes it. -/
  obufSize : BitVec 32
  /-- What the host will drive on the input ports at the coming edges, the next edge first (rules R22 and R92). -/
  inputs : List PortIn
  /-- The response that has not been delivered yet (rule R92); `cmd_ready` is 1 exactly when there is none. -/
  rsp : Option Response
  /-- Cycles during which `rsp_valid` stays 0 although a response is due (rules R92 and R243). -/
  rspDelay : Nat
  /-- The latencies of the coming commands: free values, "finite and otherwise unspecified" (rule R243). -/
  latencies : List Nat
  /-- The responses that have been delivered to the host, the oldest first (rule R92). -/
  delivered : List Response
deriving DecidableEq, Repr

/-- Why the machine stops. No instruction stops on every path. -/
inductive Fault where
  /-- Raised by `GEN` alone, when the node memory below `ROOT` is not a tree that R30 allows (a link to `NIL` from an
  internal node, or a path of more than 255 edges): rule R130's traversal has no end or no meaning there, and R30 says
  that no run reaches such a state. Safe: the model stops where the spec gives no effect. -/
  | treeMalformed
deriving DecidableEq, Repr

/-- Why an instruction is not run. -/
inductive Refusal where
  /-- Raised by exec's arms alone, for an instruction that has no meaning yet; there is none. Safe. -/
  | notModelled (mnemonic : String)
deriving DecidableEq, Repr

/-- What a step or an instruction answers. -/
abbrev Outcome := Host.Outcome State Fault Refusal

/-- An entry of `NODE` at reset, where rule R40 lets a model hold zeros (notes/assumptions/2.md). -/
abbrev Node.blank : Node := { leaf := false, sym := 0, w := 0, left := 0, right := 0 }

/-- The machine right after reset (rules R40 and R230). `NODE`, `BITS` and `OBUF`, whose contents rule R40 calls
"unspecified, unreadable", hold zeros, as rule R40 allows (notes/assumptions/2.md); the ports are quiet and the host has
given nothing yet (notes/assumptions/3.md); `OBUF_SIZE` is the model's (notes/assumptions/1.md). -/
def State.reset : State where
  phase := .idle
  err := none
  ovalid := false
  nsym := 0
  freq := Vector.replicate 256 0
  total := 0
  node := Vector.replicate 511 Node.blank
  nnodes := 0
  root := Config.nil
  len := Vector.replicate 256 0
  bits := Vector.replicate 256 0
  tsym := 0
  acc := 0
  nacc := 0
  hdr := 0
  hold := 0
  holdV := false
  cand := 0
  clen := 0
  obuf := []
  olen := 0
  obufSize := Config.obufSize
  inputs := []
  rsp := none
  rspDelay := 0
  latencies := []
  delivered := []

end Sys2Proof.Machine
end

