-- ==== Sys2Proof/Machine/Ops.lean ====
section
/-! DEFINITION. The shared operations: the output buffer's bytes, the 256-entry files and the node memory, bit
sequences in storage, responding (spec/30_encoding.md rules R88 and R89), the fault sequence that every error takes
(spec/60_exceptions.md rule R201) and the way out of it (rule R204: `CLR` and reset), and the append primitive
(spec/10_state.md rule R39). -/

namespace Sys2Proof.Machine

/-- What a byte of the output buffer that is not listed reads as: zero, as rule R40 allows (notes/assumptions/2.md). -/
abbrev Memory.unlisted : Byte := 0

/-- The byte at an address. -/
def Memory.read : Memory → Nat → Byte
  | [], _ => Memory.unlisted
  | c :: m, a => if c.1 = a then c.2 else Memory.read m a

/-- List a byte at its place in the order of the addresses. -/
def Memory.insertCell (a : Nat) (v : Byte) : Memory → Memory
  | [] => [(a, v)]
  | c :: m => if a < c.1 then (a, v) :: c :: m else c :: Memory.insertCell a v m

/-- Store one byte: what was listed at the address goes, and the byte is listed if an unlisted address would read
otherwise. This keeps the canonical form. -/
def Memory.write (m : Memory) (a : Nat) (v : Byte) : Memory :=
  let others := m.filter (fun c => c.1 ≠ a)
  if v = Memory.unlisted then others else Memory.insertCell a v others

/-- The canonical form: addresses strictly rising, and no entry equal to what an unlisted address reads as. -/
abbrev Memory.wf (m : Memory) : Prop :=
  m.Pairwise (fun c d => c.1 < d.1) ∧ ∀ c ∈ m, c.2 ≠ Memory.unlisted

/-- Element `s` of a file indexed by symbol (rules R27, R31 and R61: a symbol "cannot be out of range"). -/
def fileRead {α : Type} (f : Vector α 256) (s : Byte) : α := f[s.toNat]'(s.isLt)

/-- A file with element `s` replaced. -/
def fileWrite {α : Type} (f : Vector α 256) (s : Byte) (v : α) : Vector α 256 := f.set s.toNat v s.isLt

/-- Entry `i` of the node memory; index 511 "does not exist as an entry" (rule R29), and what is read there is never
used. -/
def nodeRead (m : Vector Node 511) (i : Nat) : Node := m[i]?.getD Node.blank

/-- The node memory with entry `i` replaced. -/
def nodeWrite (m : Vector Node 511) (i : Nat) (e : Node) : Vector Node 511 := m.setIfInBounds i e

/-- The symbols in ascending order. -/
def allSymbols : List Byte := (List.range 256).map (BitVec.ofNat 8)

/-- The first `n` bits of a storage word as a sequence, element `i` being bit `i` (rules R8, R31 and R37). -/
def seqOf (raw : BitVec 255) (n : Nat) : Bits := (List.range n).map raw.getLsbD

/-- The storage word that holds a sequence of at most 255 bits, the unused bits 0. -/
def storeSeq (q : Bits) : BitVec 255 := (BitVec.ofBoolListLE q).setWidth 255

/-- The bits of a byte from bit 7 down to bit 0 (rule R62: "MSB-first, in both directions"). -/
def bitsMsbFirst (v : Byte) : Bits :=
  [v.getLsbD 7, v.getLsbD 6, v.getLsbD 5, v.getLsbD 4, v.getLsbD 3, v.getLsbD 2, v.getLsbD 1, v.getLsbD 0]

/-- `v[i] <- x`: a byte with one bit replaced (rule R7 numbering). -/
def writeBit (v : Byte) (i : Nat) (x : Bool) : Byte :=
  if x then v ||| (1#8 <<< i) else v &&& ~~~(1#8 <<< i)

/-- `LEN[t]` and `BITS[t]` written together: the codeword of `t` becomes `q`, of at most 255 bits (rule R31). -/
def setCode (t : Byte) (q : Bits) (s : State) : State :=
  { s with len := fileWrite s.len t (BitVec.ofNat 8 q.length), bits := fileWrite s.bits t (storeSeq q) }

/-- `CAND` and `CLEN` written together: the candidate becomes `q`, of at most 255 bits (rule R37). -/
def setCand (q : Bits) (s : State) : State :=
  { s with cand := storeSeq q, clen := BitVec.ofNat 8 q.length }

/-- The code of an error (rule R200). -/
def ErrorCode.code : ErrorCode → BitVec 4
  | .illegal => 1
  | .seq => 2
  | .unknownSymbol => 3
  | .malformedStream => 4
  | .range => 5
  | .countOverflow => 6
  | .obufFull => 7
  | .badTable => 8

/-- The response code `ERR_FAULTED` (rule R200), "never stored in `ERR`". -/
def errFaulted : BitVec 4 := 15

/-- `ok(d)`: the command ends with `err = 0` and `data = d` (rules R9 and R88). -/
def respond (d : BitVec 32) (s : State) : State := { s with rsp := some { err := 0, data := d } }

/-- `raise E` (rule R201), applied to the state BEFORE the command, so that "every write the current command has made so
far" is discarded: the phase becomes `FAULT`, the error is stored, the output stops being readable, and the response is
`(E, 0)`. "Nothing else is saved and nothing else changes." -/
def raise (e : ErrorCode) (s : State) : State :=
  { s with phase := .fault, err := some e, ovalid := false, rsp := some { err := e.code, data := 0 } }

/-- What a faulted block answers to every word but `NOP`, `CLR` and `STAT`: `ERR_FAULTED`, "no state change at all"
(rules R89 and R202). -/
def answerFaulted (s : State) : State := { s with rsp := some { err := errFaulted, data := 0 } }

/-- Every register at its reset value (rules R40, R101 and R230): what `CLR` and reset share, and the only way out of the
phase `FAULT` (rule R204). The contents of `NODE`, `BITS` and `OBUF`, which neither rule writes, stay as they are and
cannot be read (notes/assumptions/2.md). -/
def clearBlock (s : State) : State :=
  { s with
    phase := .idle, err := none, ovalid := false, nsym := 0
    freq := Vector.replicate 256 0, total := 0
    nnodes := 0, root := Config.nil
    len := Vector.replicate 256 0
    tsym := 0, acc := 0, nacc := 0, hdr := 0, hold := 0, holdV := false
    cand := 0, clen := 0, olen := 0 }

/-- The working state a command has reached, or the error it raises (rule R10). -/
abbrev Working := Except ErrorCode State

/-- The end of a command (rules R10 and R89): with all its writes made and the answer `d` of its last state, or with none
of its writes made and the fault sequence run on the state `s` before it. -/
def finish (s : State) (r : Working) (d : State → BitVec 32) : Outcome :=
  match r with
  | .ok t => .next (respond (d t) t)
  | .error e => .next (raise e s)

/-- The steps that every command but `NOP`, `CLR` and `STAT` goes through before its own rule (rule R89): in phase `FAULT`
it is answered `ERR_FAULTED`, where the phase does not accept it (rule R90) it raises `ERR_SEQ`, else it is executed. -/
def command (legal : Bool) (run : State → Outcome) (s : State) : Outcome :=
  if s.phase = .fault then .next (answerFaulted s)
  else if legal then run s
  else .next (raise .seq s)

/-- `append(v)` (rule R39): store the byte at `OBUF[OLEN]`, or raise `ERR_OBUF_FULL`. -/
def append (v : Byte) (s : State) : Working :=
  if s.olen = s.obufSize then .error .obufFull
  else .ok { s with obuf := s.obuf.write s.olen.toNat v, olen := s.olen + 1 }

end Sys2Proof.Machine
end

