-- ==== Sys2Proof/Machine/Operands.lean ====
section
/-! DEFINITION. How a command reads the five storage spaces (spec/20_memory.md rules R60 and R61): by symbol, by node
index, by symbol and bit index, by byte address, each index an unsigned number checked against the valid range and never
reduced modulo a size. The fields of the operand forms themselves (spec/30_encoding.md rule R81) are taken apart in
Sys2Proof/Decode.lean. -/

namespace Sys2Proof.Machine.State

/-- `FREQ[t]` (rule R27). -/
def freqOf (s : State) (t : Byte) : Weight := fileRead s.freq t

/-- `LEN[t]` (rule R31). -/
def lenOf (s : State) (t : Byte) : BitVec 8 := fileRead s.len t

/-- `BITS[t]`, a sequence of exactly `LEN[t]` bits (rule R31). -/
def codeword (s : State) (t : Byte) : Bits := seqOf (fileRead s.bits t) (s.lenOf t).toNat

/-- `CAND`, a sequence of exactly `CLEN` bits (rule R37). -/
def candidate (s : State) : Bits := seqOf s.cand s.clen.toNat

/-- `NODE[i]` (rule R29). -/
def nodeAt (s : State) (i : Nat) : Node := nodeRead s.node i

/-- `MemRead(OBUF, a, 1)` (rule R9): the byte at an address. -/
def obufAt (s : State) (a : Nat) : Byte := s.obuf.read a

/-- The symbols that have an entry in the code table, in ascending order (rule R31: `LEN[t] ≥ 1`). -/
def entries (s : State) : List Byte := allSymbols.filter (fun t => s.lenOf t ≠ 0#8)

/-- A node index is one of the valid entries (rules R30 and R61). -/
def validNode (s : State) (i : NodeIdx) : Bool := i < s.nnodes

/-- A bit index lies inside the codeword of `t` (rule R61). -/
def validBit (s : State) (t bi : Byte) : Bool := bi < s.lenOf t

/-- A byte address lies inside the written part of the output buffer (rule R61). -/
def validAddr (s : State) (a : BitVec 32) : Bool := a < s.olen

end Sys2Proof.Machine.State
end

