-- ==== Sys2Proof/Machine/Flags.lean ====
section
/-! DEFINITION. The status view and the flags' part in the control flow: the code of a phase (spec/10_state.md rule R21),
the status word (rule R26), which commands each phase accepts (spec/30_encoding.md rule R90), and the packed words that
the read-back commands return (spec/41_tree_builder.md rules R116 and R118). -/

namespace Sys2Proof.Machine

/-- The value of the 3-bit register `PHASE` (rule R21). -/
def Phase.code : Phase → BitVec 3
  | .idle => 0
  | .tree => 1
  | .load => 2
  | .table => 3
  | .encode => 4
  | .decode => 5
  | .fault => 7

/-- The value of the 4-bit register `ERR` (rule R23): 0 when no error has been raised. -/
def errField : Option ErrorCode → BitVec 4
  | none => 0
  | some e => e.code

/-- `STATUS` (rules R26 and R102): `PHASE` in bits 2:0, `OVALID` in bit 3, `ERR` in bits 7:4, `NSYM` in bits 16:8. -/
def statusWord (s : State) : BitVec 32 :=
  s.phase.code.setWidth 32 ||| (BitVec.ofBool s.ovalid).setWidth 32 <<< 3
    ||| (errField s.err).setWidth 32 <<< 4 ||| s.nsym.setWidth 32 <<< 8

/-- The word `NCNT` returns (rule R116): `NNODES` in bits 8:0, `ROOT` in bits 17:9. -/
def nodeCountWord (s : State) : BitVec 32 := s.nnodes.setWidth 32 ||| s.root.setWidth 32 <<< 9

/-- The word `NLK` returns (rule R118): `leaf` in bit 31, `sym` in bits 25:18, `left` in bits 17:9, `right` in bits
8:0. -/
def Node.linkWord (e : Node) : BitVec 32 :=
  (BitVec.ofBool e.leaf).setWidth 32 <<< 31 ||| e.sym.setWidth 32 <<< 18
    ||| e.left.setWidth 32 <<< 9 ||| e.right.setWidth 32

/-- Rule R90: whether the phase (and, for `OLEN` and `ORD`, the flag `OVALID`) accepts the command. In phase `FAULT` only
`NOP`, `CLR` and `STAT` are accepted. -/
def legal (i : Instr) (s : State) : Bool :=
  match i with
  | .nop | .clr | .stat => true
  | .frd _ | .ftot => s.phase != .fault
  | .cnt _ | .bld => s.phase == .idle
  | .ncnt | .nwt _ | .nlk _ | .gen => s.phase == .tree
  | .tsel _ => s.phase == .idle || s.phase == .load
  | .tbit _ => s.phase == .load
  | .tend => s.phase == .idle || s.phase == .load
  | .tlen _ | .tget _ _ | .ebeg | .dbeg _ => s.phase == .table
  | .olen | .ord _ => s.phase == .table && s.ovalid
  | .enc _ | .efin => s.phase == .encode
  | .dpl _ | .dfin => s.phase == .decode

end Sys2Proof.Machine
end

