-- ==== Sys2Proof/Machine/TreeBuilder.lean ====
section
/-! DEFINITION. The tree builder unit: CNT, FRD, FTOT, BLD, NCNT, NWT, NLK (spec/41_tree_builder.md). -/

namespace Sys2Proof.Machine

/-- `CNT` past its guard (rule R110): one more occurrence of the symbol and one more byte in all. -/
def countByte (sym : Byte) (s : State) : Working :=
  if s.total = Config.totalMax then .error .countOverflow
  else .ok { s with freq := fileWrite s.freq sym (s.freqOf sym + 1), total := s.total + 1 }

/-- `CNT sym` (rule R110). -/
def execCnt (sym : Byte) (s : State) : Outcome :=
  command (legal (.cnt sym) s) (fun s => finish s (countByte sym s) (fun _ => 0)) s

/-- `FRD sym` (rule R111). -/
def execFrd (sym : Byte) (s : State) : Outcome :=
  command (legal (.frd sym) s) (fun s => finish s (.ok s) (fun t => t.freqOf sym)) s

/-- `FTOT` (rule R112). -/
def execFtot (s : State) : Outcome :=
  command (legal .ftot s) (fun s => finish s (.ok s) (fun t => t.total)) s

/-- The leaves of the tree (rules R113 and R114): one per symbol that occurs, in ascending symbol value. -/
def leafNodes (s : State) : List Node :=
  (allSymbols.filter (fun t => s.freqOf t ≠ 0#32)).map
    (fun t => { leaf := true, sym := t, w := s.freqOf t, left := Config.nil, right := Config.nil })

/-- Write nodes into consecutive entries of the node memory, the first at index `n`. -/
def writeNodes (m : Vector Node 511) (n : Nat) : List Node → Vector Node 511
  | [] => m
  | e :: es => writeNodes (nodeWrite m n e) (n + 1) es

/-- Whether node `i` comes before node `j` (rule R114): the smaller pair (weight, index) in lexicographic order. -/
def lesser (m : Vector Node 511) (i j : Nat) : Bool :=
  (nodeRead m i).w < (nodeRead m j).w || ((nodeRead m i).w == (nodeRead m j).w && i < j)

/-- `least` (rule R114) of the active set whose first listed element is `i` and the others `rest`. -/
def least (m : Vector Node 511) (i : Nat) (rest : List Nat) : Nat :=
  rest.foldl (fun best j => if lesser m j best then j else best) i

/-- What `BLD` works on: the node memory, the number of nodes made and the active set (rules R22 and R113). -/
structure Build where
  mem : Vector Node 511
  n : Nat
  active : List Nat
deriving DecidableEq, Repr

/-- The internal node over `a` (left, edge 0) and `b` (right, edge 1) (rules R113 and R115). -/
def parentNode (m : Vector Node 511) (a b : Nat) : Node :=
  { leaf := false, sym := 0, w := (nodeRead m a).w + (nodeRead m b).w
    left := BitVec.ofNat 9 a, right := BitVec.ofNat 9 b }

/-- The loop of `BLD` (rule R113): while more than one node is active, replace the two least by their parent. The first
argument bounds the number of rounds; the number of leaves is bound enough, since each round takes one node away. -/
def mergeLoop : Nat → Build → Build
  | 0, g => g
  | k + 1, g =>
    match g.active with
    | i :: j :: rest =>
      let a := least g.mem i (j :: rest)
      match (i :: j :: rest).erase a with
      | i' :: rest' =>
        let b := least g.mem i' rest'
        mergeLoop k { mem := nodeWrite g.mem g.n (parentNode g.mem a b), n := g.n + 1,
                      active := (i' :: rest').erase b ++ [g.n] }
      | [] => g
    | _ => g

/-- The tree of the present counts (rule R113): the leaves, then the merges. -/
def buildTree (s : State) : Build :=
  mergeLoop (leafNodes s).length
    { mem := writeNodes s.node 0 (leafNodes s), n := (leafNodes s).length, active := List.range (leafNodes s).length }

/-- `ROOT` after `BLD` (rule R113): "the one element of ACTIVE", or `NIL` when there is none. -/
def rootOf (active : List Nat) : NodeIdx :=
  match active with
  | [] => Config.nil
  | r :: _ => BitVec.ofNat 9 r

/-- The writes of `BLD` (rule R113). -/
def buildWrites (s : State) : State :=
  { s with
    node := (buildTree s).mem, nnodes := BitVec.ofNat 9 (buildTree s).n, root := rootOf (buildTree s).active
    nsym := BitVec.ofNat 9 (leafNodes s).length, phase := .tree }

/-- `BLD` (rule R113). -/
def execBld (s : State) : Outcome :=
  command (legal .bld s) (fun s => finish s (.ok (buildWrites s)) (fun _ => 0)) s

/-- `NCNT` (rule R116). -/
def execNcnt (s : State) : Outcome :=
  command (legal .ncnt s) (fun s => finish s (.ok s) nodeCountWord) s

/-- A state, provided an index is in range, else `ERR_RANGE` (rule R61). -/
def inRange (ok : Bool) (s : State) : Working := if ok then .ok s else .error .range

/-- `NWT idx` (rule R117). -/
def execNwt (idx : NodeIdx) (s : State) : Outcome :=
  command (legal (.nwt idx) s)
    (fun s => finish s (inRange (s.validNode idx) s) (fun t => (t.nodeAt idx.toNat).w)) s

/-- `NLK idx` (rule R118). -/
def execNlk (idx : NodeIdx) (s : State) : Outcome :=
  command (legal (.nlk idx) s)
    (fun s => finish s (inRange (s.validNode idx) s) (fun t => (t.nodeAt idx.toNat).linkWord)) s

end Sys2Proof.Machine
end

