-- ==== Sys2Proof/Machine/CodeTable.lean ====
section
/-! DEFINITION. The code table: GEN, TSEL, TBIT, TEND, TLEN, TGET (spec/42_code_table.md). -/

namespace Sys2Proof.Machine

/-- `visit` (rule R130): the leaves below node `i` with the paths that lead to them, `path` being the path to `i` itself.
The first argument is how many more edges a path may have. `none` where the memory is not a tree that R30 allows. -/
def visit (m : Vector Node 511) : Nat → NodeIdx → Bits → Option (List (Byte × Bits))
  | fuel, i, path =>
    if i = Config.nil then none
    else if (nodeRead m i.toNat).leaf then some [((nodeRead m i.toNat).sym, path)]
    else
      match fuel with
      | 0 => none
      | fuel + 1 =>
        match visit m fuel (nodeRead m i.toNat).left (path ++ [false]),
              visit m fuel (nodeRead m i.toNat).right (path ++ [true]) with
        | some l, some r => some (l ++ r)
        | _, _ => none

/-- The codes `GEN` records (rules R130, R131 and R132): the paths of the leaves, the one bit `0` for a tree of one node,
none for the empty tree. -/
def treeCodes (s : State) : Option (List (Byte × Bits)) :=
  if s.nnodes = 0#9 then some []
  else if s.nnodes = 1#9 then some [((s.nodeAt 0).sym, [false])]
  else visit s.node Config.codeMax s.root []

/-- The code table with the given entries and no other (rule R130). -/
def writeCodes (codes : List (Byte × Bits)) (s : State) : State :=
  codes.foldl (fun t c => setCode c.1 c.2 t) { s with len := Vector.replicate 256 0 }

/-- The writes of `GEN` (rule R130): the table, then "the tree is discarded". -/
def generateWrites (codes : List (Byte × Bits)) (s : State) : State :=
  { writeCodes codes s with nnodes := 0, root := Config.nil, phase := .table }

/-- `GEN` (rule R130). It stops, by name, only in states R30 rules out (see `Fault.treeMalformed`). -/
def execGen (s : State) : Outcome :=
  command (legal .gen s)
    (fun s =>
      match treeCodes s with
      | some codes => finish s (.ok (generateWrites codes s)) (fun _ => 0)
      | none => .fault .treeMalformed) s

/-- `TSEL sym` (rule R135). -/
def execTsel (sym : Byte) (s : State) : Outcome :=
  command (legal (.tsel sym) s)
    (fun s => finish s (.ok { setCode sym [] s with tsym := sym, phase := .load }) (fun _ => 0)) s

/-- `TBIT` past its legality (rule R136): append one bit to the entry of `TSYM`, or `ERR_RANGE` at 255 bits. -/
def extendEntry (bit : Bool) (s : State) : Working :=
  if s.lenOf s.tsym = 255#8 then .error .range
  else .ok (setCode s.tsym (s.codeword s.tsym ++ [bit]) s)

/-- `TBIT bit` (rule R136). -/
def execTbit (bit : Bool) (s : State) : Outcome :=
  command (legal (.tbit bit) s) (fun s => finish s (extendEntry bit s) (fun _ => 0)) s

/-- Two entries of which the first one's code is a prefix of, or equal to, the second one's (rule R137). -/
def clash (s : State) (t u : Byte) : Bool := t != u && (s.codeword t).isPrefixOf (s.codeword u)

/-- The check of `TEND` (rule R137): some pair of distinct entries clashes. -/
def tableClashes (s : State) : Bool := s.entries.any (fun t => s.entries.any (fun u => clash s t u))

/-- `TEND` past its legality (rule R137): seal the table, or `ERR_BAD_TABLE`. -/
def sealTable (s : State) : Working :=
  if tableClashes s then .error .badTable
  else .ok { s with nsym := BitVec.ofNat 9 s.entries.length, phase := .table }

/-- `TEND` (rule R137). -/
def execTend (s : State) : Outcome :=
  command (legal .tend s) (fun s => finish s (sealTable s) (fun _ => 0)) s

/-- `TLEN sym` (rule R138). -/
def execTlen (sym : Byte) (s : State) : Outcome :=
  command (legal (.tlen sym) s) (fun s => finish s (.ok s) (fun t => (t.lenOf sym).setWidth 32)) s

/-- `TGET sym, bi` (rule R139). -/
def execTget (sym bi : Byte) (s : State) : Outcome :=
  command (legal (.tget sym bi) s)
    (fun s => finish s (inRange (s.validBit sym bi) s)
      (fun t => (BitVec.ofBool ((t.codeword sym).getD bi.toNat false)).setWidth 32)) s

end Sys2Proof.Machine
end

