-- ==== Sys2Proof/Machine/Control.lean ====
section
/-! DEFINITION. The control commands NOP, CLR and STAT (spec/40_control.md rules R100 to R102), accepted in every phase,
`FAULT` among them. -/

namespace Sys2Proof.Machine

/-- `NOP` (rule R100): `ok(0)`. -/
def execNop (s : State) : Outcome := .next (respond 0 s)

/-- `CLR` (rule R101): every register at its reset value, then `ok(0)`. -/
def execClr (s : State) : Outcome := .next (respond 0 (clearBlock s))

/-- `STAT` (rule R102): `ok` of the status word. -/
def execStat (s : State) : Outcome := .next (respond (statusWord s) s)

end Sys2Proof.Machine
end

