-- ==== Sys2Proof/Machine/Decoder.lean ====
section
/-! DEFINITION. The bit unpacker and the codeword decoder: DBEG, DPL, DFIN (spec/44_unpacker_decoder.md). -/

namespace Sys2Proof.Machine

/-- `DBEG` past its legality (rules R170 and R171): a new session, or `ERR_MALFORMED_STREAM` for a raw header above 7. -/
def beginDecode (hdr : Byte) (s : State) : Working :=
  if 7#8 < hdr then .error .malformedStream
  else .ok { setCand [] s with
    ovalid := false, olen := 0, hdr := hdr.setWidth 3, hold := 0, holdV := false, phase := .decode }

/-- `DBEG hdr` (rule R170). -/
def execDbeg (hdr : Byte) (s : State) : Outcome :=
  command (legal (.dbeg hdr) s) (fun s => finish s (beginDecode hdr s) (fun _ => 0)) s

/-- The symbol whose codeword is `q` (rule R172): "unique, because no two symbols of a sealed table have equal codes". -/
def matching (q : Bits) (s : State) : Option Byte :=
  allSymbols.find? (fun t => (s.lenOf t).toNat == q.length && s.codeword t == q)

/-- `feed_bit(x)` (rules R172 and R177): the candidate grows by one bit; a match is emitted and empties it; 255 bits
without a match raise `ERR_MALFORMED_STREAM`. -/
def feedBit (x : Bool) (s : State) : Working :=
  match matching (s.candidate ++ [x]) s with
  | some t => (append t s).map (setCand [])
  | none =>
    if Config.codeMax ≤ (s.candidate ++ [x]).length then .error .malformedStream
    else .ok (setCand (s.candidate ++ [x]) s)

/-- `feed_bit` of each bit of a sequence in order; the first error ends it. -/
def feedBits : Bits → State → Working
  | [], s => .ok s
  | x :: q, s => (feedBit x s).bind (feedBits q)

/-- `DPL` past its legality (rule R173): all 8 bits of the byte held before, then the new byte is held. -/
def takePayload (byte : Byte) (s : State) : Working :=
  (if s.holdV then feedBits (bitsMsbFirst s.hold) s else .ok s).map
    (fun t => { t with hold := byte, holdV := true })

/-- `DPL byte` (rule R173). -/
def execDpl (byte : Byte) (s : State) : Outcome :=
  command (legal (.dpl byte) s) (fun s => finish s (takePayload byte s) (fun _ => 0)) s

/-- How many bits of the last payload byte are valid (rules R155 and R174): the header, 0 meaning 8. -/
def lastValidBits (hdr : BitVec 3) : Nat := if hdr = 0#3 then 8 else hdr.toNat

/-- Bits left in the candidate raise `ERR_MALFORMED_STREAM` (rule R174). -/
def candidateEmpty (s : State) : Working := if s.clen = 0#8 then .ok s else .error .malformedStream

/-- `DFIN` past its legality (rule R174): the valid bits of the last byte, then no bit may be left over. -/
def endDecode (s : State) : Working :=
  ((if s.holdV then feedBits ((bitsMsbFirst s.hold).take (lastValidBits s.hdr)) s else .ok s).bind candidateEmpty).map
    (fun t => { t with holdV := false, ovalid := true, phase := .table })

/-- `DFIN` (rule R174). -/
def execDfin (s : State) : Outcome :=
  command (legal .dfin s) (fun s => finish s (endDecode s) (fun _ => 0)) s

end Sys2Proof.Machine
end

