-- ==== Sys2Proof/Machine/Encoder.lean ====
section
/-! DEFINITION. The codeword encoder and the bit packer: EBEG, ENC, EFIN (spec/43_encoder_packer.md). -/

namespace Sys2Proof.Machine

/-- The writes of `EBEG` (rule R150): a new session, with the header's byte reserved. -/
def beginEncode (s : State) : Working :=
  (append 0 { s with ovalid := false, olen := 0 }).map
    (fun t => { t with acc := 0, nacc := 0, phase := .encode })

/-- `EBEG` (rule R150). -/
def execEbeg (s : State) : Outcome :=
  command (legal .ebeg s) (fun s => finish s (beginEncode s) (fun _ => 0)) s

/-- `push_bit(x)` (rule R152): `ACC[7 - NACC] <- x`; the eighth bit completes the byte, which is appended. -/
def pushBit (x : Bool) (s : State) : Working :=
  if s.nacc = 7#3 then
    (append (writeBit s.acc (7 - s.nacc.toNat) x) s).map (fun t => { t with acc := 0, nacc := 0 })
  else .ok { s with acc := writeBit s.acc (7 - s.nacc.toNat) x, nacc := s.nacc + 1 }

/-- `push_bit` of each bit of a sequence in order (rule R151); the first error ends it. -/
def pushBits : Bits → State → Working
  | [], s => .ok s
  | x :: q, s => (pushBit x s).bind (pushBits q)

/-- `ENC` past its legality (rule R151): the codeword of the byte, or `ERR_UNKNOWN_SYMBOL` before any bit. -/
def encodeByte (sym : Byte) (s : State) : Working :=
  if s.lenOf sym = 0#8 then .error .unknownSymbol else pushBits (s.codeword sym) s

/-- `ENC sym` (rule R151). -/
def execEnc (sym : Byte) (s : State) : Outcome :=
  command (legal (.enc sym) s) (fun s => finish s (encodeByte sym s) (fun _ => 0)) s

/-- The first half of `EFIN` (rule R153): the final, partly filled byte, when there is one. -/
def flushByte (s : State) : Working := if s.nacc = 0#3 then .ok s else append s.acc s

/-- The writes of `EFIN` (rule R153): the last byte, the header `NACC` at `OBUF[0]`, the packer emptied. -/
def endEncode (s : State) : Working :=
  (flushByte s).map
    (fun t => { t with obuf := t.obuf.write 0 (s.nacc.setWidth 8), acc := 0, nacc := 0, ovalid := true, phase := .table })

/-- `EFIN` (rule R153). -/
def execEfin (s : State) : Outcome :=
  command (legal .efin s) (fun s => finish s (endEncode s) (fun _ => 0)) s

end Sys2Proof.Machine
end

