-- ==== Sys2Proof/Machine/Output.lean ====
section
/-! DEFINITION. Reading the output buffer: OLEN and ORD (spec/45_output_buffer.md). -/

namespace Sys2Proof.Machine

/-- `OLEN` (rule R190). -/
def execOlen (s : State) : Outcome :=
  command (legal .olen s) (fun s => finish s (.ok s) (fun t => t.olen)) s

/-- `ORD addr` (rule R191). -/
def execOrd (addr : BitVec 32) (s : State) : Outcome :=
  command (legal (.ord addr) s)
    (fun s => finish s (inRange (s.validAddr addr) s) (fun t => (t.obufAt addr.toNat).setWidth 32)) s

end Sys2Proof.Machine
end

