-- ==== Sys2Proof/Machine/Dispatch.lean ====
section
/-! DEFINITION. The meaning of every command (spec/30_encoding.md rule R82), one arm per constructor of Instr. -/

namespace Sys2Proof.Machine

-- control (spec/40_control.md), tree builder (41), code table (42), encoder (43), decoder (44), output buffer (45)
def exec (i : Instr) (s : State) : Host.Outcome State Fault Refusal :=
  match i with
  | .nop => Sys2Proof.Machine.execNop s
  | .clr => Sys2Proof.Machine.execClr s
  | .stat => Sys2Proof.Machine.execStat s
  | .cnt sym => Sys2Proof.Machine.execCnt sym s
  | .bld => Sys2Proof.Machine.execBld s
  | .gen => Sys2Proof.Machine.execGen s
  | .frd sym => Sys2Proof.Machine.execFrd sym s
  | .ftot => Sys2Proof.Machine.execFtot s
  | .ncnt => Sys2Proof.Machine.execNcnt s
  | .nwt idx => Sys2Proof.Machine.execNwt idx s
  | .nlk idx => Sys2Proof.Machine.execNlk idx s
  | .tsel sym => Sys2Proof.Machine.execTsel sym s
  | .tbit bit => Sys2Proof.Machine.execTbit bit s
  | .tend => Sys2Proof.Machine.execTend s
  | .tlen sym => Sys2Proof.Machine.execTlen sym s
  | .tget sym bi => Sys2Proof.Machine.execTget sym bi s
  | .ebeg => Sys2Proof.Machine.execEbeg s
  | .enc sym => Sys2Proof.Machine.execEnc sym s
  | .efin => Sys2Proof.Machine.execEfin s
  | .dbeg hdr => Sys2Proof.Machine.execDbeg hdr s
  | .dpl byte => Sys2Proof.Machine.execDpl byte s
  | .dfin => Sys2Proof.Machine.execDfin s
  | .olen => Sys2Proof.Machine.execOlen s
  | .ord addr => Sys2Proof.Machine.execOrd addr s

end Sys2Proof.Machine
end

