-- ==== Sys2Proof/Machine/Ports.lean ====
section
/-! DEFINITION. The ports (spec/30_encoding.md rule R92): how the host's command words reach the block and its responses
reach the host, one rising edge of `clk` at a time, and the reset input (spec/70_reset_and_hazards.md rule R230). -/

namespace Sys2Proof.Machine

/-- A cycle in which the host drives nothing. -/
def PortIn.quiet : PortIn := { rst := false, cmdValid := false, cmdWord := 0, rspReady := false }

/-- The output port `cmd_ready` (rule R92): 0 from the issue of a command until its response has been delivered. DESIGN
CHOICE (notes/assumptions/15.md): also in a cycle with `rst` at 1 it is given by the state alone; rule R230 says that it is 1
only "once `rst` returns to 0". -/
def State.cmdReady (s : State) : Bool := s.rsp.isNone

/-- The output port `rsp_valid` (rule R92). DESIGN CHOICE (notes/assumptions/15.md): also in a cycle with `rst` at 1 it is
given by the state alone; rule R230 says that it is 0 only "once `rst` returns to 0". -/
def State.rspValid (s : State) : Bool := s.rsp.isSome && s.rspDelay == 0

/-- The output port `rsp_err` (rule R92), meant only while `rsp_valid` is 1. -/
def State.rspErr (s : State) : BitVec 4 := (s.rsp.map (fun r => r.err)).getD 0

/-- The output port `rsp_data` (rule R92), meant only while `rsp_valid` is 1. -/
def State.rspData (s : State) : BitVec 32 := (s.rsp.map (fun r => r.data)).getD 0

/-- One command word, run to its response (rule R89): a command is executed; an illegal word raises `ERR_ILLEGAL`, but in
phase `FAULT`, which is looked at first, it is answered `ERR_FAULTED`. -/
def runWord (w : CmdWord) (s : State) : Outcome :=
  match decode w with
  | .ok i => exec i s
  | .error _ => .next (if s.phase = .fault then answerFaulted s else raise .illegal s)

/-- The block as a command is issued: the response will be valid after the command's latency, a free value (rule R243,
notes/assumptions/4.md). -/
def startCommand (s : State) : State :=
  { s with rspDelay := s.latencies.headD 0, latencies := s.latencies.tail }

/-- A response delivered (rule R92): `rsp_valid = rsp_ready = 1`. -/
def deliver (r : Response) (s : State) : State :=
  { s with rsp := none, delivered := s.delivered ++ [r] }

/-- An edge with `rst` = 1 (rule R230): every register at its reset value; "a command in progress is abandoned without a
response". A word offered or a response accepted at this edge is passed over (notes/assumptions/8.md). -/
def resetEdge (s : State) : State := { clearBlock s with rsp := none, rspDelay := 0 }

/-- An edge while a response is outstanding (rule R92): its latency passes, or it waits for the host, or it is delivered.
No command is taken. -/
def responseEdge (r : Response) (ready : Bool) (s : State) : State :=
  if s.rspDelay = 0 then (if ready then deliver r s else s) else { s with rspDelay := s.rspDelay - 1 }

/-- One rising edge of `clk` with the inputs `p` (rules R92 and R230). -/
def clockEdge (p : PortIn) (s : State) : Outcome :=
  if p.rst then .next (resetEdge s)
  else
    match s.rsp with
    | some r => .next (responseEdge r p.rspReady s)
    | none => if p.cmdValid then runWord p.cmdWord (startCommand s) else .next s

/-- What the host drives at the coming edge: its next input, or nothing (rule R20). -/
def nextInput (s : State) : PortIn := s.inputs.headD PortIn.quiet

/-- The state with the coming edge's input taken. -/
def takeInput (s : State) : State := { s with inputs := s.inputs.tail }

/-- The input of an edge that issues the command word `w`. -/
def issueInput (w : CmdWord) : PortIn := { rst := false, cmdValid := true, cmdWord := w, rspReady := true }

/-- A host that issues the given words, each response taken at once: for each word an edge that issues it and an edge that
takes its response (valid already, when the latency is 0). -/
def hostInputs (ws : List CmdWord) : List PortIn :=
  ws.flatMap (fun w => [issueInput w, { PortIn.quiet with rspReady := true }])

end Sys2Proof.Machine
end

