-- ==== Sys2Proof/Machine/Step.lean ====
section
/-! DEFINITION. One step of the machine: one rising edge of the clock (spec/30_encoding.md rule R92). -/

namespace Sys2Proof.Machine

/-- One step: the coming edge of `clk`, with what the host drives there. Every command issued there is run to its
response in this one step (spec/00_scope.md rule R10); the block never stops of itself (spec/70_reset_and_hazards.md rule
R236). -/
def step (s : State) : Host.Outcome State Fault Refusal := clockEdge (nextInput s) (takeInput s)

/-- `s` with the word that spec/opcode_table.json numbers `w` offered by the host at the coming edge, and no response
outstanding, so that the very next step issues it. -/
def State.withFetchWord (s : State) (nbits w : Nat) : State :=
  { s with inputs := issueInput (BitVec.ofNat 40 (w % 2 ^ nbits)) :: s.inputs, rsp := none }

end Sys2Proof.Machine
end

