-- ==== Sys2Proof/Machine/Assembler.lean ====
section
/-! DEFINITION. The text form of a command script (spec/30_encoding.md rule R86): one command a line, decimal or `0x`
operands or one ASCII character in single quotes, a comment from `#` on, and after `=>` the expected response. The spec
has no toolchain: "this syntax exists only so that the spec can write programs down". -/

namespace Sys2Proof.Machine

/-- The command of a well-formed line; the assembler refuses every other ("an operand that does not fit its field"). -/
def assemble (l : Line) : Option Instr :=
  if l.wellFormed then
    match l.mnemonic, l.operands with
    | "NOP", [] => some .nop
    | "CLR", [] => some .clr
    | "STAT", [] => some .stat
    | "CNT", [a] => some (.cnt (BitVec.ofNat 8 a))
    | "BLD", [] => some .bld
    | "GEN", [] => some .gen
    | "FRD", [a] => some (.frd (BitVec.ofNat 8 a))
    | "FTOT", [] => some .ftot
    | "NCNT", [] => some .ncnt
    | "NWT", [a] => some (.nwt (BitVec.ofNat 9 a))
    | "NLK", [a] => some (.nlk (BitVec.ofNat 9 a))
    | "TSEL", [a] => some (.tsel (BitVec.ofNat 8 a))
    | "TBIT", [a] => some (.tbit (a == 1))
    | "TEND", [] => some .tend
    | "TLEN", [a] => some (.tlen (BitVec.ofNat 8 a))
    | "TGET", [a, b] => some (.tget (BitVec.ofNat 8 a) (BitVec.ofNat 8 b))
    | "EBEG", [] => some .ebeg
    | "ENC", [a] => some (.enc (BitVec.ofNat 8 a))
    | "EFIN", [] => some .efin
    | "DBEG", [a] => some (.dbeg (BitVec.ofNat 8 a))
    | "DPL", [a] => some (.dpl (BitVec.ofNat 8 a))
    | "DFIN", [] => some .dfin
    | "OLEN", [] => some .olen
    | "ORD", [a] => some (.ord (BitVec.ofNat 32 a))
    | _, _ => none
  else none

/-- The parts of a line. -/
inductive Token where
  | word (name : List Char)
  | num (v : Nat)
  | comma
  | arrow
deriving DecidableEq, Repr

/-- The digits of the numbers of a script, each at the place of its value (rule R86: decimal, and hexadecimal, which
spec/95_test_vectors.md writes with capitals). -/
def digits : List Char := "0123456789ABCDEF".toList

/-- The value of a digit in a base, or none; a hexadecimal digit may be a small letter (notes/assumptions/12.md). -/
def digitIn (base : Nat) (c : Char) : Option Nat := (digits.take base).idxOf? c.toUpper

/-- A non-empty number in a base, most significant digit first. -/
def numberIn (base : Nat) (cs : List Char) : Option Nat :=
  if cs.isEmpty then none
  else cs.foldl (fun n c => n.bind (fun n => (digitIn base c).map (fun d => base * n + d))) (some 0)

/-- A run of characters: a name, a `0x` number or a decimal number. -/
def classify (cs : List Char) : Option Token :=
  if cs.all (fun c => c.isUpper || c == '_') then some (.word cs)
  else
    match cs with
    | '0' :: 'x' :: ds => (numberIn 16 ds).map .num
    | ds => (numberIn 10 ds).map .num

/-- The token of a run, put before the tokens that follow it. -/
def flushRun (run : List Char) (rest : Option (List Token)) : Option (List Token) :=
  if run.isEmpty then rest else (classify run).bind (fun t => rest.map (fun ts => t :: ts))

/-- The tokens of a line, `run` being the characters of the run that has begun. -/
def tokens (run : List Char) : List Char → Option (List Token)
  | [] => flushRun run (some [])
  | '\'' :: c :: '\'' :: cs => flushRun run ((tokens [] cs).map (fun ts => .num c.toNat :: ts))
  | '#' :: _ => flushRun run (some [])
  | '=' :: '>' :: cs => flushRun run ((tokens [] cs).map (fun ts => .arrow :: ts))
  | ',' :: cs => flushRun run ((tokens [] cs).map (fun ts => .comma :: ts))
  | c :: cs => if c == ' ' || c == '\t' then flushRun run (tokens [] cs) else tokens (run ++ [c]) cs

/-- A line of a script: its command, if it has one, and the response written after `=>`, if one is. -/
structure ScriptLine where
  command : Option Line
  err : Option (BitVec 4)
  data : Option Nat
deriving DecidableEq, Repr

/-- The code of a response's name (rule R200). -/
def responseCode (name : List Char) : Option (BitVec 4) :=
  [("OK", 0#4), ("ERR_ILLEGAL", ErrorCode.illegal.code), ("ERR_SEQ", ErrorCode.seq.code),
   ("ERR_UNKNOWN_SYMBOL", ErrorCode.unknownSymbol.code), ("ERR_MALFORMED_STREAM", ErrorCode.malformedStream.code),
   ("ERR_RANGE", ErrorCode.range.code), ("ERR_COUNT_OVERFLOW", ErrorCode.countOverflow.code),
   ("ERR_OBUF_FULL", ErrorCode.obufFull.code), ("ERR_BAD_TABLE", ErrorCode.badTable.code),
   ("ERR_FAULTED", errFaulted)].lookup (String.ofList name)

/-- The operands at the front of a token list and what stands after them. -/
def operandTokens : List Token → Option (List Nat × List Token)
  | .num v :: .comma :: ts => (operandTokens ts).bind (fun r => if r.1.isEmpty then none else some (v :: r.1, r.2))
  | .num v :: ts => some ([v], ts)
  | ts => some ([], ts)

/-- A line from its tokens. -/
def lineOf : List Token → Option ScriptLine
  | [] => some { command := none, err := none, data := none }
  | .word m :: ts =>
    (operandTokens ts).bind (fun r =>
      let cmd : Line := { mnemonic := String.ofList m, operands := r.1 }
      match r.2 with
      | [] => some { command := some cmd, err := none, data := none }
      | [.arrow, .word e] => (responseCode e).map (fun c => { command := some cmd, err := some c, data := none })
      | [.arrow, .word e, .num d] =>
        (responseCode e).map (fun c => { command := some cmd, err := some c, data := some d })
      | _ => none)
  | _ => none

/-- A line from its text. -/
def parseLine (text : List Char) : Option ScriptLine := (tokens [] text).bind lineOf

/-- The command that a line of text stands for, if it holds one that the assembler accepts. -/
def assembleText (text : List Char) : Option Instr :=
  (parseLine text).bind (fun l => l.command.bind assemble)

end Sys2Proof.Machine
end

