-- ==== Sys2Proof/Machine/Script.lean ====
section
/-! DEFINITION. Command sequences: the pseudo-commands of spec/30_encoding.md rule R87, and running a sequence of commands
one after another in the order issued (spec/20_memory.md rule R69), with the responses collected (rule R88). -/

namespace Sys2Proof.Machine

/-- `COUNT b` (rule R87). -/
def countAll (b : List Byte) : List Instr := b.map .cnt

/-- `ENCODE b` (rule R87): an encode session. -/
def encodeSession (b : List Byte) : List Instr := .ebeg :: (b.map .enc ++ [.efin])

/-- `CLR`, `COUNT b`, `BLD`, `GEN`: the first part of `COMPRESS b` (rule R87). -/
def makeTable (b : List Byte) : List Instr := .clr :: (countAll b ++ [.bld, .gen])

/-- `COMPRESS b` (rule R87). -/
def compress (b : List Byte) : List Instr := makeTable b ++ encodeSession b

/-- `LOADTABLE t` (rule R87). -/
def loadTable (t : List (Byte × Bits)) : List Instr :=
  t.flatMap (fun e => .tsel e.1 :: e.2.map .tbit) ++ [.tend]

/-- `DECODE h, p` (rule R87): a decode session. -/
def decodeSession (h : Byte) (p : List Byte) : List Instr := .dbeg h :: (p.map .dpl ++ [.dfin])

/-- `DECOMPRESS t, h, p` (rule R87). -/
def decompress (t : List (Byte × Bits)) (h : Byte) (p : List Byte) : List Instr :=
  .clr :: (loadTable t ++ decodeSession h p)

/-- `READTABLE` (rule R87), given the lengths that its `TLEN` commands return. -/
def readTable (len : Vector (BitVec 8) 256) : List Instr :=
  allSymbols.flatMap (fun t => .tlen t :: (List.range (fileRead len t).toNat).map (fun i => .tget t (BitVec.ofNat 8 i)))

/-- The table that the host makes of the answers to `READTABLE` (rules R87 and R140), symbol by symbol: the length that
`TLEN` answered, then as many bits as there are `TGET` answers; a symbol of length 0 has no entry. -/
def tableRead : List Byte → List Response → List (Byte × Bits)
  | t :: ts, r :: rs =>
    let q := (rs.take r.data.toNat).map (fun a => a.data == 1)
    let rest := tableRead ts (rs.drop r.data.toNat)
    if q.isEmpty then rest else (t, q) :: rest
  | _, _ => []

/-- `READOUT` (rule R87), given the length `n` that its `OLEN` returns. -/
def readOut (n : Nat) : List Instr := .olen :: (List.range n).map (fun a => .ord (BitVec.ofNat 32 a))

/-- The commands one after another (rule R69): each sees every write of every earlier one. -/
def execAll : List Instr → State → Outcome
  | [], s => .next s
  | i :: is, s =>
    match exec i s with
    | .next t => execAll is t
    | .fault f => .fault f
    | .refused r => .refused r

/-- The responses of the commands, in command order (rule R92: "one per command"). -/
def responses : List Instr → State → List Response
  | [], _ => []
  | i :: is, s =>
    match exec i s with
    | .next t => t.rsp.toList ++ responses is t
    | .fault _ => []
    | .refused _ => []

end Sys2Proof.Machine
end

