-- ==== Sys2Proof/Safety.lean ====
section
/-! DEFINITION. What claims about the block are stated in: how a command ends, the invariants that spec/10_state.md
(rules R23, R24, R28, R30, R33, R34, R37, R38) and spec/43_encoder_packer.md rule R152 give, the greedy rule of
spec/41_tree_builder.md rules R113 to R115 said of a finished tree, and the bit stream that the packer's registers and the
output buffer hold together. -/

namespace Sys2Proof.Machine

/-- The command succeeds with the answer `d` (rule R88) and leaves the state `t`, `t.rsp` apart. -/
def Answers (i : Instr) (s : State) (d : BitVec 32) (t : State) : Prop :=
  exec i s = .next { t with rsp := some { err := 0, data := d } }

/-- The command raises `e` (rule R201): the three writes, the response `(e, 0)`, and nothing else. -/
def Raises (i : Instr) (s : State) (e : ErrorCode) : Prop :=
  exec i s = .next { s with
    phase := .fault, err := some e, ovalid := false, rsp := some { err := e.code, data := 0 } }

/-- The command's word carries the opcode in bits 39:32 (rule R80), and its operands have the form. -/
def EncodedAs (i : Instr) (op : BitVec 8) (f : Form) : Prop := opField (encode i) = op ∧ i.form = f

/-- What `READOUT` answers (rule R87): the number of bytes, then each byte. -/
def readAnswers (b : List Byte) : List Response :=
  { err := 0, data := BitVec.ofNat 32 b.length } :: b.map (fun x => { err := 0, data := x.setWidth 32 })

/-- What `READTABLE` answers (rule R87): for every symbol its length, then each bit of its codeword. -/
def tableAnswers (s : State) : List Response :=
  allSymbols.flatMap (fun t => { err := 0, data := (s.lenOf t).setWidth 32 } ::
    (s.codeword t).map (fun x => { err := 0, data := if x then 1 else 0 }))

/-- The code table as a list: the symbols that have an entry, in ascending order, each with its codeword (rule R140:
"its length and its bits"). -/
def tableCodes (s : State) : List (Byte × Bits) := s.entries.map (fun t => (t, s.codeword t))

/-- `NSYM` as a number (rule R25). -/
def State.k (s : State) : Nat := s.nsym.toNat

/-- The number of symbols that occur (rule R27: "symbol s is present exactly when FREQ[s] > 0"). -/
def State.present (s : State) : List Byte := allSymbols.filter (fun t => s.freqOf t ≠ 0#32)

/-- `TOTAL` is the sum of the counts (rule R28). -/
def TotalIsSum (s : State) : Prop := (allSymbols.map (fun t => (s.freqOf t).toNat)).sum = s.total.toNat

/-- No codeword of the table is a prefix of, or equal to, another symbol's (rules R33 and R137). -/
def PrefixFree (s : State) : Prop :=
  ∀ t u : Byte, t ≠ u → s.lenOf t ≠ 0#8 → s.lenOf u ≠ 0#8 → ¬ s.codeword t <+: s.codeword u

/-- The table invariant (rule R33); that `BITS[s]` has `LEN[s]` bits holds of every state. -/
structure TableInv (s : State) : Prop where
  prefixFree : PrefixFree s
  count : s.k = s.entries.length

/-- The tree invariants (rule R30). -/
structure TreeInv (s : State) : Prop where
  k_le : s.k ≤ 256
  nnodes_eq : s.nnodes.toNat = if s.k = 0 then 0 else 2 * s.k - 1
  root_nil : s.k = 0 → s.root = Config.nil
  root_last : 0 < s.k → s.root.toNat + 1 = s.nnodes.toNat
  leaves : ∀ i, i < s.k → (s.nodeAt i).leaf = true ∧ (s.nodeAt i).left = Config.nil ∧
    (s.nodeAt i).right = Config.nil ∧ (s.nodeAt i).w = s.freqOf (s.nodeAt i).sym ∧ (s.nodeAt i).w ≠ 0
  ascending : ∀ i j, i < j → j < s.k → (s.nodeAt i).sym < (s.nodeAt j).sym
  leaf_of_present : ∀ t, s.freqOf t ≠ 0#32 → ∃ i, i < s.k ∧ (s.nodeAt i).sym = t
  internal : ∀ i, s.k ≤ i → i < s.nnodes.toNat → (s.nodeAt i).leaf = false ∧ (s.nodeAt i).sym = 0 ∧
    (s.nodeAt i).left.toNat < i ∧ (s.nodeAt i).right.toNat < i ∧ (s.nodeAt i).left ≠ (s.nodeAt i).right ∧
    (s.nodeAt i).w.toNat =
      (s.nodeAt (s.nodeAt i).left.toNat).w.toNat + (s.nodeAt (s.nodeAt i).right.toNat).w.toNat
  one_parent : ∀ j, j < s.nnodes.toNat → j ≠ s.root.toNat →
    ∃! i, s.k ≤ i ∧ i < s.nnodes.toNat ∧ ((s.nodeAt i).left.toNat = j ∨ (s.nodeAt i).right.toNat = j)
  root_weight : 0 < s.k → (s.nodeAt s.root.toNat).w = s.total

/-- Node `j` is in the active set when node `i` is made (rule R113): it exists, and no earlier merge took it. -/
def ActiveAt (s : State) (i j : Nat) : Prop :=
  j < i ∧ ∀ m, s.k ≤ m → m < i → (s.nodeAt m).left.toNat ≠ j ∧ (s.nodeAt m).right.toNat ≠ j

/-- Node `i` is lower than node `j` (rule R114): the smaller pair (weight, index). -/
def Lower (s : State) (i j : Nat) : Prop :=
  (s.nodeAt i).w < (s.nodeAt j).w ∨ ((s.nodeAt i).w = (s.nodeAt j).w ∧ i < j)

/-- The greedy rule (rules R113 to R115), said of the finished tree: each internal node was made over the two lowest nodes
then active, the lower on the left, with the sum of their weights. -/
def GreedyTree (s : State) : Prop :=
  ∀ i, s.k ≤ i → i < s.nnodes.toNat →
    (s.nodeAt i).leaf = false ∧ (s.nodeAt i).sym = 0 ∧
    (s.nodeAt i).w = (s.nodeAt (s.nodeAt i).left.toNat).w + (s.nodeAt (s.nodeAt i).right.toNat).w ∧
    ActiveAt s i (s.nodeAt i).left.toNat ∧ ActiveAt s i (s.nodeAt i).right.toNat ∧
    Lower s (s.nodeAt i).left.toNat (s.nodeAt i).right.toNat ∧
    ∀ j, ActiveAt s i j → j ≠ (s.nodeAt i).left.toNat → j ≠ (s.nodeAt i).right.toNat →
      Lower s (s.nodeAt i).right.toNat j

/-- Where a path from a node leads (rule R130): `0` goes left, `1` goes right, a leaf and `NIL` lead nowhere. -/
def walk (s : State) : NodeIdx → Bits → Option NodeIdx
  | i, [] => if i = Config.nil then none else some i
  | i, x :: q =>
    if i = Config.nil then none
    else if (s.nodeAt i.toNat).leaf then none
    else walk s (if x then (s.nodeAt i.toNat).right else (s.nodeAt i.toNat).left) q

/-- The bytes of the output buffer (rule R38). -/
def outBytes (s : State) : List Byte := (List.range s.olen.toNat).map s.obufAt

/-- The bits of an open encode session in the order they were packed (rules R62 and R152): those of the complete payload
bytes, then those in `ACC`. -/
def packedBits (s : State) : Bits :=
  (outBytes s).tail.flatMap bitsMsbFirst ++ (bitsMsbFirst s.acc).take s.nacc.toNat

/-- The unused low bits of `ACC` are 0 (rules R34 and R152). -/
def AccClean (s : State) : Prop := ∀ i, i < 8 - s.nacc.toNat → s.acc.getLsbD i = false

/-- The packer's invariant in phase `ENCODE` (rule R152). -/
structure PackerInv (s : State) : Prop where
  headerReserved : 1 ≤ s.olen.toNat
  clean : AccClean s

/-- No codeword is a prefix of `q`, so that a decoder that tests after every bit has found no match in it (rule R172). -/
def NoMatchIn (s : State) (q : Bits) : Prop := ∀ t : Byte, s.lenOf t ≠ 0#8 → ¬ s.codeword t <+: q

/-- The decoder's invariant in phase `DECODE` (rule R37). -/
structure DecoderInv (s : State) : Prop where
  short : s.clen.toNat ≤ 254
  noMatch : NoMatchIn s s.candidate

/-- What every response obeys (rules R88 and R200): an error carries no data, and codes 9 to 14 are never produced. -/
def ResponseOk (r : Response) : Prop := (r.err ≠ 0#4 → r.data = 0#32) ∧ (r.err.toNat ≤ 8 ∨ r.err = errFaulted)

/-- The invariant of the whole machine. -/
structure Inv (s : State) : Prop where
  /-- "`ERR ≠ 0` exactly when `PHASE = FAULT`" (rule R23). -/
  err_iff_fault : s.err ≠ none ↔ s.phase = .fault
  /-- The output is readable only between a finished session and the next command that ends it (rule R24). -/
  ovalid_table : s.ovalid = true → s.phase = .table
  /-- Rule R28. -/
  total_sum : TotalIsSum s
  /-- Rule R6: `OBUF_SIZE` is at least 1. -/
  size_pos : s.obufSize ≠ 0#32
  /-- Rule R38. -/
  olen_le : s.olen.toNat ≤ s.obufSize.toNat
  /-- The canonical form of the output buffer. -/
  obuf_wf : Memory.wf s.obuf
  /-- Rule R38: the buffer's bytes are `OBUF[0..OBUF_SIZE-1]`. -/
  obuf_inside : ∀ c ∈ s.obuf, c.1 < s.obufSize.toNat
  /-- Rule R25. -/
  nsym_le : s.k ≤ 256
  /-- Before a tree or a table exists there is none: rules R25, R91 and R101. -/
  idle_empty : s.phase = .idle → s.k = 0 ∧ ∀ t, s.lenOf t = 0#8
  load_unsealed : s.phase = .load → s.k = 0
  /-- The tree exists only in phase `TREE` (rule R30). -/
  tree_gone : s.phase ≠ .tree → s.phase ≠ .fault → s.nnodes = 0#9 ∧ s.root = Config.nil
  tree : s.phase = .tree → TreeInv s
  /-- Rule R33. -/
  table : s.phase = .table ∨ s.phase = .encode ∨ s.phase = .decode → TableInv s
  packer : s.phase = .encode → PackerInv s
  decoder : s.phase = .decode → DecoderInv s
  responses_ok : ∀ r, r ∈ s.rsp.toList ∨ r ∈ s.delivered → ResponseOk r

/-- Two states that differ at most in what rule R40 calls unspecified and unreadable: node entries that are not valid, the
storage of `BITS` beyond `LEN`, of `CAND` beyond `CLEN`, and the output buffer beyond `OLEN`. -/
structure SameReadable (s t : State) : Prop where
  rest : { s with node := t.node, bits := t.bits, cand := t.cand, obuf := t.obuf } = t
  node : ∀ i, i < s.nnodes.toNat → s.nodeAt i = t.nodeAt i
  code : ∀ u, s.codeword u = t.codeword u
  cand : s.candidate = t.candidate
  obuf : ∀ a, a < s.olen.toNat → s.obufAt a = t.obufAt a

/-- The codes of a byte sequence one after another (rule R151: "Concatenate each byte's codeword in input order"). -/
def codeStream (s : State) (b : List Byte) : Bits := b.flatMap s.codeword

/-- Every byte of a sequence has an entry in the table. -/
def Covered (s : State) (b : List Byte) : Prop := ∀ x ∈ b, s.lenOf x ≠ 0#8

/-- The two states hold the same code table (rules R31 and R72). -/
def SameTable (s t : State) : Prop := ∀ u, s.lenOf u = t.lenOf u ∧ s.codeword u = t.codeword u

/-- `LOADTABLE c` (rule R87) in the state `u` ends in phase `TABLE` with the table that `s` holds. -/
def LoadsTableOf (s u : State) (c : List (Byte × Bits)) : Prop :=
  ∃ t, execAll (loadTable c) u = .next t ∧ t.phase = .table ∧ t.nsym = s.nsym ∧ SameTable t s ∧ TableInv t

end Sys2Proof.Machine
end

