-- ==== Sys2Proof/Certificates/Slice0/Obligations.lean ====
section
/-! DEFINITION. The statements for the provers. `Answers` and `Raises` (Sys2Proof/Safety.lean) are equations
`exec i s = .next …`: each such statement says that the command completes, what it leaves, and that everything else is
unchanged. -/

open Sys2Proof Sys2Proof.Machine

/-! ### Encoding (spec/30_encoding.md) -/

/-- Every well-formed command survives encoding: no operand bit is dropped (rules R80 and R81). -/
def Obligations.DecodeOfEncode : Prop :=
  ∀ i : Instr, i.wellFormed = true → decode (encode i) = .ok i

/-- Each word has one meaning: a word that decodes is the word of its command (rules R80 to R83). -/
def Obligations.EncodeOfDecode : Prop :=
  ∀ (w : CmdWord) (i : Instr), decode w = .ok i → encode i = w

/-- Rule R82: "a word `w` is the command of a row exactly when `w AND mask = match`. The rows are disjoint." -/
def Obligations.WordIsRowsCommandExactlyWhenMasked : Prop :=
  (∀ (w : CmdWord) (row : OpcodeRow), row ∈ opcodeTable →
    ((w &&& row.mask = row.pattern) ↔ ∃ i, decode w = .ok i ∧ i.mnemonic = row.mnemonic ∧ i.form = row.form)) ∧
  (∀ (w : CmdWord) (row row' : OpcodeRow), row ∈ opcodeTable → row' ∈ opcodeTable →
    w &&& row.mask = row.pattern → w &&& row'.mask = row'.pattern → row = row')

/-- Rule R83: a word that matches no row is illegal, and raises `ERR_ILLEGAL` when the phase is not `FAULT`. -/
def Obligations.UnmatchedWordRaisesIllegal : Prop :=
  ∀ (w : CmdWord) (s : State), (∀ row ∈ opcodeTable, w &&& row.mask ≠ row.pattern) → s.phase ≠ .fault →
    runWord w s = .next { s with
      phase := .fault, err := some .illegal, ovalid := false, rsp := some { err := 1, data := 0 } }

/-- The assembler of rule R86 accepts exactly the script lines of commands: it refuses an operand that does not fit its
field and cannot produce an illegal word. -/
def Obligations.AssemblerIsExact : Prop :=
  ∀ (l : Line) (i : Instr), assemble l = some i ↔ i.line = l

/-- Words written out from rules R80 to R82 decode to the commands they stand for. -/
def Obligations.WrittenOutWordsDecode : Prop :=
  decode 0x1000000061 = .ok (.cnt 0x61) ∧ decode 0x16000001FE = .ok (.nwt 510) ∧
  decode 0x2100000001 = .ok (.tbit true) ∧ decode 0x2400000163 = .ok (.tget 0x63 1) ∧
  decode 0x310000007A = .ok (.enc 0x7A) ∧ decode 0x40000000FF = .ok (.dbeg 0xFF) ∧
  decode 0x51FFFFFFFF = .ok (.ord 0xFFFFFFFF) ∧ decode 0x2400010000 = .error .reservedBitSet ∧
  decode 0x0300000000 = .error .unassignedOpcode

/-! ### Processing a word, the ports, reset (spec/30_encoding.md, spec/60_exceptions.md, spec/70_reset_and_hazards.md) -/

/-- When the host offers a word at the coming edge and no response is outstanding: if the word decodes to `i`, the step is
`exec i`; if it decodes to no command, the step raises `ERR_ILLEGAL`, or answers `ERR_FAULTED` and changes nothing else in
phase `FAULT` (rules R83 and R89). What the step adds is that the edge's input is used up and that the command's latency is
drawn. THE MODEL'S, not the spec's: that the edge's input is the head of a list (log entry 3), that the latency is the head of `latencies`, 0 when none
is listed (log entry 4), and that the command's writes are made at the issuing edge (log entry 7). -/
def Obligations.StepRunsTheIssuedCommand : Prop :=
  ∀ (s : State) (p : PortIn) (rest : List PortIn),
    s.inputs = p :: rest → p.rst = false → p.cmdValid = true → s.rsp = none →
    let issued := { s with inputs := rest, rspDelay := s.latencies.headD 0, latencies := s.latencies.tail }
    (∀ i, decode p.cmdWord = .ok i → step s = exec i issued) ∧
    ((∀ i, decode p.cmdWord ≠ .ok i) →
      (s.phase ≠ .fault → step s = .next { issued with
        phase := .fault, err := some .illegal, ovalid := false, rsp := some { err := 1, data := 0 } }) ∧
      (s.phase = .fault → step s = .next { issued with rsp := some { err := 15, data := 0 } }))

/-- Rule R89: the steps every word goes through, in order: the phase `FAULT` is looked at first, then whether the word is a
command, then whether the phase accepts it; only then is it executed by its own rule. -/
def Obligations.WordsAreProcessedInOrder : Prop :=
  ∀ (w : CmdWord) (s : State),
    (∀ i, s.phase = .fault → decode w = .ok i → i = .nop ∨ i = .clr ∨ i = .stat → runWord w s = exec i s) ∧
    (s.phase = .fault → decode w ≠ .ok .nop → decode w ≠ .ok .clr → decode w ≠ .ok .stat →
      runWord w s = .next { s with rsp := some { err := 15, data := 0 } }) ∧
    (s.phase ≠ .fault → (∀ i, decode w ≠ .ok i) → runWord w s = .next { s with
      phase := .fault, err := some .illegal, ovalid := false, rsp := some { err := 1, data := 0 } }) ∧
    (∀ i, s.phase ≠ .fault → decode w = .ok i → legal i s = false → runWord w s = .next { s with
      phase := .fault, err := some .seq, ovalid := false, rsp := some { err := 2, data := 0 } }) ∧
    (∀ i, s.phase ≠ .fault → decode w = .ok i → legal i s = true → runWord w s = exec i s)

/-- Rule R202: what a faulted block answers to each word, and what it changes. Nothing is said of the contents of `NODE`,
`BITS` and `OBUF` after `CLR`, nor of `CAND`'s storage beyond `CLEN`. -/
def Obligations.FaultedBlockAnswers : Prop :=
  ∀ (s : State) (w : CmdWord), s.phase = .fault →
    (decode w = .ok .nop → runWord w s = .next { s with rsp := some { err := 0, data := 0 } }) ∧
    (decode w = .ok .stat → runWord w s = .next { s with rsp := some { err := 0, data := statusWord s } }) ∧
    (decode w = .ok .clr → ∃ t, runWord w s = .next t ∧ t.rsp = some { err := 0, data := 0 } ∧
      t.candidate = [] ∧
      t = { State.reset with
        node := t.node, bits := t.bits, cand := t.cand, obuf := t.obuf, obufSize := s.obufSize, inputs := s.inputs
        rsp := t.rsp, rspDelay := s.rspDelay, latencies := s.latencies, delivered := s.delivered }) ∧
    (decode w ≠ .ok .nop → decode w ≠ .ok .stat → decode w ≠ .ok .clr →
      runWord w s = .next { s with rsp := some { err := 15, data := 0 } })

/-- Rule R90: the whole legality table, and that a command outside it raises `ERR_SEQ` while one inside it is executed by
its own rule and answers neither `ERR_SEQ` nor `ERR_FAULTED`, and that in phase `FAULT` every other command is answered
`ERR_FAULTED` and changes nothing. -/
def Obligations.LegalityTable : Prop :=
  (∀ (i : Instr) (s : State), s.phase ≠ .fault → legal i s = false → Raises i s .seq) ∧
  (∀ (i : Instr) (s t : State) (r : Response), legal i s = true → exec i s = .next t → t.rsp = some r →
    r.err ≠ 2#4 ∧ r.err ≠ 15#4) ∧
  (∀ (i : Instr) (s : State), s.phase = .fault → i ≠ .nop → i ≠ .clr → i ≠ .stat →
    legal i s = false ∧ exec i s = .next { s with rsp := some { err := 15, data := 0 } }) ∧
  (∀ (s : State) (x y : Byte) (j : NodeIdx) (b : Bool) (a : BitVec 32),
    (∀ i, i = .nop ∨ i = .clr ∨ i = .stat → legal i s = true) ∧
    (∀ i, i = .frd x ∨ i = .ftot → (legal i s = true ↔ s.phase ≠ .fault)) ∧
    (∀ i, i = .cnt x ∨ i = .bld → (legal i s = true ↔ s.phase = .idle)) ∧
    (∀ i, i = .ncnt ∨ i = .nwt j ∨ i = .nlk j ∨ i = .gen → (legal i s = true ↔ s.phase = .tree)) ∧
    (∀ i, i = .tsel x ∨ i = .tend → (legal i s = true ↔ s.phase = .idle ∨ s.phase = .load)) ∧
    (legal (.tbit b) s = true ↔ s.phase = .load) ∧
    (∀ i, i = .tlen x ∨ i = .tget x y ∨ i = .ebeg ∨ i = .dbeg x → (legal i s = true ↔ s.phase = .table)) ∧
    (∀ i, i = .olen ∨ i = .ord a → (legal i s = true ↔ s.phase = .table ∧ s.ovalid = true)) ∧
    (∀ i, i = .enc x ∨ i = .efin → (legal i s = true ↔ s.phase = .encode)) ∧
    (∀ i, i = .dpl x ∨ i = .dfin → (legal i s = true ↔ s.phase = .decode)))

/-- Rule R201: faults are precise. A command that answers an error code 1 to 8 leaves exactly the three writes of the
fault sequence on the state before it. The codes are those of rule R200's table. -/
def Obligations.FaultsArePrecise : Prop :=
  (ErrorCode.illegal.code = 1#4 ∧ ErrorCode.seq.code = 2#4 ∧ ErrorCode.unknownSymbol.code = 3#4 ∧
    ErrorCode.malformedStream.code = 4#4 ∧ ErrorCode.range.code = 5#4 ∧ ErrorCode.countOverflow.code = 6#4 ∧
    ErrorCode.obufFull.code = 7#4 ∧ ErrorCode.badTable.code = 8#4) ∧
  ∀ (i : Instr) (s t : State) (r : Response), exec i s = .next t → t.rsp = some r → r.err ≠ 0#4 → r.err ≠ 15#4 →
    ∃ e : ErrorCode, r = { err := e.code, data := 0 } ∧
      t = { s with phase := .fault, err := some e, ovalid := false, rsp := some r }

/-- Rule R88: every command answers, in every state whose tree, if it is in phase `TREE`, is one that rule R30 allows (no
run reaches another, and there `GEN` alone can stop, log entry 6), with one response: its code 0 or one of rule R200's, data
0 when it answers an error, and data 0 when it returns no result. -/
def Obligations.EveryCommandAnswers : Prop :=
  ∀ (i : Instr) (s : State), ((s.phase = .tree → TreeInv s) → ∃ t, exec i s = .next t) ∧
    ∀ t, exec i s = .next t → ∃ r, t.rsp = some r ∧ t.delivered = s.delivered ∧ (r.err.toNat ≤ 8 ∨ r.err = 15#4) ∧
      (r.err ≠ 0#4 → r.data = 0#32) ∧
      ((∀ x, i ≠ .frd x) → (∀ x, i ≠ .nwt x) → (∀ x, i ≠ .nlk x) → (∀ x, i ≠ .tlen x) → (∀ x y, i ≠ .tget x y) →
        (∀ x, i ≠ .ord x) → i ≠ .stat → i ≠ .ftot → i ≠ .ncnt → i ≠ .olen → r.data = 0#32)

/-- Rule R91: the phase after a command that succeeds, and the phases from which each one that moves it can succeed;
an error from any phase but `FAULT` leads to `FAULT`. -/
def Obligations.PhaseTransitions : Prop :=
  ∀ (i : Instr) (s t : State) (r : Response), exec i s = .next t → t.rsp = some r →
    (r.err = 0#4 →
      match i with
      | .clr => t.phase = .idle
      | .bld => s.phase = .idle ∧ t.phase = .tree
      | .gen => s.phase = .tree ∧ t.phase = .table
      | .tsel _ => (s.phase = .idle ∨ s.phase = .load) ∧ t.phase = .load
      | .tend => (s.phase = .idle ∨ s.phase = .load) ∧ t.phase = .table
      | .ebeg => s.phase = .table ∧ t.phase = .encode
      | .efin => s.phase = .encode ∧ t.phase = .table
      | .dbeg _ => s.phase = .table ∧ t.phase = .decode
      | .dfin => s.phase = .decode ∧ t.phase = .table
      | _ => t.phase = s.phase) ∧
    (r.err ≠ 0#4 → t.phase = .fault)

/-- An edge with `rst` = 1 gives every register its reset value, abandons a command in progress without a response, and
leaves the block ready (rule R230). Nothing is said of the contents of `NODE`, `BITS` and `OBUF`, which rule R230 leaves
unspecified. THE MODEL'S, not the spec's: that the reset wins over a word offered or a response accepted at the same edge,
so that no latency is drawn and nothing is delivered (log entry 8), that the record of what was delivered is kept and the
edge's input is the head of a list (log entry 3), what the two outputs show if `rst` is still 1 after this edge (log entry
15), and that the storage of `CAND` beyond `CLEN` is 0 (log entry 2). -/
def Obligations.ResetInputClearsTheBlock : Prop :=
  ∀ (s : State) (p : PortIn) (rest : List PortIn), s.inputs = p :: rest → p.rst = true →
    ∃ t, step s = .next t ∧ t.cmdReady = true ∧ t.rspValid = false ∧
      t = { State.reset with
        node := t.node, bits := t.bits, obuf := t.obuf, obufSize := s.obufSize
        inputs := rest, latencies := s.latencies, delivered := s.delivered }

/-- Rule R40, the reset values. -/
def Obligations.ResetValues : Prop :=
  let s := State.reset
  s.phase = .idle ∧ s.err = none ∧ s.ovalid = false ∧ s.nsym = 0#9 ∧ (∀ t, s.freqOf t = 0#32) ∧ s.total = 0 ∧
  s.nnodes = 0#9 ∧ s.root = 0x1FF#9 ∧ (∀ t, s.lenOf t = 0#8) ∧ s.tsym = 0 ∧ s.acc = 0 ∧ s.nacc = 0#3 ∧ s.hdr = 0#3 ∧
  s.hold = 0 ∧ s.holdV = false ∧ s.candidate = [] ∧ s.clen = 0#8 ∧ s.olen = 0

/-- At most one command is outstanding (rule R92): while a response is due no word is taken; the response is delivered at
an edge where it is valid and the host is ready. THE MODEL'S, not the spec's: that no register of the block changes while a
response is due, since the command's writes were made at the edge that issued it (log entry 7, DEDUCED), that the wait is a
count which each edge lowers by one (log entry 4), and that the edge's input is the head of a list (log entry 3). -/
def Obligations.OneCommandOutstanding : Prop :=
  ∀ (s : State) (p : PortIn) (rest : List PortIn) (r : Response),
    s.inputs = p :: rest → p.rst = false → s.rsp = some r →
    step s = .next (if s.rspValid = true ∧ p.rspReady = true then
        { s with inputs := rest, rsp := none, delivered := s.delivered ++ [r] }
      else { s with inputs := rest, rspDelay := s.rspDelay - 1 })

/-- Between two commands nothing changes (rule R20): an edge at which the host offers no word only passes. THE MODEL'S: that
the edge's input is the head of a list, and that an empty list is a quiet host (log entry 3). -/
def Obligations.BlockHoldsStateWhenIdle : Prop :=
  ∀ s : State, s.rsp = none → (∀ p, s.inputs.head? = some p → p.rst = false ∧ p.cmdValid = false) →
    step s = .next { s with inputs := s.inputs.tail }

/-- Every issued command is answered (rule R243): when the latency has passed and the host is ready, the response is
delivered, whatever the latency is. THE MODEL'S, not the spec's, which says "finite" and "eventually" only: that the delivery
comes at exactly the edge after `rspDelay` others (log entry 4), that nothing else changes meanwhile, the command's writes
being made at the edge that issued it (log entry 7, DEDUCED), and the list of inputs and the record of what was delivered
(log entry 3). -/
def Obligations.ResponseIsDelivered : Prop :=
  ∀ (s : State) (r : Response) (rest : List PortIn), s.rsp = some r →
    s.inputs = List.replicate (s.rspDelay + 1) { PortIn.quiet with rspReady := true } ++ rest →
    core.run (s.rspDelay + 1) s = .next { s with
      inputs := rest, rspDelay := 0, rsp := none, delivered := s.delivered ++ [r] }

/-- A fault is never cleared or overwritten (rules R202 and R204): only `CLR` and reset leave phase `FAULT`, and until then
`ERR` holds the first error. THE MODEL'S, not the spec's: that this holds also at the edges at which a response is
outstanding, the writes of its command having been made at the edge that issued it (log entry 7, DEDUCED), and that the
edge's input is the head of a list, an empty list being a quiet host (log entry 3, DESIGN CHOICE). -/
def Obligations.FirstErrorSticks : Prop :=
  ∀ s t : State, s.phase = .fault → step s = .next t →
    (∀ p, s.inputs.head? = some p → p.rst = false ∧ (p.cmdValid = true → s.rsp = none → p.cmdWord ≠ encode .clr)) →
    t.phase = .fault ∧ t.err = s.err ∧ t.ovalid = s.ovalid

/-! ### Control commands (spec/40_control.md) -/

/-- `NOP` and `STAT` complete in every phase and change nothing; the fields of the status word are those of rule R26, the
numbers of the phases those of rule R21's table, the numbers of `ERR` those of rule R200's. -/
def Obligations.NopAndStatusComplete : Prop :=
  (Phase.idle.code = 0#3 ∧ Phase.tree.code = 1#3 ∧ Phase.load.code = 2#3 ∧ Phase.table.code = 3#3 ∧
    Phase.encode.code = 4#3 ∧ Phase.decode.code = 5#3 ∧ Phase.fault.code = 7#3) ∧
  (errField none = 0#4 ∧ errField (some .illegal) = 1#4 ∧ errField (some .seq) = 2#4 ∧
    errField (some .unknownSymbol) = 3#4 ∧ errField (some .malformedStream) = 4#4 ∧ errField (some .range) = 5#4 ∧
    errField (some .countOverflow) = 6#4 ∧ errField (some .obufFull) = 7#4 ∧ errField (some .badTable) = 8#4) ∧
  EncodedAs .nop 0x00 .Z ∧ EncodedAs .stat 0x02 .Z ∧ ∀ s : State, Answers .nop s 0 s ∧
    ∃ d : BitVec 32, Answers .stat s d s ∧ d.extractLsb' 0 3 = s.phase.code ∧ d.getLsbD 3 = s.ovalid ∧
      d.extractLsb' 4 4 = errField s.err ∧ d.extractLsb' 8 9 = s.nsym ∧ d.extractLsb' 17 15 = 0

/-- `CLR` completes in every phase and gives every register its reset value (rule R101). Nothing is said of the contents of
`NODE`, `BITS` and `OBUF`, which are "not defined after `CLR`", nor of `CAND`'s storage beyond `CLEN`. -/
def Obligations.ClrRestoresTheResetState : Prop :=
  EncodedAs .clr 0x01 .Z ∧ ∀ s : State, ∃ t, Answers .clr s 0 t ∧ t.candidate = [] ∧
    t = { State.reset with
      node := t.node, bits := t.bits, cand := t.cand, obuf := t.obuf, obufSize := s.obufSize, inputs := s.inputs
      rsp := t.rsp, rspDelay := s.rspDelay, latencies := s.latencies, delivered := s.delivered }

/-! ### The tree builder (spec/41_tree_builder.md) -/

/-- Rule R110: `CNT`, and that `CNT` commands may come "in any order; the result depends only on how many times each value
was given". -/
def Obligations.CntCountsBytesInAnyOrder : Prop :=
  (∀ (s : State) (x : Byte), EncodedAs (.cnt x) 0x10 .S ∧
    (s.phase = .idle → s.total ≠ 0xFFFFFFFF#32 → ∃ t, Answers (.cnt x) s 0 t ∧
      t.freqOf x = s.freqOf x + 1 ∧ (∀ y, y ≠ x → t.freqOf y = s.freqOf y) ∧
      t = { s with freq := t.freq, total := s.total + 1 }) ∧
    (s.phase = .idle → s.total = 0xFFFFFFFF#32 → Raises (.cnt x) s .countOverflow) ∧
    (s.phase ≠ .idle → s.phase ≠ .fault → Raises (.cnt x) s .seq)) ∧
  ∀ (s : State) (b c : List Byte), s.phase = .idle → s.total.toNat + b.length ≤ 0xFFFFFFFF → b.Perm c →
    ∃ t, execAll (countAll b) s = .next t ∧ execAll (countAll c) s = .next t ∧
      t.total.toNat = s.total.toNat + b.length ∧
      (TotalIsSum s → ∀ x, (t.freqOf x).toNat = (s.freqOf x).toNat + b.count x)

/-- Rules R111 and R112: `FRD` and `FTOT`. -/
def Obligations.CountsReadBack : Prop :=
  ∀ (s : State) (x : Byte), EncodedAs (.frd x) 0x13 .S ∧ EncodedAs .ftot 0x14 .Z ∧
    (s.phase ≠ .fault → Answers (.frd x) s (s.freqOf x) s ∧ Answers .ftot s s.total s)

/-- `BLD` completes in every `IDLE` state (rule R113): `NSYM`, `NNODES` and `ROOT`, the leaves in ascending symbol, the
merges by the greedy rule of rules R114 and R115, every entry above them and every other register unchanged. That `ROOT` is
the last node, where rule R113 says the one element of `ACTIVE`, is rule R30's, by the spec's own inference from R113. -/
def Obligations.BldBuildsTheGreedyTree : Prop :=
  EncodedAs .bld 0x11 .Z ∧ ∀ s : State,
    (s.phase = .idle → ∃ t, Answers .bld s 0 t ∧
      t.k = s.present.length ∧
      t.nnodes.toNat = (if s.present.length = 0 then 0 else 2 * s.present.length - 1) ∧
      (s.present.length = 0 → t.root = Config.nil) ∧
      (0 < s.present.length → t.root.toNat + 1 = t.nnodes.toNat) ∧
      (∀ i x, s.present[i]? = some x → t.nodeAt i =
        { leaf := true, sym := x, w := s.freqOf x, left := Config.nil, right := Config.nil }) ∧
      GreedyTree t ∧
      (∀ i, t.nnodes.toNat ≤ i → t.nodeAt i = s.nodeAt i) ∧
      t = { s with node := t.node, nnodes := t.nnodes, root := t.root, nsym := t.nsym, phase := .tree }) ∧
    (s.phase ≠ .idle → s.phase ≠ .fault → Raises .bld s .seq)

/-- `BLD` establishes the tree invariants of rule R30, where `TOTAL` is the sum of the counts (rule R28). -/
def Obligations.BldEstablishesTheTreeInvariants : Prop :=
  ∀ s t : State, s.phase = .idle → TotalIsSum s → exec .bld s = .next t → TreeInv t

/-- Rules R119 and R120: the empty input, with the empty table that `GEN` makes of it, and the input of one distinct
symbol, neither an error. -/
def Obligations.BldOfDegenerateAlphabets : Prop :=
  ∀ s : State, s.phase = .idle →
    ((∀ x, s.freqOf x = 0#32) → ∃ t, Answers .bld s 0 t ∧ t.nnodes = 0#9 ∧ t.root = Config.nil ∧ t.nsym = 0#9 ∧
      t.phase = .tree ∧ ∃ u, exec .gen t = .next u ∧ u.phase = .table ∧ ∀ x, u.lenOf x = 0#8) ∧
    (∀ x, TotalIsSum s → s.freqOf x ≠ 0#32 → (∀ y, y ≠ x → s.freqOf y = 0#32) → ∃ t, Answers .bld s 0 t ∧ t.nnodes = 1#9 ∧
      t.nodeAt 0 = { leaf := true, sym := x, w := s.total, left := Config.nil, right := Config.nil } ∧
      t.root = 0#9 ∧ t.nsym = 1#9)

/-- `NCNT` (rule R116). -/
def Obligations.NodeCountReadsBack : Prop :=
  EncodedAs .ncnt 0x15 .Z ∧ ∀ s : State,
    (s.phase = .tree → ∃ d : BitVec 32, Answers .ncnt s d s ∧ d.extractLsb' 0 9 = s.nnodes ∧
      d.extractLsb' 9 9 = s.root ∧ d.extractLsb' 18 14 = 0) ∧
    (s.phase ≠ .tree → s.phase ≠ .fault → Raises .ncnt s .seq)

/-- `NWT` and `NLK` (rules R117 and R118): the node's weight, the node's links, `ERR_RANGE` outside the valid entries. -/
def Obligations.NodesReadBack : Prop :=
  ∀ (s : State) (j : NodeIdx), EncodedAs (.nwt j) 0x16 .N ∧ EncodedAs (.nlk j) 0x17 .N ∧
    (s.phase = .tree → j.toNat < s.nnodes.toNat →
      Answers (.nwt j) s (s.nodeAt j.toNat).w s ∧
      ∃ d : BitVec 32, Answers (.nlk j) s d s ∧ d.getLsbD 31 = (s.nodeAt j.toNat).leaf ∧ d.extractLsb' 26 5 = 0 ∧
        d.extractLsb' 18 8 = (s.nodeAt j.toNat).sym ∧ d.extractLsb' 9 9 = (s.nodeAt j.toNat).left ∧
        d.extractLsb' 0 9 = (s.nodeAt j.toNat).right) ∧
    (s.phase = .tree → s.nnodes.toNat ≤ j.toNat → Raises (.nwt j) s .range ∧ Raises (.nlk j) s .range) ∧
    (s.phase ≠ .tree → s.phase ≠ .fault → Raises (.nwt j) s .seq ∧ Raises (.nlk j) s .seq)

/-! ### The code table (spec/42_code_table.md) -/

/-- `GEN` completes in every state of phase `TREE` that meets rule R30 (rules R130, R131 and R132): the code of a leaf's
symbol is the path that leads to it, the only symbol of a one-node tree gets the code `0`, a symbol that does not occur
gets none, the tree is discarded, and nothing else changes. -/
def Obligations.GenRecordsThePaths : Prop :=
  EncodedAs .gen 0x12 .Z ∧ ∀ s : State,
    (s.phase = .tree → TreeInv s → ∃ t, Answers .gen s 0 t ∧
      (∀ x, t.lenOf x ≠ 0#8 ↔ s.freqOf x ≠ 0#32) ∧
      (2 ≤ s.k → ∀ q j, walk s s.root q = some j → (s.nodeAt j.toNat).leaf = true →
        t.codeword (s.nodeAt j.toNat).sym = q) ∧
      (s.k = 1 → t.codeword (s.nodeAt 0).sym = [false]) ∧
      t = { s with len := t.len, bits := t.bits, nnodes := 0, root := Config.nil, phase := .table }) ∧
    (s.phase ≠ .tree → s.phase ≠ .fault → Raises .gen s .seq)

/-- A generated table meets the table invariant (rule R133 a and b): an entry exactly for the symbols that occur, and no
codeword a prefix of another. -/
def Obligations.GeneratedTableIsPrefixFree : Prop :=
  ∀ s t : State, s.phase = .tree → TreeInv s → exec .gen s = .next t →
    TableInv t ∧ ∀ x, t.lenOf x ≠ 0#8 ↔ t.freqOf x ≠ 0#32

/-- Generated codes are complete (rule R133 c): with two symbols or more, every infinite bit sequence has exactly one
codeword as a prefix. -/
def Obligations.GeneratedCodesAreComplete : Prop :=
  ∀ s t : State, s.phase = .tree → TreeInv s → 2 ≤ s.k → exec .gen s = .next t →
    ∀ f : Nat → Bool, ∃! x, t.lenOf x ≠ 0#8 ∧ t.codeword x = (List.range (t.lenOf x).toNat).map f

/-- Depth (rule R121): with two symbols or more no generated code is longer than `k - 1` bits. -/
def Obligations.GeneratedCodesAreShort : Prop :=
  ∀ s t : State, s.phase = .tree → TreeInv s → 2 ≤ s.k → exec .gen s = .next t → ∀ x, (t.lenOf x).toNat + 1 ≤ s.k

/-- Rule R135: `TSEL`. -/
def Obligations.TselOpensAnEntry : Prop :=
  ∀ (s : State) (x : Byte), EncodedAs (.tsel x) 0x20 .S ∧
    (s.phase = .idle ∨ s.phase = .load → ∃ t, Answers (.tsel x) s 0 t ∧
      t.lenOf x = 0#8 ∧ t.codeword x = [] ∧
      (∀ y, y ≠ x → t.lenOf y = s.lenOf y ∧ t.codeword y = s.codeword y) ∧
      t = { s with len := t.len, bits := t.bits, tsym := x, phase := .load }) ∧
    (s.phase ≠ .idle → s.phase ≠ .load → s.phase ≠ .fault → Raises (.tsel x) s .seq)

/-- Rule R136: `TBIT`. -/
def Obligations.TbitExtendsTheEntry : Prop :=
  ∀ (s : State) (b : Bool), EncodedAs (.tbit b) 0x21 .B ∧
    (s.phase = .load → s.lenOf s.tsym ≠ 255#8 → ∃ t, Answers (.tbit b) s 0 t ∧
      t.lenOf s.tsym = s.lenOf s.tsym + 1 ∧ t.codeword s.tsym = s.codeword s.tsym ++ [b] ∧
      (∀ y, y ≠ s.tsym → t.lenOf y = s.lenOf y ∧ t.codeword y = s.codeword y) ∧
      t = { s with len := t.len, bits := t.bits }) ∧
    (s.phase = .load → s.lenOf s.tsym = 255#8 → Raises (.tbit b) s .range) ∧
    (s.phase ≠ .load → s.phase ≠ .fault → Raises (.tbit b) s .seq)

/-- Rule R137: `TEND` seals exactly the prefix-free tables. -/
def Obligations.TendSealsPrefixFreeTables : Prop :=
  EncodedAs .tend 0x22 .Z ∧ ∀ s : State,
    (s.phase = .idle ∨ s.phase = .load → PrefixFree s →
      Answers .tend s 0 { s with nsym := BitVec.ofNat 9 s.entries.length, phase := .table } ∧
      s.entries.length ≤ 256 ∧ (∀ x, x ∈ s.entries ↔ s.lenOf x ≠ 0#8) ∧ s.entries.Nodup) ∧
    (s.phase = .idle ∨ s.phase = .load → ¬ PrefixFree s → Raises .tend s .badTable) ∧
    (s.phase ≠ .idle → s.phase ≠ .load → s.phase ≠ .fault → Raises .tend s .seq)

/-- Rules R138 and R139: `TLEN` and `TGET`. -/
def Obligations.TableReadsBack : Prop :=
  ∀ (s : State) (x n : Byte), EncodedAs (.tlen x) 0x23 .S ∧ EncodedAs (.tget x n) 0x24 .SI ∧
    (s.phase = .table → Answers (.tlen x) s ((s.lenOf x).setWidth 32) s ∧
      (∀ b, (s.codeword x)[n.toNat]? = some b → Answers (.tget x n) s (if b then 1 else 0) s) ∧
      (s.lenOf x ≤ n → Raises (.tget x n) s .range)) ∧
    (s.phase ≠ .table → s.phase ≠ .fault → Raises (.tlen x) s .seq ∧ Raises (.tget x n) s .seq) ∧
    (s.codeword x).length = (s.lenOf x).toNat

/-- `READTABLE` of a valid table in phase `TABLE` answers every length and every bit of it and changes nothing; loading
back exactly what those answers give reproduces the table and passes `TEND` (rules R87 and R140). Loading the codes of a
valid table reproduces it also when the state that holds it is in another phase. -/
def Obligations.LoadedTableEqualsTheOneRead : Prop :=
  ∀ s u : State, TableInv s → u.phase = .idle → (∀ x, u.lenOf x = 0#8) →
    (s.phase = .table →
      (∃ v, execAll (readTable s.len) s = .next v ∧ v = { s with rsp := v.rsp }) ∧
      responses (readTable s.len) s = tableAnswers s ∧
      tableRead allSymbols (responses (readTable s.len) s) = tableCodes s ∧
      LoadsTableOf s u (tableRead allSymbols (responses (readTable s.len) s))) ∧
    LoadsTableOf s u (tableCodes s)

/-- The table is frozen once it is sealed (rules R33 and R71): no command but `CLR` writes it in the phases `TABLE`,
`ENCODE` and `DECODE`. -/
def Obligations.SealedTableIsFrozen : Prop :=
  ∀ (i : Instr) (s t : State), s.phase = .table ∨ s.phase = .encode ∨ s.phase = .decode → i ≠ .clr →
    exec i s = .next t → t.len = s.len ∧ t.bits = s.bits

/-! ### The encoder and the packer (spec/43_encoder_packer.md) -/

/-- Rule R150: `EBEG`. -/
def Obligations.EbegOpensASession : Prop :=
  EncodedAs .ebeg 0x30 .Z ∧ ∀ s : State,
    (s.phase = .table → s.obufSize ≠ 0#32 → ∃ t, Answers .ebeg s 0 t ∧ t.obufAt 0 = 0 ∧
      (∀ a, a ≠ 0 → t.obufAt a = s.obufAt a) ∧
      t = { s with obuf := t.obuf, olen := 1, ovalid := false, acc := 0, nacc := 0, phase := .encode }) ∧
    (s.phase ≠ .table → s.phase ≠ .fault → Raises .ebeg s .seq)

/-- `ENC` (rules R151 and R152) in an open session: the codeword of the byte joins the packed bits, `NACC` and `OLEN`
count them, no byte below the old `OLEN` and none at or above the new one changes, nor any other register. The byte has no
entry: `ERR_UNKNOWN_SYMBOL`; it does not fit: `ERR_OBUF_FULL`. -/
def Obligations.EncPacksTheCodeword : Prop :=
  ∀ (s : State) (x : Byte), s.phase = .encode → PackerInv s → s.olen.toNat ≤ s.obufSize.toNat →
    (s.lenOf x ≠ 0#8 → s.olen.toNat + (s.nacc.toNat + (s.lenOf x).toNat) / 8 ≤ s.obufSize.toNat →
      ∃ t, Answers (.enc x) s 0 t ∧ packedBits t = packedBits s ++ s.codeword x ∧ PackerInv t ∧
        t.olen.toNat = s.olen.toNat + (s.nacc.toNat + (s.lenOf x).toNat) / 8 ∧
        t.nacc.toNat = (s.nacc.toNat + (s.lenOf x).toNat) % 8 ∧
        (∀ a, a < s.olen.toNat ∨ t.olen.toNat ≤ a → t.obufAt a = s.obufAt a) ∧
        t = { s with acc := t.acc, nacc := t.nacc, obuf := t.obuf, olen := t.olen }) ∧
    (s.lenOf x = 0#8 → Raises (.enc x) s .unknownSymbol) ∧
    (s.lenOf x ≠ 0#8 → s.obufSize.toNat < s.olen.toNat + (s.nacc.toNat + (s.lenOf x).toNat) / 8 →
      Raises (.enc x) s .obufFull)

/-- `EFIN` (rule R153): the last, partly filled byte, the header, the packer emptied; `ERR_OBUF_FULL` where the last byte
does not fit. -/
def Obligations.EfinWritesTheHeader : Prop :=
  EncodedAs .efin 0x32 .Z ∧ ∀ s : State,
    (s.phase = .encode → 1 ≤ s.olen.toNat → s.nacc = 0#3 ∨ s.olen ≠ s.obufSize → ∃ t, Answers .efin s 0 t ∧
      t.obufAt 0 = s.nacc.setWidth 8 ∧
      t.olen = (if s.nacc = 0#3 then s.olen else s.olen + 1) ∧
      (s.nacc ≠ 0#3 → t.obufAt s.olen.toNat = s.acc) ∧
      (∀ a, a ≠ 0 → (s.nacc ≠ 0#3 → a ≠ s.olen.toNat) → t.obufAt a = s.obufAt a) ∧
      t = { s with obuf := t.obuf, olen := t.olen, acc := 0, nacc := 0, ovalid := true, phase := .table }) ∧
    (s.phase = .encode → s.nacc ≠ 0#3 → s.olen = s.obufSize → Raises .efin s .obufFull) ∧
    (s.phase ≠ .encode → s.phase ≠ .fault → Raises .efin s .seq)

/-- The layout of a packed stream: after a session over any covered byte sequence that fits, the header is the number of
bits modulo 8 and `OLEN` counts it and the payload (rule R63, by the spec's own inference from rules R152 and R153; rule R154
for no byte), the payload is the codewords' bits in input order (rule R151), MSB-first (rule R62), the padding bits are 0
(rule R67), and the number of bits is the sum of the lengths (rule R156, inferred from rules R151 to R153). -/
def Obligations.SessionPacksTheCodeStream : Prop :=
  ∀ (s : State) (b : List Byte), s.phase = .table → Covered s b →
    1 + ((codeStream s b).length + 7) / 8 ≤ s.obufSize.toNat →
    ∃ t, execAll (encodeSession b) s = .next t ∧ t.phase = .table ∧ t.ovalid = true ∧ SameTable t s ∧
      (codeStream s b).length = (b.map (fun x => (s.lenOf x).toNat)).sum ∧
      t.olen.toNat = 1 + ((codeStream s b).length + 7) / 8 ∧
      (t.obufAt 0).toNat = (codeStream s b).length % 8 ∧
      ∀ n, n < 8 * (t.olen.toNat - 1) →
        (t.obufAt (1 + n / 8)).getLsbD (7 - n % 8) = (codeStream s b).getD n false

/-! ### The unpacker and the decoder (spec/44_unpacker_decoder.md) -/

/-- Rules R170 and R171: `DBEG`. -/
def Obligations.DbegOpensASession : Prop :=
  ∀ (s : State) (h : Byte), EncodedAs (.dbeg h) 0x40 .H ∧
    (s.phase = .table → h.toNat ≤ 7 → ∃ t, Answers (.dbeg h) s 0 t ∧ t.candidate = [] ∧
      t = { s with
        ovalid := false, olen := 0, hdr := h.setWidth 3, hold := 0, holdV := false, cand := t.cand, clen := 0
        phase := .decode }) ∧
    (s.phase = .table → 7 < h.toNat → Raises (.dbeg h) s .malformedStream) ∧
    (s.phase ≠ .table → s.phase ≠ .fault → Raises (.dbeg h) s .seq)

/-- `DPL` (rules R172 and R173). The first byte of a session is only held. After that, when the candidate and the held
byte's bits are the codewords of `b` and then a rest in which no codeword begins, the bytes `b` are appended and the rest
is the new candidate; nothing else changes. -/
def Obligations.DplDecodesTheHeldByte : Prop :=
  ∀ (s : State) (x : Byte), s.phase = .decode → TableInv s → DecoderInv s → s.olen.toNat ≤ s.obufSize.toNat →
    (s.holdV = false → Answers (.dpl x) s 0 { s with hold := x, holdV := true }) ∧
    (∀ (b : List Byte) (rest : Bits), s.holdV = true → Covered s b → NoMatchIn s rest → rest.length ≤ 254 →
      s.candidate ++ bitsMsbFirst s.hold = codeStream s b ++ rest →
      s.olen.toNat + b.length ≤ s.obufSize.toNat →
      ∃ t, Answers (.dpl x) s 0 t ∧ outBytes t = outBytes s ++ b ∧ t.candidate = rest ∧
        (∀ a, t.olen.toNat ≤ a → t.obufAt a = s.obufAt a) ∧
        t = { s with hold := x, holdV := true, cand := t.cand, clen := t.clen, obuf := t.obuf, olen := t.olen })

/-- How `DPL` and `DFIN` fail while they feed the held byte (rules R39, R172 and R177): the candidate reaches 255 bits
without a match, or a decoded symbol does not fit the output buffer. -/
def Obligations.DecodingFaults : Prop :=
  ∀ (s : State) (x : Byte), s.phase = .decode → TableInv s → DecoderInv s → s.olen.toNat ≤ s.obufSize.toNat →
    s.holdV = true → ∀ (i : Instr) (q : Bits),
    (i = .dpl x ∧ q = bitsMsbFirst s.hold) ∨
      (i = .dfin ∧ q = (bitsMsbFirst s.hold).take (if s.hdr = 0#3 then 8 else s.hdr.toNat)) →
    (NoMatchIn s (s.candidate ++ q) → 255 ≤ (s.candidate ++ q).length → Raises i s .malformedStream) ∧
    (∀ b y rest, Covered s (b ++ [y]) → s.candidate ++ q = codeStream s (b ++ [y]) ++ rest →
      s.olen.toNat + b.length = s.obufSize.toNat → Raises i s .obufFull)

/-- `DFIN` (rules R174 and R175): of a held byte the `HDR` most significant bits (8 for 0) are decoded; the session ends
well exactly when the candidate and those bits are whole codewords, and with a non-empty rest it is `ERR_MALFORMED_STREAM`;
with no payload the output is what was there and only the candidate is looked at. -/
def Obligations.DfinEndsTheSession : Prop :=
  ∀ (s : State) (b : List Byte) (rest : Bits), s.phase = .decode → TableInv s → DecoderInv s →
    s.olen.toNat ≤ s.obufSize.toNat → Covered s b → NoMatchIn s rest → rest.length ≤ 254 →
    s.candidate ++ (if s.holdV then
      (bitsMsbFirst s.hold).take (if s.hdr = 0#3 then 8 else s.hdr.toNat) else []) = codeStream s b ++ rest →
    s.olen.toNat + b.length ≤ s.obufSize.toNat →
    (rest = [] → ∃ t, Answers .dfin s 0 t ∧ outBytes t = outBytes s ++ b ∧ t.candidate = [] ∧
      (∀ a, t.olen.toNat ≤ a → t.obufAt a = s.obufAt a) ∧
      t = { s with
        holdV := false, ovalid := true, phase := .table, cand := t.cand, clen := t.clen, obuf := t.obuf
        olen := t.olen }) ∧
    (rest ≠ [] → Raises .dfin s .malformedStream)

/-- Rule R175, "Empty payload yields empty output", for every accepted header and every table; and rule R154, the encode
session of no byte, which leaves the header alone. -/
def Obligations.EmptySessions : Prop :=
  ∀ (s : State) (h : Byte), s.phase = .table →
    (h.toNat ≤ 7 → ∃ t, execAll (decodeSession h []) s = .next t ∧ t.rsp = some { err := 0, data := 0 } ∧
      t.phase = .table ∧ t.olen = 0 ∧ t.ovalid = true) ∧
    (s.obufSize ≠ 0#32 → ∃ t, execAll (encodeSession []) s = .next t ∧ t.rsp = some { err := 0, data := 0 } ∧
      t.phase = .table ∧ t.olen = 1 ∧ t.obufAt 0 = 0 ∧ t.ovalid = true)

/-- `DPL` and `DFIN` outside a decode session, `ENC` outside an encode session: `ERR_SEQ` (rules R151, R173, R174). -/
def Obligations.SessionCommandsNeedASession : Prop :=
  ∀ (s : State) (x : Byte), s.phase ≠ .fault →
    EncodedAs (.dpl x) 0x41 .S ∧ EncodedAs .dfin 0x42 .Z ∧ EncodedAs (.enc x) 0x31 .S ∧
    (s.phase ≠ .decode → Raises (.dpl x) s .seq ∧ Raises .dfin s .seq) ∧
    (s.phase ≠ .encode → Raises (.enc x) s .seq)

/-! ### The output buffer (spec/45_output_buffer.md) -/

/-- Rules R190 and R191: `OLEN` and `ORD`. -/
def Obligations.OutputReadsBack : Prop :=
  ∀ (s : State) (a : BitVec 32), EncodedAs .olen 0x50 .Z ∧ EncodedAs (.ord a) 0x51 .A ∧
    (s.phase = .table → s.ovalid = true →
      Answers .olen s s.olen s ∧
      (a.toNat < s.olen.toNat → Answers (.ord a) s ((s.obufAt a.toNat).setWidth 32) s) ∧
      (s.olen.toNat ≤ a.toNat → Raises (.ord a) s .range)) ∧
    (s.phase ≠ .fault → ¬ (s.phase = .table ∧ s.ovalid = true) → Raises .olen s .seq ∧ Raises (.ord a) s .seq)

/-- No response carries a byte of the output buffer while `OVALID` is 0 (rules R24, R190 and R191): two states that differ
only in the buffer's contents answer every command alike. -/
def Obligations.NoOutputWhileInvalid : Prop :=
  ∀ (i : Instr) (s t u : State) (m : Memory), s.ovalid = false →
    exec i s = .next t → exec i { s with obuf := m } = .next u → t.rsp = u.rsp

/-- The unspecified contents of rule R40 never show: two states that meet the invariant and differ only in what is
unreadable answer every command alike and go on to states that again differ only in what is unreadable. -/
def Obligations.UnreadableContentsNeverShow : Prop :=
  ∀ (i : Instr) (s u t : State), Inv s → Inv u → SameReadable s u → exec i s = .next t →
    ∃ v, exec i u = .next v ∧ t.rsp = v.rsp ∧ SameReadable t v

/-- Reads are idempotent (rule R68): a read command that succeeds changes no state, and repeating it gives the same
answer. -/
def Obligations.ReadsAreIdempotent : Prop :=
  ∀ (i : Instr) (s t : State) (d : BitVec 32), exec i s = .next t → t.rsp = some { err := 0, data := d } →
    (i = .stat ∨ i = .ftot ∨ i = .ncnt ∨ i = .olen ∨ (∃ x, i = .frd x) ∨ (∃ x, i = .nwt x) ∨ (∃ x, i = .nlk x) ∨
      (∃ x, i = .tlen x) ∨ (∃ x y, i = .tget x y) ∨ (∃ x, i = .ord x)) →
    t = { s with rsp := some { err := 0, data := d } } ∧ exec i t = .next t

/-! ### The whole machine -/

/-- The invariant holds after reset. -/
def Obligations.ResetMeetsTheInvariant : Prop := Inv State.reset

/-- Every step keeps the invariant. THE MODEL'S, not the spec's: that the invariant, which the spec gives between commands,
holds also while a response is outstanding (log entry 7, DEDUCED), and the list that the edge's input is taken from (log
entry 3, DESIGN CHOICE). -/
def Obligations.StepKeepsTheInvariant : Prop :=
  ∀ s t : State, Inv s → step s = .next t → Inv t

/-- The block never halts (rule R236): from a state that meets the invariant every step has a next state. The list that the
edge's input is taken from is the model's (log entry 3, DESIGN CHOICE). -/
def Obligations.BlockNeverHalts : Prop :=
  ∀ s : State, Inv s → ∃ t, step s = .next t

/-- Round trip (rule R176) with a table already in the block: a decode session, in any block that holds the same valid
table, over the bytes that an encode session left, gives the input back. -/
def Obligations.SessionRoundTrip : Prop :=
  ∀ (s u : State) (b : List Byte), s.phase = .table → TableInv s → Covered s b →
    1 + ((codeStream s b).length + 7) / 8 ≤ s.obufSize.toNat →
    u.phase = .table → SameTable u s → b.length ≤ u.obufSize.toNat →
    ∃ t v, execAll (encodeSession b) s = .next t ∧
      execAll (decodeSession ((outBytes t).headD 0) (outBytes t).tail) u = .next v ∧
      v.phase = .table ∧ v.ovalid = true ∧ outBytes v = b

/-- Round trip (rule R176) as a whole: from any state, counting a byte sequence, building and generating gives a table that
covers it; when the packed stream and the sequence itself fit the output buffers, what `READOUT` returns after `COMPRESS`,
given to a decode session in the same invocation or, after `LOADTABLE`, in any other, makes `READOUT` return exactly the
sequence. -/
def Obligations.CompressThenDecompressIsIdentity : Prop :=
  ∀ (s w : State) (b : List Byte), b.length ≤ 0xFFFFFFFF →
    ∃ u, execAll (makeTable b) s = .next u ∧ u.phase = .table ∧ TableInv u ∧ Covered u b ∧
      (1 + ((codeStream u b).length + 7) / 8 ≤ s.obufSize.toNat → b.length ≤ s.obufSize.toNat →
        b.length ≤ w.obufSize.toNat →
        ∃ (t v v' : State) (h : Byte) (p : List Byte), execAll (compress b) s = .next t ∧
          responses (readOut t.olen.toNat) t = readAnswers (h :: p) ∧
          execAll (decodeSession h p) t = .next v ∧ responses (readOut b.length) v = readAnswers b ∧
          execAll (decompress (tableCodes u) h p) w = .next v' ∧
          responses (readOut b.length) v' = readAnswers b)

/-- Bit accounting (rules R133 d and R156): after a byte sequence has been counted and its table generated, the codes of the
sequence have as many bits in all as the counts times the lengths. -/
def Obligations.CountedInputBitCount : Prop :=
  ∀ (s : State) (b : List Byte), b.length ≤ 0xFFFFFFFF →
    ∃ u, execAll (makeTable b) s = .next u ∧
      (codeStream u b).length = (allSymbols.map (fun x => (u.freqOf x).toNat * (u.lenOf x).toNat)).sum

/-- Determinism (rules R67 and R121): compressing the same input twice, in whatever states the block was before, gives the
same answers to every command, the same code table and the same packed bytes. -/
def Obligations.CompressionIsDeterministic : Prop :=
  ∀ (s u : State) (b : List Byte), s.obufSize = u.obufSize →
    ∃ t v, execAll (compress b) s = .next t ∧ execAll (compress b) u = .next v ∧
      responses (compress b) s = responses (compress b) u ∧ t.phase = v.phase ∧ SameTable t v ∧ t.olen = v.olen ∧
      outBytes t = outBytes v
end

