-- ==== Sys2Proof/Laws/Memory.lean ====
section
/-! SUPPORT. The output buffer's bytes: a read after a write to the same address gives the byte written, a write leaves
every other address alone, and every operation keeps the canonical form. -/

namespace Sys2Proof.Machine.Memory

theorem read_insertCell (m : Memory) (a b : Nat) (v : Byte) (h : ∀ c ∈ m, c.1 ≠ a) :
    (insertCell a v m).read b = if b = a then v else m.read b := by
  induction m with
  | nil => simp [insertCell, read, eq_comm]
  | cons c m ih =>
    have hc : c.1 ≠ a := h c (by simp)
    have ih := ih (fun d hd => h d (by simp [hd]))
    unfold insertCell
    split
    · simp [read, eq_comm]
    · by_cases hb : c.1 = b
      · have : ¬ b = a := fun e => hc (hb.trans e)
        simp [read, hb, this]
      · simp [read, hb, ih]

theorem read_filter_same (m : Memory) (a : Nat) : Memory.read (m.filter (fun c => c.1 ≠ a)) a = unlisted := by
  induction m with
  | nil => rfl
  | cons c m ih =>
    by_cases h : c.1 = a
    · simpa [h] using ih
    · simpa [h, read] using ih

theorem read_filter_of_ne (m : Memory) {a b : Nat} (hb : b ≠ a) :
    Memory.read (m.filter (fun c => c.1 ≠ a)) b = m.read b := by
  induction m with
  | nil => rfl
  | cons c m ih =>
    by_cases h : c.1 = a
    · have : ¬ c.1 = b := fun e => hb (e.symm.trans h)
      simpa [h, read, this, hb.symm] using ih
    · by_cases h' : c.1 = b
      · simp [h', read, hb]
      · simpa [h, read, h'] using ih

/-- A byte reads as it was last written, and every other byte as before. -/
theorem read_write (m : Memory) (a b : Nat) (v : Byte) : (m.write a v).read b = if b = a then v else m.read b := by
  unfold write
  by_cases hv : v = unlisted
  · by_cases hb : b = a
    · simpa [hv, hb] using read_filter_same m a
    · simpa [hv, hb] using read_filter_of_ne m hb
  · have hne : ∀ c ∈ m.filter (fun c => c.1 ≠ a), c.1 ≠ a := fun c hc => by simpa using (List.mem_filter.mp hc).2
    simp only [hv, if_false]
    rw [read_insertCell _ a b v hne]
    by_cases hb : b = a
    · simp [hb]
    · simpa [hb] using read_filter_of_ne m hb

@[simp] theorem read_write_same (m : Memory) (a : Nat) (v : Byte) : (m.write a v).read a = v := by
  simp [read_write]

theorem read_write_of_ne (m : Memory) {a b : Nat} (h : b ≠ a) (v : Byte) : (m.write a v).read b = m.read b := by
  simp [read_write, h]

theorem mem_insertCell {m : Memory} {a : Nat} {v : Byte} {d : Host.Cell} (h : d ∈ insertCell a v m) :
    d = (a, v) ∨ d ∈ m := by
  induction m with
  | nil => simpa [insertCell] using h
  | cons c m ih =>
    unfold insertCell at h
    split at h
    · simpa using h
    · rcases List.mem_cons.mp h with rfl | h
      · exact .inr (by simp)
      · exact (ih h).imp_right (List.mem_cons_of_mem _)

/-- A write lists no address that was not listed, the written one apart. -/
theorem mem_write {m : Memory} {a : Nat} {v : Byte} {d : Host.Cell} (h : d ∈ m.write a v) : d = (a, v) ∨ d ∈ m := by
  unfold write at h
  by_cases hv : v = unlisted
  · simp only [hv, if_true] at h
    exact .inr (List.mem_filter.mp h).1
  · simp only [hv, if_false] at h
    exact (mem_insertCell h).imp_right (fun h => (List.mem_filter.mp h).1)

theorem wf_nil : Memory.wf [] := ⟨.nil, by simp⟩

theorem wf_filter {m : Memory} (hm : m.wf) (a : Nat) : Memory.wf (m.filter (fun c => c.1 ≠ a)) :=
  ⟨hm.1.filter _, fun d hd => hm.2 d (List.mem_filter.mp hd).1⟩

theorem wf_insertCell {m : Memory} (hm : m.wf) {a : Nat} {v : Byte} (hv : v ≠ unlisted) (h : ∀ c ∈ m, c.1 ≠ a) :
    (insertCell a v m).wf := by
  induction m with
  | nil => exact ⟨by simp [insertCell], by simpa [insertCell] using hv⟩
  | cons c m ih =>
    have habove := (List.pairwise_cons.mp hm.1).1
    have ih := ih ⟨hm.1.of_cons, fun d hd => hm.2 d (by simp [hd])⟩ (fun d hd => h d (by simp [hd]))
    unfold insertCell
    split
    · rename_i hlt
      refine ⟨List.pairwise_cons.mpr ⟨fun d hd => ?_, hm.1⟩, fun d hd => ?_⟩
      · rcases List.mem_cons.mp hd with rfl | hd
        · exact hlt
        · exact Nat.lt_trans hlt (habove d hd)
      · rcases List.mem_cons.mp hd with rfl | hd
        · exact hv
        · exact hm.2 d hd
    · rename_i hlt
      refine ⟨List.pairwise_cons.mpr ⟨fun d hd => ?_, ih.1⟩, fun d hd => ?_⟩
      · rcases mem_insertCell hd with rfl | hd
        · exact Nat.lt_of_le_of_ne (Nat.le_of_not_lt hlt) (h c (by simp))
        · exact habove d hd
      · rcases List.mem_cons.mp hd with rfl | hd
        · exact hm.2 _ (by simp)
        · exact ih.2 d hd

/-- Every write keeps the canonical form. -/
theorem wf_write {m : Memory} (hm : m.wf) (a : Nat) (v : Byte) : (m.write a v).wf := by
  unfold write
  by_cases hv : v = unlisted
  · simpa [hv] using wf_filter hm a
  · simp only [hv, if_false]
    exact wf_insertCell (wf_filter hm a) hv (fun c hc => by simpa using (List.mem_filter.mp hc).2)

end Sys2Proof.Machine.Memory
end

