-- ==== Sys2Proof/Laws/State.lean ====
section
/-! SUPPORT. One lemma per field per named update of the state, and per view that the update leaves alone, each true by
unfolding, so that no later proof unfolds a record update. -/

namespace Sys2Proof.Machine

@[simp] theorem respond_phase (d : BitVec 32) (s : State) : (respond d s).phase = s.phase := rfl
@[simp] theorem respond_err (d : BitVec 32) (s : State) : (respond d s).err = s.err := rfl
@[simp] theorem respond_ovalid (d : BitVec 32) (s : State) : (respond d s).ovalid = s.ovalid := rfl
@[simp] theorem respond_nsym (d : BitVec 32) (s : State) : (respond d s).nsym = s.nsym := rfl
@[simp] theorem respond_freq (d : BitVec 32) (s : State) : (respond d s).freq = s.freq := rfl
@[simp] theorem respond_total (d : BitVec 32) (s : State) : (respond d s).total = s.total := rfl
@[simp] theorem respond_node (d : BitVec 32) (s : State) : (respond d s).node = s.node := rfl
@[simp] theorem respond_nnodes (d : BitVec 32) (s : State) : (respond d s).nnodes = s.nnodes := rfl
@[simp] theorem respond_root (d : BitVec 32) (s : State) : (respond d s).root = s.root := rfl
@[simp] theorem respond_len (d : BitVec 32) (s : State) : (respond d s).len = s.len := rfl
@[simp] theorem respond_bits (d : BitVec 32) (s : State) : (respond d s).bits = s.bits := rfl
@[simp] theorem respond_tsym (d : BitVec 32) (s : State) : (respond d s).tsym = s.tsym := rfl
@[simp] theorem respond_acc (d : BitVec 32) (s : State) : (respond d s).acc = s.acc := rfl
@[simp] theorem respond_nacc (d : BitVec 32) (s : State) : (respond d s).nacc = s.nacc := rfl
@[simp] theorem respond_hdr (d : BitVec 32) (s : State) : (respond d s).hdr = s.hdr := rfl
@[simp] theorem respond_hold (d : BitVec 32) (s : State) : (respond d s).hold = s.hold := rfl
@[simp] theorem respond_holdV (d : BitVec 32) (s : State) : (respond d s).holdV = s.holdV := rfl
@[simp] theorem respond_cand (d : BitVec 32) (s : State) : (respond d s).cand = s.cand := rfl
@[simp] theorem respond_clen (d : BitVec 32) (s : State) : (respond d s).clen = s.clen := rfl
@[simp] theorem respond_obuf (d : BitVec 32) (s : State) : (respond d s).obuf = s.obuf := rfl
@[simp] theorem respond_olen (d : BitVec 32) (s : State) : (respond d s).olen = s.olen := rfl
@[simp] theorem respond_obufSize (d : BitVec 32) (s : State) : (respond d s).obufSize = s.obufSize := rfl
@[simp] theorem respond_inputs (d : BitVec 32) (s : State) : (respond d s).inputs = s.inputs := rfl
@[simp] theorem respond_rsp (d : BitVec 32) (s : State) : (respond d s).rsp = some { err := 0, data := d } := rfl
@[simp] theorem respond_rspDelay (d : BitVec 32) (s : State) : (respond d s).rspDelay = s.rspDelay := rfl
@[simp] theorem respond_latencies (d : BitVec 32) (s : State) : (respond d s).latencies = s.latencies := rfl
@[simp] theorem respond_delivered (d : BitVec 32) (s : State) : (respond d s).delivered = s.delivered := rfl
@[simp] theorem respond_freqOf (d : BitVec 32) (s : State) (u : Byte) : (respond d s).freqOf u = s.freqOf u := rfl
@[simp] theorem respond_lenOf (d : BitVec 32) (s : State) (u : Byte) : (respond d s).lenOf u = s.lenOf u := rfl
@[simp] theorem respond_codeword (d : BitVec 32) (s : State) (u : Byte) : (respond d s).codeword u = s.codeword u := rfl
@[simp] theorem respond_candidate (d : BitVec 32) (s : State) : (respond d s).candidate = s.candidate := rfl
@[simp] theorem respond_nodeAt (d : BitVec 32) (s : State) (i : Nat) : (respond d s).nodeAt i = s.nodeAt i := rfl
@[simp] theorem respond_obufAt (d : BitVec 32) (s : State) (a : Nat) : (respond d s).obufAt a = s.obufAt a := rfl
@[simp] theorem respond_entries (d : BitVec 32) (s : State) : (respond d s).entries = s.entries := rfl
@[simp] theorem respond_k (d : BitVec 32) (s : State) : (respond d s).k = s.k := rfl

@[simp] theorem raise_phase (e : ErrorCode) (s : State) : (raise e s).phase = .fault := rfl
@[simp] theorem raise_err (e : ErrorCode) (s : State) : (raise e s).err = some e := rfl
@[simp] theorem raise_ovalid (e : ErrorCode) (s : State) : (raise e s).ovalid = false := rfl
@[simp] theorem raise_nsym (e : ErrorCode) (s : State) : (raise e s).nsym = s.nsym := rfl
@[simp] theorem raise_freq (e : ErrorCode) (s : State) : (raise e s).freq = s.freq := rfl
@[simp] theorem raise_total (e : ErrorCode) (s : State) : (raise e s).total = s.total := rfl
@[simp] theorem raise_node (e : ErrorCode) (s : State) : (raise e s).node = s.node := rfl
@[simp] theorem raise_nnodes (e : ErrorCode) (s : State) : (raise e s).nnodes = s.nnodes := rfl
@[simp] theorem raise_root (e : ErrorCode) (s : State) : (raise e s).root = s.root := rfl
@[simp] theorem raise_len (e : ErrorCode) (s : State) : (raise e s).len = s.len := rfl
@[simp] theorem raise_bits (e : ErrorCode) (s : State) : (raise e s).bits = s.bits := rfl
@[simp] theorem raise_tsym (e : ErrorCode) (s : State) : (raise e s).tsym = s.tsym := rfl
@[simp] theorem raise_acc (e : ErrorCode) (s : State) : (raise e s).acc = s.acc := rfl
@[simp] theorem raise_nacc (e : ErrorCode) (s : State) : (raise e s).nacc = s.nacc := rfl
@[simp] theorem raise_hdr (e : ErrorCode) (s : State) : (raise e s).hdr = s.hdr := rfl
@[simp] theorem raise_hold (e : ErrorCode) (s : State) : (raise e s).hold = s.hold := rfl
@[simp] theorem raise_holdV (e : ErrorCode) (s : State) : (raise e s).holdV = s.holdV := rfl
@[simp] theorem raise_cand (e : ErrorCode) (s : State) : (raise e s).cand = s.cand := rfl
@[simp] theorem raise_clen (e : ErrorCode) (s : State) : (raise e s).clen = s.clen := rfl
@[simp] theorem raise_obuf (e : ErrorCode) (s : State) : (raise e s).obuf = s.obuf := rfl
@[simp] theorem raise_olen (e : ErrorCode) (s : State) : (raise e s).olen = s.olen := rfl
@[simp] theorem raise_obufSize (e : ErrorCode) (s : State) : (raise e s).obufSize = s.obufSize := rfl
@[simp] theorem raise_inputs (e : ErrorCode) (s : State) : (raise e s).inputs = s.inputs := rfl
@[simp] theorem raise_rsp (e : ErrorCode) (s : State) : (raise e s).rsp = some { err := e.code, data := 0 } := rfl
@[simp] theorem raise_rspDelay (e : ErrorCode) (s : State) : (raise e s).rspDelay = s.rspDelay := rfl
@[simp] theorem raise_latencies (e : ErrorCode) (s : State) : (raise e s).latencies = s.latencies := rfl
@[simp] theorem raise_delivered (e : ErrorCode) (s : State) : (raise e s).delivered = s.delivered := rfl
@[simp] theorem raise_freqOf (e : ErrorCode) (s : State) (u : Byte) : (raise e s).freqOf u = s.freqOf u := rfl
@[simp] theorem raise_lenOf (e : ErrorCode) (s : State) (u : Byte) : (raise e s).lenOf u = s.lenOf u := rfl
@[simp] theorem raise_codeword (e : ErrorCode) (s : State) (u : Byte) : (raise e s).codeword u = s.codeword u := rfl
@[simp] theorem raise_candidate (e : ErrorCode) (s : State) : (raise e s).candidate = s.candidate := rfl
@[simp] theorem raise_nodeAt (e : ErrorCode) (s : State) (i : Nat) : (raise e s).nodeAt i = s.nodeAt i := rfl
@[simp] theorem raise_obufAt (e : ErrorCode) (s : State) (a : Nat) : (raise e s).obufAt a = s.obufAt a := rfl
@[simp] theorem raise_entries (e : ErrorCode) (s : State) : (raise e s).entries = s.entries := rfl
@[simp] theorem raise_k (e : ErrorCode) (s : State) : (raise e s).k = s.k := rfl

@[simp] theorem answerFaulted_phase (s : State) : (answerFaulted s).phase = s.phase := rfl
@[simp] theorem answerFaulted_err (s : State) : (answerFaulted s).err = s.err := rfl
@[simp] theorem answerFaulted_ovalid (s : State) : (answerFaulted s).ovalid = s.ovalid := rfl
@[simp] theorem answerFaulted_nsym (s : State) : (answerFaulted s).nsym = s.nsym := rfl
@[simp] theorem answerFaulted_freq (s : State) : (answerFaulted s).freq = s.freq := rfl
@[simp] theorem answerFaulted_total (s : State) : (answerFaulted s).total = s.total := rfl
@[simp] theorem answerFaulted_node (s : State) : (answerFaulted s).node = s.node := rfl
@[simp] theorem answerFaulted_nnodes (s : State) : (answerFaulted s).nnodes = s.nnodes := rfl
@[simp] theorem answerFaulted_root (s : State) : (answerFaulted s).root = s.root := rfl
@[simp] theorem answerFaulted_len (s : State) : (answerFaulted s).len = s.len := rfl
@[simp] theorem answerFaulted_bits (s : State) : (answerFaulted s).bits = s.bits := rfl
@[simp] theorem answerFaulted_tsym (s : State) : (answerFaulted s).tsym = s.tsym := rfl
@[simp] theorem answerFaulted_acc (s : State) : (answerFaulted s).acc = s.acc := rfl
@[simp] theorem answerFaulted_nacc (s : State) : (answerFaulted s).nacc = s.nacc := rfl
@[simp] theorem answerFaulted_hdr (s : State) : (answerFaulted s).hdr = s.hdr := rfl
@[simp] theorem answerFaulted_hold (s : State) : (answerFaulted s).hold = s.hold := rfl
@[simp] theorem answerFaulted_holdV (s : State) : (answerFaulted s).holdV = s.holdV := rfl
@[simp] theorem answerFaulted_cand (s : State) : (answerFaulted s).cand = s.cand := rfl
@[simp] theorem answerFaulted_clen (s : State) : (answerFaulted s).clen = s.clen := rfl
@[simp] theorem answerFaulted_obuf (s : State) : (answerFaulted s).obuf = s.obuf := rfl
@[simp] theorem answerFaulted_olen (s : State) : (answerFaulted s).olen = s.olen := rfl
@[simp] theorem answerFaulted_obufSize (s : State) : (answerFaulted s).obufSize = s.obufSize := rfl
@[simp] theorem answerFaulted_inputs (s : State) : (answerFaulted s).inputs = s.inputs := rfl
@[simp] theorem answerFaulted_rsp (s : State) : (answerFaulted s).rsp = some { err := errFaulted, data := 0 } := rfl
@[simp] theorem answerFaulted_rspDelay (s : State) : (answerFaulted s).rspDelay = s.rspDelay := rfl
@[simp] theorem answerFaulted_latencies (s : State) : (answerFaulted s).latencies = s.latencies := rfl
@[simp] theorem answerFaulted_delivered (s : State) : (answerFaulted s).delivered = s.delivered := rfl
@[simp] theorem answerFaulted_freqOf (s : State) (u : Byte) : (answerFaulted s).freqOf u = s.freqOf u := rfl
@[simp] theorem answerFaulted_lenOf (s : State) (u : Byte) : (answerFaulted s).lenOf u = s.lenOf u := rfl
@[simp] theorem answerFaulted_codeword (s : State) (u : Byte) : (answerFaulted s).codeword u = s.codeword u := rfl
@[simp] theorem answerFaulted_candidate (s : State) : (answerFaulted s).candidate = s.candidate := rfl
@[simp] theorem answerFaulted_nodeAt (s : State) (i : Nat) : (answerFaulted s).nodeAt i = s.nodeAt i := rfl
@[simp] theorem answerFaulted_obufAt (s : State) (a : Nat) : (answerFaulted s).obufAt a = s.obufAt a := rfl
@[simp] theorem answerFaulted_entries (s : State) : (answerFaulted s).entries = s.entries := rfl
@[simp] theorem answerFaulted_k (s : State) : (answerFaulted s).k = s.k := rfl

@[simp] theorem clearBlock_phase (s : State) : (clearBlock s).phase = .idle := rfl
@[simp] theorem clearBlock_err (s : State) : (clearBlock s).err = none := rfl
@[simp] theorem clearBlock_ovalid (s : State) : (clearBlock s).ovalid = false := rfl
@[simp] theorem clearBlock_nsym (s : State) : (clearBlock s).nsym = 0 := rfl
@[simp] theorem clearBlock_freq (s : State) : (clearBlock s).freq = Vector.replicate 256 0 := rfl
@[simp] theorem clearBlock_total (s : State) : (clearBlock s).total = 0 := rfl
@[simp] theorem clearBlock_node (s : State) : (clearBlock s).node = s.node := rfl
@[simp] theorem clearBlock_nnodes (s : State) : (clearBlock s).nnodes = 0 := rfl
@[simp] theorem clearBlock_root (s : State) : (clearBlock s).root = Config.nil := rfl
@[simp] theorem clearBlock_len (s : State) : (clearBlock s).len = Vector.replicate 256 0 := rfl
@[simp] theorem clearBlock_bits (s : State) : (clearBlock s).bits = s.bits := rfl
@[simp] theorem clearBlock_tsym (s : State) : (clearBlock s).tsym = 0 := rfl
@[simp] theorem clearBlock_acc (s : State) : (clearBlock s).acc = 0 := rfl
@[simp] theorem clearBlock_nacc (s : State) : (clearBlock s).nacc = 0 := rfl
@[simp] theorem clearBlock_hdr (s : State) : (clearBlock s).hdr = 0 := rfl
@[simp] theorem clearBlock_hold (s : State) : (clearBlock s).hold = 0 := rfl
@[simp] theorem clearBlock_holdV (s : State) : (clearBlock s).holdV = false := rfl
@[simp] theorem clearBlock_cand (s : State) : (clearBlock s).cand = 0 := rfl
@[simp] theorem clearBlock_clen (s : State) : (clearBlock s).clen = 0 := rfl
@[simp] theorem clearBlock_obuf (s : State) : (clearBlock s).obuf = s.obuf := rfl
@[simp] theorem clearBlock_olen (s : State) : (clearBlock s).olen = 0 := rfl
@[simp] theorem clearBlock_obufSize (s : State) : (clearBlock s).obufSize = s.obufSize := rfl
@[simp] theorem clearBlock_inputs (s : State) : (clearBlock s).inputs = s.inputs := rfl
@[simp] theorem clearBlock_rsp (s : State) : (clearBlock s).rsp = s.rsp := rfl
@[simp] theorem clearBlock_rspDelay (s : State) : (clearBlock s).rspDelay = s.rspDelay := rfl
@[simp] theorem clearBlock_latencies (s : State) : (clearBlock s).latencies = s.latencies := rfl
@[simp] theorem clearBlock_delivered (s : State) : (clearBlock s).delivered = s.delivered := rfl
@[simp] theorem clearBlock_nodeAt (s : State) (i : Nat) : (clearBlock s).nodeAt i = s.nodeAt i := rfl
@[simp] theorem clearBlock_obufAt (s : State) (a : Nat) : (clearBlock s).obufAt a = s.obufAt a := rfl

@[simp] theorem setCode_phase (t : Byte) (q : Bits) (s : State) : (setCode t q s).phase = s.phase := rfl
@[simp] theorem setCode_err (t : Byte) (q : Bits) (s : State) : (setCode t q s).err = s.err := rfl
@[simp] theorem setCode_ovalid (t : Byte) (q : Bits) (s : State) : (setCode t q s).ovalid = s.ovalid := rfl
@[simp] theorem setCode_nsym (t : Byte) (q : Bits) (s : State) : (setCode t q s).nsym = s.nsym := rfl
@[simp] theorem setCode_freq (t : Byte) (q : Bits) (s : State) : (setCode t q s).freq = s.freq := rfl
@[simp] theorem setCode_total (t : Byte) (q : Bits) (s : State) : (setCode t q s).total = s.total := rfl
@[simp] theorem setCode_node (t : Byte) (q : Bits) (s : State) : (setCode t q s).node = s.node := rfl
@[simp] theorem setCode_nnodes (t : Byte) (q : Bits) (s : State) : (setCode t q s).nnodes = s.nnodes := rfl
@[simp] theorem setCode_root (t : Byte) (q : Bits) (s : State) : (setCode t q s).root = s.root := rfl
@[simp] theorem setCode_len (t : Byte) (q : Bits) (s : State) : (setCode t q s).len = fileWrite s.len t (BitVec.ofNat 8 q.length) := rfl
@[simp] theorem setCode_bits (t : Byte) (q : Bits) (s : State) : (setCode t q s).bits = fileWrite s.bits t (storeSeq q) := rfl
@[simp] theorem setCode_tsym (t : Byte) (q : Bits) (s : State) : (setCode t q s).tsym = s.tsym := rfl
@[simp] theorem setCode_acc (t : Byte) (q : Bits) (s : State) : (setCode t q s).acc = s.acc := rfl
@[simp] theorem setCode_nacc (t : Byte) (q : Bits) (s : State) : (setCode t q s).nacc = s.nacc := rfl
@[simp] theorem setCode_hdr (t : Byte) (q : Bits) (s : State) : (setCode t q s).hdr = s.hdr := rfl
@[simp] theorem setCode_hold (t : Byte) (q : Bits) (s : State) : (setCode t q s).hold = s.hold := rfl
@[simp] theorem setCode_holdV (t : Byte) (q : Bits) (s : State) : (setCode t q s).holdV = s.holdV := rfl
@[simp] theorem setCode_cand (t : Byte) (q : Bits) (s : State) : (setCode t q s).cand = s.cand := rfl
@[simp] theorem setCode_clen (t : Byte) (q : Bits) (s : State) : (setCode t q s).clen = s.clen := rfl
@[simp] theorem setCode_obuf (t : Byte) (q : Bits) (s : State) : (setCode t q s).obuf = s.obuf := rfl
@[simp] theorem setCode_olen (t : Byte) (q : Bits) (s : State) : (setCode t q s).olen = s.olen := rfl
@[simp] theorem setCode_obufSize (t : Byte) (q : Bits) (s : State) : (setCode t q s).obufSize = s.obufSize := rfl
@[simp] theorem setCode_inputs (t : Byte) (q : Bits) (s : State) : (setCode t q s).inputs = s.inputs := rfl
@[simp] theorem setCode_rsp (t : Byte) (q : Bits) (s : State) : (setCode t q s).rsp = s.rsp := rfl
@[simp] theorem setCode_rspDelay (t : Byte) (q : Bits) (s : State) : (setCode t q s).rspDelay = s.rspDelay := rfl
@[simp] theorem setCode_latencies (t : Byte) (q : Bits) (s : State) : (setCode t q s).latencies = s.latencies := rfl
@[simp] theorem setCode_delivered (t : Byte) (q : Bits) (s : State) : (setCode t q s).delivered = s.delivered := rfl
@[simp] theorem setCode_freqOf (t : Byte) (q : Bits) (s : State) (u : Byte) : (setCode t q s).freqOf u = s.freqOf u := rfl
@[simp] theorem setCode_candidate (t : Byte) (q : Bits) (s : State) : (setCode t q s).candidate = s.candidate := rfl
@[simp] theorem setCode_nodeAt (t : Byte) (q : Bits) (s : State) (i : Nat) : (setCode t q s).nodeAt i = s.nodeAt i := rfl
@[simp] theorem setCode_obufAt (t : Byte) (q : Bits) (s : State) (a : Nat) : (setCode t q s).obufAt a = s.obufAt a := rfl
@[simp] theorem setCode_k (t : Byte) (q : Bits) (s : State) : (setCode t q s).k = s.k := rfl

@[simp] theorem setCand_phase (q : Bits) (s : State) : (setCand q s).phase = s.phase := rfl
@[simp] theorem setCand_err (q : Bits) (s : State) : (setCand q s).err = s.err := rfl
@[simp] theorem setCand_ovalid (q : Bits) (s : State) : (setCand q s).ovalid = s.ovalid := rfl
@[simp] theorem setCand_nsym (q : Bits) (s : State) : (setCand q s).nsym = s.nsym := rfl
@[simp] theorem setCand_freq (q : Bits) (s : State) : (setCand q s).freq = s.freq := rfl
@[simp] theorem setCand_total (q : Bits) (s : State) : (setCand q s).total = s.total := rfl
@[simp] theorem setCand_node (q : Bits) (s : State) : (setCand q s).node = s.node := rfl
@[simp] theorem setCand_nnodes (q : Bits) (s : State) : (setCand q s).nnodes = s.nnodes := rfl
@[simp] theorem setCand_root (q : Bits) (s : State) : (setCand q s).root = s.root := rfl
@[simp] theorem setCand_len (q : Bits) (s : State) : (setCand q s).len = s.len := rfl
@[simp] theorem setCand_bits (q : Bits) (s : State) : (setCand q s).bits = s.bits := rfl
@[simp] theorem setCand_tsym (q : Bits) (s : State) : (setCand q s).tsym = s.tsym := rfl
@[simp] theorem setCand_acc (q : Bits) (s : State) : (setCand q s).acc = s.acc := rfl
@[simp] theorem setCand_nacc (q : Bits) (s : State) : (setCand q s).nacc = s.nacc := rfl
@[simp] theorem setCand_hdr (q : Bits) (s : State) : (setCand q s).hdr = s.hdr := rfl
@[simp] theorem setCand_hold (q : Bits) (s : State) : (setCand q s).hold = s.hold := rfl
@[simp] theorem setCand_holdV (q : Bits) (s : State) : (setCand q s).holdV = s.holdV := rfl
@[simp] theorem setCand_cand (q : Bits) (s : State) : (setCand q s).cand = storeSeq q := rfl
@[simp] theorem setCand_clen (q : Bits) (s : State) : (setCand q s).clen = BitVec.ofNat 8 q.length := rfl
@[simp] theorem setCand_obuf (q : Bits) (s : State) : (setCand q s).obuf = s.obuf := rfl
@[simp] theorem setCand_olen (q : Bits) (s : State) : (setCand q s).olen = s.olen := rfl
@[simp] theorem setCand_obufSize (q : Bits) (s : State) : (setCand q s).obufSize = s.obufSize := rfl
@[simp] theorem setCand_inputs (q : Bits) (s : State) : (setCand q s).inputs = s.inputs := rfl
@[simp] theorem setCand_rsp (q : Bits) (s : State) : (setCand q s).rsp = s.rsp := rfl
@[simp] theorem setCand_rspDelay (q : Bits) (s : State) : (setCand q s).rspDelay = s.rspDelay := rfl
@[simp] theorem setCand_latencies (q : Bits) (s : State) : (setCand q s).latencies = s.latencies := rfl
@[simp] theorem setCand_delivered (q : Bits) (s : State) : (setCand q s).delivered = s.delivered := rfl
@[simp] theorem setCand_freqOf (q : Bits) (s : State) (u : Byte) : (setCand q s).freqOf u = s.freqOf u := rfl
@[simp] theorem setCand_lenOf (q : Bits) (s : State) (u : Byte) : (setCand q s).lenOf u = s.lenOf u := rfl
@[simp] theorem setCand_codeword (q : Bits) (s : State) (u : Byte) : (setCand q s).codeword u = s.codeword u := rfl
@[simp] theorem setCand_nodeAt (q : Bits) (s : State) (i : Nat) : (setCand q s).nodeAt i = s.nodeAt i := rfl
@[simp] theorem setCand_obufAt (q : Bits) (s : State) (a : Nat) : (setCand q s).obufAt a = s.obufAt a := rfl
@[simp] theorem setCand_entries (q : Bits) (s : State) : (setCand q s).entries = s.entries := rfl
@[simp] theorem setCand_k (q : Bits) (s : State) : (setCand q s).k = s.k := rfl

@[simp] theorem startCommand_phase (s : State) : (startCommand s).phase = s.phase := rfl
@[simp] theorem startCommand_err (s : State) : (startCommand s).err = s.err := rfl
@[simp] theorem startCommand_ovalid (s : State) : (startCommand s).ovalid = s.ovalid := rfl
@[simp] theorem startCommand_nsym (s : State) : (startCommand s).nsym = s.nsym := rfl
@[simp] theorem startCommand_freq (s : State) : (startCommand s).freq = s.freq := rfl
@[simp] theorem startCommand_total (s : State) : (startCommand s).total = s.total := rfl
@[simp] theorem startCommand_node (s : State) : (startCommand s).node = s.node := rfl
@[simp] theorem startCommand_nnodes (s : State) : (startCommand s).nnodes = s.nnodes := rfl
@[simp] theorem startCommand_root (s : State) : (startCommand s).root = s.root := rfl
@[simp] theorem startCommand_len (s : State) : (startCommand s).len = s.len := rfl
@[simp] theorem startCommand_bits (s : State) : (startCommand s).bits = s.bits := rfl
@[simp] theorem startCommand_tsym (s : State) : (startCommand s).tsym = s.tsym := rfl
@[simp] theorem startCommand_acc (s : State) : (startCommand s).acc = s.acc := rfl
@[simp] theorem startCommand_nacc (s : State) : (startCommand s).nacc = s.nacc := rfl
@[simp] theorem startCommand_hdr (s : State) : (startCommand s).hdr = s.hdr := rfl
@[simp] theorem startCommand_hold (s : State) : (startCommand s).hold = s.hold := rfl
@[simp] theorem startCommand_holdV (s : State) : (startCommand s).holdV = s.holdV := rfl
@[simp] theorem startCommand_cand (s : State) : (startCommand s).cand = s.cand := rfl
@[simp] theorem startCommand_clen (s : State) : (startCommand s).clen = s.clen := rfl
@[simp] theorem startCommand_obuf (s : State) : (startCommand s).obuf = s.obuf := rfl
@[simp] theorem startCommand_olen (s : State) : (startCommand s).olen = s.olen := rfl
@[simp] theorem startCommand_obufSize (s : State) : (startCommand s).obufSize = s.obufSize := rfl
@[simp] theorem startCommand_inputs (s : State) : (startCommand s).inputs = s.inputs := rfl
@[simp] theorem startCommand_rsp (s : State) : (startCommand s).rsp = s.rsp := rfl
@[simp] theorem startCommand_rspDelay (s : State) : (startCommand s).rspDelay = s.latencies.headD 0 := rfl
@[simp] theorem startCommand_latencies (s : State) : (startCommand s).latencies = s.latencies.tail := rfl
@[simp] theorem startCommand_delivered (s : State) : (startCommand s).delivered = s.delivered := rfl
@[simp] theorem startCommand_freqOf (s : State) (u : Byte) : (startCommand s).freqOf u = s.freqOf u := rfl
@[simp] theorem startCommand_lenOf (s : State) (u : Byte) : (startCommand s).lenOf u = s.lenOf u := rfl
@[simp] theorem startCommand_codeword (s : State) (u : Byte) : (startCommand s).codeword u = s.codeword u := rfl
@[simp] theorem startCommand_candidate (s : State) : (startCommand s).candidate = s.candidate := rfl
@[simp] theorem startCommand_nodeAt (s : State) (i : Nat) : (startCommand s).nodeAt i = s.nodeAt i := rfl
@[simp] theorem startCommand_obufAt (s : State) (a : Nat) : (startCommand s).obufAt a = s.obufAt a := rfl
@[simp] theorem startCommand_entries (s : State) : (startCommand s).entries = s.entries := rfl
@[simp] theorem startCommand_k (s : State) : (startCommand s).k = s.k := rfl

@[simp] theorem takeInput_phase (s : State) : (takeInput s).phase = s.phase := rfl
@[simp] theorem takeInput_err (s : State) : (takeInput s).err = s.err := rfl
@[simp] theorem takeInput_ovalid (s : State) : (takeInput s).ovalid = s.ovalid := rfl
@[simp] theorem takeInput_nsym (s : State) : (takeInput s).nsym = s.nsym := rfl
@[simp] theorem takeInput_freq (s : State) : (takeInput s).freq = s.freq := rfl
@[simp] theorem takeInput_total (s : State) : (takeInput s).total = s.total := rfl
@[simp] theorem takeInput_node (s : State) : (takeInput s).node = s.node := rfl
@[simp] theorem takeInput_nnodes (s : State) : (takeInput s).nnodes = s.nnodes := rfl
@[simp] theorem takeInput_root (s : State) : (takeInput s).root = s.root := rfl
@[simp] theorem takeInput_len (s : State) : (takeInput s).len = s.len := rfl
@[simp] theorem takeInput_bits (s : State) : (takeInput s).bits = s.bits := rfl
@[simp] theorem takeInput_tsym (s : State) : (takeInput s).tsym = s.tsym := rfl
@[simp] theorem takeInput_acc (s : State) : (takeInput s).acc = s.acc := rfl
@[simp] theorem takeInput_nacc (s : State) : (takeInput s).nacc = s.nacc := rfl
@[simp] theorem takeInput_hdr (s : State) : (takeInput s).hdr = s.hdr := rfl
@[simp] theorem takeInput_hold (s : State) : (takeInput s).hold = s.hold := rfl
@[simp] theorem takeInput_holdV (s : State) : (takeInput s).holdV = s.holdV := rfl
@[simp] theorem takeInput_cand (s : State) : (takeInput s).cand = s.cand := rfl
@[simp] theorem takeInput_clen (s : State) : (takeInput s).clen = s.clen := rfl
@[simp] theorem takeInput_obuf (s : State) : (takeInput s).obuf = s.obuf := rfl
@[simp] theorem takeInput_olen (s : State) : (takeInput s).olen = s.olen := rfl
@[simp] theorem takeInput_obufSize (s : State) : (takeInput s).obufSize = s.obufSize := rfl
@[simp] theorem takeInput_inputs (s : State) : (takeInput s).inputs = s.inputs.tail := rfl
@[simp] theorem takeInput_rsp (s : State) : (takeInput s).rsp = s.rsp := rfl
@[simp] theorem takeInput_rspDelay (s : State) : (takeInput s).rspDelay = s.rspDelay := rfl
@[simp] theorem takeInput_latencies (s : State) : (takeInput s).latencies = s.latencies := rfl
@[simp] theorem takeInput_delivered (s : State) : (takeInput s).delivered = s.delivered := rfl
@[simp] theorem takeInput_freqOf (s : State) (u : Byte) : (takeInput s).freqOf u = s.freqOf u := rfl
@[simp] theorem takeInput_lenOf (s : State) (u : Byte) : (takeInput s).lenOf u = s.lenOf u := rfl
@[simp] theorem takeInput_codeword (s : State) (u : Byte) : (takeInput s).codeword u = s.codeword u := rfl
@[simp] theorem takeInput_candidate (s : State) : (takeInput s).candidate = s.candidate := rfl
@[simp] theorem takeInput_nodeAt (s : State) (i : Nat) : (takeInput s).nodeAt i = s.nodeAt i := rfl
@[simp] theorem takeInput_obufAt (s : State) (a : Nat) : (takeInput s).obufAt a = s.obufAt a := rfl
@[simp] theorem takeInput_entries (s : State) : (takeInput s).entries = s.entries := rfl
@[simp] theorem takeInput_k (s : State) : (takeInput s).k = s.k := rfl

@[simp] theorem deliver_phase (r : Response) (s : State) : (deliver r s).phase = s.phase := rfl
@[simp] theorem deliver_err (r : Response) (s : State) : (deliver r s).err = s.err := rfl
@[simp] theorem deliver_ovalid (r : Response) (s : State) : (deliver r s).ovalid = s.ovalid := rfl
@[simp] theorem deliver_nsym (r : Response) (s : State) : (deliver r s).nsym = s.nsym := rfl
@[simp] theorem deliver_freq (r : Response) (s : State) : (deliver r s).freq = s.freq := rfl
@[simp] theorem deliver_total (r : Response) (s : State) : (deliver r s).total = s.total := rfl
@[simp] theorem deliver_node (r : Response) (s : State) : (deliver r s).node = s.node := rfl
@[simp] theorem deliver_nnodes (r : Response) (s : State) : (deliver r s).nnodes = s.nnodes := rfl
@[simp] theorem deliver_root (r : Response) (s : State) : (deliver r s).root = s.root := rfl
@[simp] theorem deliver_len (r : Response) (s : State) : (deliver r s).len = s.len := rfl
@[simp] theorem deliver_bits (r : Response) (s : State) : (deliver r s).bits = s.bits := rfl
@[simp] theorem deliver_tsym (r : Response) (s : State) : (deliver r s).tsym = s.tsym := rfl
@[simp] theorem deliver_acc (r : Response) (s : State) : (deliver r s).acc = s.acc := rfl
@[simp] theorem deliver_nacc (r : Response) (s : State) : (deliver r s).nacc = s.nacc := rfl
@[simp] theorem deliver_hdr (r : Response) (s : State) : (deliver r s).hdr = s.hdr := rfl
@[simp] theorem deliver_hold (r : Response) (s : State) : (deliver r s).hold = s.hold := rfl
@[simp] theorem deliver_holdV (r : Response) (s : State) : (deliver r s).holdV = s.holdV := rfl
@[simp] theorem deliver_cand (r : Response) (s : State) : (deliver r s).cand = s.cand := rfl
@[simp] theorem deliver_clen (r : Response) (s : State) : (deliver r s).clen = s.clen := rfl
@[simp] theorem deliver_obuf (r : Response) (s : State) : (deliver r s).obuf = s.obuf := rfl
@[simp] theorem deliver_olen (r : Response) (s : State) : (deliver r s).olen = s.olen := rfl
@[simp] theorem deliver_obufSize (r : Response) (s : State) : (deliver r s).obufSize = s.obufSize := rfl
@[simp] theorem deliver_inputs (r : Response) (s : State) : (deliver r s).inputs = s.inputs := rfl
@[simp] theorem deliver_rsp (r : Response) (s : State) : (deliver r s).rsp = none := rfl
@[simp] theorem deliver_rspDelay (r : Response) (s : State) : (deliver r s).rspDelay = s.rspDelay := rfl
@[simp] theorem deliver_latencies (r : Response) (s : State) : (deliver r s).latencies = s.latencies := rfl
@[simp] theorem deliver_delivered (r : Response) (s : State) : (deliver r s).delivered = s.delivered ++ [r] := rfl
@[simp] theorem deliver_freqOf (r : Response) (s : State) (u : Byte) : (deliver r s).freqOf u = s.freqOf u := rfl
@[simp] theorem deliver_lenOf (r : Response) (s : State) (u : Byte) : (deliver r s).lenOf u = s.lenOf u := rfl
@[simp] theorem deliver_codeword (r : Response) (s : State) (u : Byte) : (deliver r s).codeword u = s.codeword u := rfl
@[simp] theorem deliver_candidate (r : Response) (s : State) : (deliver r s).candidate = s.candidate := rfl
@[simp] theorem deliver_nodeAt (r : Response) (s : State) (i : Nat) : (deliver r s).nodeAt i = s.nodeAt i := rfl
@[simp] theorem deliver_obufAt (r : Response) (s : State) (a : Nat) : (deliver r s).obufAt a = s.obufAt a := rfl
@[simp] theorem deliver_entries (r : Response) (s : State) : (deliver r s).entries = s.entries := rfl
@[simp] theorem deliver_k (r : Response) (s : State) : (deliver r s).k = s.k := rfl

@[simp] theorem resetEdge_phase (s : State) : (resetEdge s).phase = .idle := rfl
@[simp] theorem resetEdge_err (s : State) : (resetEdge s).err = none := rfl
@[simp] theorem resetEdge_ovalid (s : State) : (resetEdge s).ovalid = false := rfl
@[simp] theorem resetEdge_nsym (s : State) : (resetEdge s).nsym = 0 := rfl
@[simp] theorem resetEdge_freq (s : State) : (resetEdge s).freq = Vector.replicate 256 0 := rfl
@[simp] theorem resetEdge_total (s : State) : (resetEdge s).total = 0 := rfl
@[simp] theorem resetEdge_node (s : State) : (resetEdge s).node = s.node := rfl
@[simp] theorem resetEdge_nnodes (s : State) : (resetEdge s).nnodes = 0 := rfl
@[simp] theorem resetEdge_root (s : State) : (resetEdge s).root = Config.nil := rfl
@[simp] theorem resetEdge_len (s : State) : (resetEdge s).len = Vector.replicate 256 0 := rfl
@[simp] theorem resetEdge_bits (s : State) : (resetEdge s).bits = s.bits := rfl
@[simp] theorem resetEdge_tsym (s : State) : (resetEdge s).tsym = 0 := rfl
@[simp] theorem resetEdge_acc (s : State) : (resetEdge s).acc = 0 := rfl
@[simp] theorem resetEdge_nacc (s : State) : (resetEdge s).nacc = 0 := rfl
@[simp] theorem resetEdge_hdr (s : State) : (resetEdge s).hdr = 0 := rfl
@[simp] theorem resetEdge_hold (s : State) : (resetEdge s).hold = 0 := rfl
@[simp] theorem resetEdge_holdV (s : State) : (resetEdge s).holdV = false := rfl
@[simp] theorem resetEdge_cand (s : State) : (resetEdge s).cand = 0 := rfl
@[simp] theorem resetEdge_clen (s : State) : (resetEdge s).clen = 0 := rfl
@[simp] theorem resetEdge_obuf (s : State) : (resetEdge s).obuf = s.obuf := rfl
@[simp] theorem resetEdge_olen (s : State) : (resetEdge s).olen = 0 := rfl
@[simp] theorem resetEdge_obufSize (s : State) : (resetEdge s).obufSize = s.obufSize := rfl
@[simp] theorem resetEdge_inputs (s : State) : (resetEdge s).inputs = s.inputs := rfl
@[simp] theorem resetEdge_rsp (s : State) : (resetEdge s).rsp = none := rfl
@[simp] theorem resetEdge_rspDelay (s : State) : (resetEdge s).rspDelay = 0 := rfl
@[simp] theorem resetEdge_latencies (s : State) : (resetEdge s).latencies = s.latencies := rfl
@[simp] theorem resetEdge_delivered (s : State) : (resetEdge s).delivered = s.delivered := rfl
@[simp] theorem resetEdge_nodeAt (s : State) (i : Nat) : (resetEdge s).nodeAt i = s.nodeAt i := rfl
@[simp] theorem resetEdge_obufAt (s : State) (a : Nat) : (resetEdge s).obufAt a = s.obufAt a := rfl

end Sys2Proof.Machine
end

