-- ==== Sys2Proof/Laws/Storage.lean ====
section
/-! SUPPORT. The files indexed by symbol, the node memory, and bit sequences in storage: read after write, and that a
sequence of at most 255 bits is read back as it was stored. -/

namespace Sys2Proof.Machine

theorem fileRead_fileWrite {α : Type} (f : Vector α 256) (s t : Byte) (v : α) :
    fileRead (fileWrite f s v) t = if t = s then v else fileRead f t := by
  unfold fileRead fileWrite
  rw [Vector.getElem_set]
  by_cases h : t = s
  · simp [h]
  · have : ¬ s.toNat = t.toNat := fun e => h (BitVec.eq_of_toNat_eq e.symm)
    simp [h, this]

@[simp] theorem fileRead_fileWrite_same {α : Type} (f : Vector α 256) (s : Byte) (v : α) :
    fileRead (fileWrite f s v) s = v := by simp [fileRead_fileWrite]

theorem fileRead_fileWrite_of_ne {α : Type} (f : Vector α 256) {s t : Byte} (h : t ≠ s) (v : α) :
    fileRead (fileWrite f s v) t = fileRead f t := by simp [fileRead_fileWrite, h]

@[simp] theorem fileRead_replicate {α : Type} (v : α) (s : Byte) : fileRead (Vector.replicate 256 v) s = v := by
  simp [fileRead]

/-- Two files are equal when they agree at every symbol. -/
theorem file_ext {α : Type} {f g : Vector α 256} (h : ∀ s, fileRead f s = fileRead g s) : f = g := by
  ext i hi
  have := h (BitVec.ofNat 8 i)
  simpa [fileRead, Nat.mod_eq_of_lt hi] using this

theorem nodeRead_nodeWrite (m : Vector Node 511) (i j : Nat) (e : Node) :
    nodeRead (nodeWrite m i e) j = if j = i ∧ i < 511 then e else nodeRead m j := by
  unfold nodeRead nodeWrite
  rw [Vector.getElem?_setIfInBounds]
  by_cases h : i = j
  · subst h
    by_cases h' : i < 511
    · simp [h']
    · simp [h']
  · have : ¬ (j = i ∧ i < 511) := fun h' => h h'.1.symm
    simp [h, this]

theorem nodeRead_nodeWrite_same (m : Vector Node 511) {i : Nat} (h : i < 511) (e : Node) :
    nodeRead (nodeWrite m i e) i = e := by simp [nodeRead_nodeWrite, h]

theorem nodeRead_nodeWrite_of_ne (m : Vector Node 511) {i j : Nat} (h : j ≠ i) (e : Node) :
    nodeRead (nodeWrite m i e) j = nodeRead m j := by simp [nodeRead_nodeWrite, h]

@[simp] theorem length_seqOf (raw : BitVec 255) (n : Nat) : (seqOf raw n).length = n := by simp [seqOf]

@[simp] theorem seqOf_zero (raw : BitVec 255) : seqOf raw 0 = [] := rfl

/-- A sequence of at most 255 bits is read back as it was stored. -/
theorem seqOf_storeSeq {q : Bits} (h : q.length ≤ 255) : seqOf (storeSeq q) q.length = q := by
  apply List.ext_getElem
  · simp
  · intro i h1 h2
    have hi : i < 255 := Nat.lt_of_lt_of_le h2 h
    have := BitVec.getLsbD_ofBoolListLE (bs := q) (i := i)
    simp only [seqOf, storeSeq, List.getElem_map, List.getElem_range, BitVec.getLsbD_setWidth, hi, this]
    simp [h2]

theorem toNat_ofNat8_length {q : Bits} (h : q.length ≤ 255) : (BitVec.ofNat 8 q.length).toNat = q.length := by
  simp; omega

@[simp] theorem length_codeword (s : State) (t : Byte) : (s.codeword t).length = (s.lenOf t).toNat := by
  simp [State.codeword]

@[simp] theorem length_candidate (s : State) : s.candidate.length = s.clen.toNat := by simp [State.candidate]

theorem codeword_eq_nil {s : State} {t : Byte} (h : s.lenOf t = 0#8) : s.codeword t = [] := by
  simp [State.codeword, h]

theorem lenOf_setCode (t u : Byte) (q : Bits) (s : State) :
    (setCode t q s).lenOf u = if u = t then BitVec.ofNat 8 q.length else s.lenOf u := by
  simp [State.lenOf, fileRead_fileWrite]

/-- After a codeword is written it reads as written, and every other codeword as before. -/
theorem codeword_setCode {q : Bits} (h : q.length ≤ 255) (t u : Byte) (s : State) :
    (setCode t q s).codeword u = if u = t then q else s.codeword u := by
  unfold State.codeword
  rw [lenOf_setCode]
  by_cases hu : u = t
  · subst hu
    rw [if_pos rfl, if_pos rfl, toNat_ofNat8_length h]
    simpa using seqOf_storeSeq h
  · simp [hu, fileRead_fileWrite]

theorem candidate_setCand {q : Bits} (h : q.length ≤ 255) (s : State) : (setCand q s).candidate = q := by
  unfold State.candidate
  rw [setCand_cand, setCand_clen, toNat_ofNat8_length h, seqOf_storeSeq h]

theorem mem_allSymbols (t : Byte) : t ∈ allSymbols := by
  have := t.isLt
  simp only [allSymbols, List.mem_map, List.mem_range]
  exact ⟨t.toNat, this, by simp⟩

theorem length_allSymbols : allSymbols.length = 256 := by simp [allSymbols]

theorem getElem_allSymbols (i : Nat) (h : i < allSymbols.length) : allSymbols[i] = BitVec.ofNat 8 i := by
  simp [allSymbols]

theorem pairwise_allSymbols : allSymbols.Pairwise (fun t u => t < u) := by
  rw [List.pairwise_iff_getElem]
  intro i j hi hj hij
  have hj' : j < 256 := by simpa [length_allSymbols] using hj
  rw [getElem_allSymbols, getElem_allSymbols, BitVec.lt_def]
  simp
  omega

theorem nodup_allSymbols : allSymbols.Nodup :=
  pairwise_allSymbols.imp (fun h e => by subst e; exact absurd h (by simp))

@[simp] theorem mem_entries (s : State) (t : Byte) : t ∈ s.entries ↔ s.lenOf t ≠ 0#8 := by
  simp [State.entries, mem_allSymbols]

theorem nodup_entries (s : State) : s.entries.Nodup := nodup_allSymbols.filter _

theorem length_entries_le (s : State) : s.entries.length ≤ 256 :=
  length_allSymbols ▸ List.length_filter_le _ _

end Sys2Proof.Machine
end

