-- ==== Sys2Proof/Laws/Commands.lean ====
section
/-! SUPPORT. What a command can do, said once: the three ways through the common steps, the two ways a command ends, and
the cases of the append primitive and of the packer's and the decoder's steps. -/

namespace Sys2Proof.Machine

theorem command_of_fault {l : Bool} {run : State → Outcome} {s : State} (h : s.phase = .fault) :
    command l run s = .next (answerFaulted s) := by simp [command, h]

theorem command_of_not_legal {run : State → Outcome} {s : State} (h : s.phase ≠ .fault) :
    command false run s = .next (raise .seq s) := by simp [command, h]

theorem command_of_legal {run : State → Outcome} {s : State} (h : s.phase ≠ .fault) :
    command true run s = run s := by simp [command, h]

/-- The three ways through the common steps of rule R89. -/
theorem command_cases {l : Bool} {run : State → Outcome} {s t : State} (h : command l run s = .next t) :
    (s.phase = .fault ∧ t = answerFaulted s) ∨ (s.phase ≠ .fault ∧ l = false ∧ t = raise .seq s) ∨
      (s.phase ≠ .fault ∧ l = true ∧ run s = .next t) := by
  unfold command at h
  split at h
  · exact .inl ⟨‹_›, by simpa using h.symm⟩
  · split at h
    · exact .inr (.inr ⟨‹_›, ‹_›, h⟩)
    · exact .inr (.inl ⟨‹_›, Bool.eq_false_iff.mpr ‹_›, by simpa using h.symm⟩)

@[simp] theorem finish_ok (s t : State) (d : State → BitVec 32) : finish s (.ok t) d = .next (respond (d t) t) := rfl

@[simp] theorem finish_error (s : State) (e : ErrorCode) (d : State → BitVec 32) :
    finish s (.error e) d = .next (raise e s) := rfl

/-- The two ways a command ends (rule R10). -/
theorem finish_cases {s t : State} {r : Working} {d : State → BitVec 32} (h : finish s r d = .next t) :
    (∃ u, r = .ok u ∧ t = respond (d u) u) ∨ ∃ e, r = .error e ∧ t = raise e s := by
  cases r with
  | ok u => exact .inl ⟨u, rfl, by simpa using h.symm⟩
  | error e => exact .inr ⟨e, rfl, by simpa using h.symm⟩

/-- A command that has come to its end answers. -/
theorem finish_completes (s : State) (r : Working) (d : State → BitVec 32) : ∃ t, finish s r d = .next t := by
  cases r <;> exact ⟨_, rfl⟩

/-- A command answers when its own rule, past the common steps, does. -/
theorem command_completes {l : Bool} {run : State → Outcome} {s : State}
    (h : s.phase ≠ .fault → l = true → ∃ t, run s = .next t) : ∃ t, command l run s = .next t := by
  by_cases hp : s.phase = .fault
  · exact ⟨_, command_of_fault hp⟩
  · cases l with
    | true => rw [command_of_legal hp]; exact h hp rfl
    | false => exact ⟨_, command_of_not_legal hp⟩

theorem inRange_cases {ok : Bool} {s : State} {r : Working} (h : inRange ok s = r) :
    (ok = true ∧ r = .ok s) ∨ (ok = false ∧ r = .error .range) := by
  cases ok <;> simp_all [inRange]

theorem append_ok {v : Byte} {s : State} (h : s.olen ≠ s.obufSize) :
    append v s = .ok { s with obuf := s.obuf.write s.olen.toNat v, olen := s.olen + 1 } := by simp [append, h]

theorem append_full {v : Byte} {s : State} (h : s.olen = s.obufSize) : append v s = .error .obufFull := by
  simp [append, h]

/-- The two cases of the append primitive (rule R39). -/
theorem append_cases {v : Byte} {s : State} {r : Working} (h : append v s = r) :
    (s.olen ≠ s.obufSize ∧ r = .ok { s with obuf := s.obuf.write s.olen.toNat v, olen := s.olen + 1 }) ∨
      (s.olen = s.obufSize ∧ r = .error .obufFull) := by
  by_cases hs : s.olen = s.obufSize
  · exact .inr ⟨hs, by rw [← h, append_full hs]⟩
  · exact .inl ⟨hs, by rw [← h, append_ok hs]⟩

@[simp] theorem pushBits_nil (s : State) : pushBits [] s = .ok s := rfl

theorem pushBits_cons (x : Bool) (q : Bits) (s : State) : pushBits (x :: q) s = (pushBit x s).bind (pushBits q) := rfl

/-- The packer takes a sequence in two parts as it takes the whole. -/
theorem pushBits_append (p q : Bits) (s : State) : pushBits (p ++ q) s = (pushBits p s).bind (pushBits q) := by
  induction p generalizing s with
  | nil => rfl
  | cons x p ih =>
    rw [List.cons_append, pushBits_cons, pushBits_cons]
    cases pushBit x s with
    | ok t => exact ih t
    | error e => rfl

@[simp] theorem feedBits_nil (s : State) : feedBits [] s = .ok s := rfl

theorem feedBits_cons (x : Bool) (q : Bits) (s : State) : feedBits (x :: q) s = (feedBit x s).bind (feedBits q) := rfl

/-- The decoder takes a sequence in two parts as it takes the whole. -/
theorem feedBits_append (p q : Bits) (s : State) : feedBits (p ++ q) s = (feedBits p s).bind (feedBits q) := by
  induction p generalizing s with
  | nil => rfl
  | cons x p ih =>
    rw [List.cons_append, feedBits_cons, feedBits_cons]
    cases feedBit x s with
    | ok t => exact ih t
    | error e => rfl

/-- The three cases of the packer's step (rule R152). -/
theorem pushBit_cases {x : Bool} {s : State} {r : Working} (h : pushBit x s = r) :
    (s.nacc ≠ 7#3 ∧ r = .ok { s with acc := writeBit s.acc (7 - s.nacc.toNat) x, nacc := s.nacc + 1 }) ∨
      (s.nacc = 7#3 ∧ s.olen ≠ s.obufSize ∧ r = .ok { s with
        acc := 0, nacc := 0, obuf := s.obuf.write s.olen.toNat (writeBit s.acc 0 x), olen := s.olen + 1 }) ∨
      (s.nacc = 7#3 ∧ s.olen = s.obufSize ∧ r = .error .obufFull) := by
  subst h
  unfold pushBit
  by_cases h7 : s.nacc = 7#3
  · rw [if_pos h7]
    by_cases hf : s.olen = s.obufSize
    · exact .inr (.inr ⟨h7, hf, by rw [append_full hf]; rfl⟩)
    · refine .inr (.inl ⟨h7, hf, ?_⟩)
      rw [append_ok hf]
      simp [Except.map, h7]
  · exact .inl ⟨h7, by rw [if_neg h7]⟩

/-- The four cases of the decoder's step (rule R172). -/
theorem feedBit_cases {x : Bool} {s : State} {r : Working} (h : feedBit x s = r) :
    (∃ t, matching (s.candidate ++ [x]) s = some t ∧ s.olen ≠ s.obufSize ∧
        r = .ok (setCand [] { s with obuf := s.obuf.write s.olen.toNat t, olen := s.olen + 1 })) ∨
      (∃ t, matching (s.candidate ++ [x]) s = some t ∧ s.olen = s.obufSize ∧ r = .error .obufFull) ∨
      (matching (s.candidate ++ [x]) s = none ∧ s.clen.toNat < 254 ∧ r = .ok (setCand (s.candidate ++ [x]) s)) ∨
      (matching (s.candidate ++ [x]) s = none ∧ 254 ≤ s.clen.toNat ∧ r = .error .malformedStream) := by
  subst h
  unfold feedBit
  cases hm : matching (s.candidate ++ [x]) s with
  | some t =>
    by_cases hf : s.olen = s.obufSize
    · exact .inr (.inl ⟨t, rfl, hf, by simp [append_full hf, Except.map]⟩)
    · exact .inl ⟨t, rfl, hf, by simp [append_ok hf, Except.map]⟩
  | none =>
    by_cases hl : 254 ≤ s.clen.toNat
    · exact .inr (.inr (.inr ⟨rfl, hl, by simp [Config.codeMax]; omega⟩))
    · exact .inr (.inr (.inl ⟨rfl, by omega, by simp [Config.codeMax]; omega⟩))

/-- A match is a symbol of the table whose codeword is the sequence (rule R172). -/
theorem matching_some {q : Bits} {s : State} {t : Byte} (h : matching q s = some t) :
    s.codeword t = q ∧ (s.lenOf t).toNat = q.length := by
  have := List.find?_some h
  simp only [Bool.and_eq_true, beq_iff_eq] at this
  exact ⟨this.2, this.1⟩

/-- No match: no symbol's codeword is the sequence. -/
theorem matching_none {q : Bits} {s : State} (h : matching q s = none) (t : Byte) : s.codeword t ≠ q := by
  intro e
  have := List.find?_eq_none.mp h t (mem_allSymbols t)
  simp [e.symm] at this

/-- In a prefix-free table the match of a codeword is its own symbol (rule R172: "The symbol, when there is one, is
unique"). -/
theorem matching_codeword {s : State} (hp : PrefixFree s) {t : Byte} (h : s.lenOf t ≠ 0#8) :
    matching (s.codeword t) s = some t := by
  cases hm : matching (s.codeword t) s with
  | none => exact absurd rfl (matching_none hm t)
  | some u =>
    obtain ⟨hc, hl⟩ := matching_some hm
    by_cases hu : u = t
    · rw [hu]
    · have hu0 : s.lenOf u ≠ 0#8 := by
        intro h0
        rw [h0] at hl
        simp only [length_codeword] at hl
        exact h (BitVec.eq_of_toNat_eq (by simpa using hl.symm))
      exact absurd (hc ▸ List.prefix_refl _) (hp u t hu hu0 h)

/-- The check of `TEND` decides prefix-freedom (rule R137). -/
theorem tableClashes_eq_false {s : State} (h : tableClashes s = false) : PrefixFree s := by
  intro t u htu ht hu hpre
  have := List.any_eq_false.mp h t (by simpa using ht)
  simp only [Bool.not_eq_true] at this
  have := List.any_eq_false.mp this u (by simpa using hu)
  simp [clash, htu, hpre] at this

end Sys2Proof.Machine
end

