-- ==== Sys2Proof/Laws/Packing.lean ====
section
/-! SUPPORT. The output buffer as a byte sequence, and the packer as a function on bit sequences: what pushing a sequence
does to the packed bits, when it fits and when it does not (spec/43_encoder_packer.md rules R151 and R152). -/

namespace Sys2Proof.Machine

/-- A byte with one bit replaced. -/
theorem getLsbD_writeBit (v : Byte) {i : Nat} (hi : i < 8) (x : Bool) (j : Nat) :
    (writeBit v i x).getLsbD j = if j = i then x else v.getLsbD j := by
  unfold writeBit
  by_cases hj : j < 8
  · have hone : (1#8 <<< i).getLsbD j = decide (j = i) := by
      rw [BitVec.getLsbD_shiftLeft, BitVec.getLsbD_one]
      by_cases e : j = i
      · subst e
        simp [hj]
      · by_cases hji : j < i
        · simp [e, hji]
        · have : ¬ (j - i = 0) := by omega
          simp [e, this]
    cases x
    · simp only [Bool.false_eq_true, if_false, BitVec.getLsbD_and, BitVec.getLsbD_not, hone, hj, decide_true,
        Bool.true_and]
      by_cases e : j = i <;> simp [e]
    · simp only [if_true, BitVec.getLsbD_or, hone]
      by_cases e : j = i <;> simp [e]
  · have hne : j ≠ i := by omega
    rw [if_neg hne, BitVec.getLsbD_of_ge _ _ (by omega), BitVec.getLsbD_of_ge _ _ (by omega)]

/-- Replacing bit `7 - n` extends the first `n` bits, MSB-first, by one (rules R62 and R152). -/
theorem take_bitsMsbFirst_writeBit (v : Byte) (n : Fin 8) (x : Bool) :
    (bitsMsbFirst (writeBit v (7 - n) x)).take (n + 1) = (bitsMsbFirst v).take n ++ [x] := by
  have h := getLsbD_writeBit v (i := 7 - n) (by omega) x
  simp only [bitsMsbFirst, h]
  match n with
  | 0 | 1 | 2 | 3 | 4 | 5 | 6 | 7 => rfl

/-- Replacing bit 0 completes the byte. -/
theorem bitsMsbFirst_writeBit_zero (v : Byte) (x : Bool) :
    bitsMsbFirst (writeBit v 0 x) = (bitsMsbFirst v).take 7 ++ [x] :=
  take_bitsMsbFirst_writeBit v 7 x

/-- Replacing bit `7 - n` leaves the bits below it alone. -/
theorem getLsbD_writeBit_below (v : Byte) (n : Fin 8) (x : Bool) (i : Fin 8) (h : (i : Nat) < 7 - n) :
    (writeBit v (7 - n) x).getLsbD i = v.getLsbD i := by
  rw [getLsbD_writeBit v (by omega), if_neg (by omega)]

@[simp] theorem length_bitsMsbFirst (v : Byte) : (bitsMsbFirst v).length = 8 := rfl

@[simp] theorem length_outBytes (s : State) : (outBytes s).length = s.olen.toNat := by simp [outBytes]

theorem getElem?_outBytes (s : State) (a : Nat) :
    (outBytes s)[a]? = if a < s.olen.toNat then some (s.obufAt a) else none := by
  by_cases h : a < s.olen.toNat
  · simp [outBytes, h]
  · simp [outBytes, h]

/-- Storing a byte at `OLEN` and counting it appends it to the output. -/
theorem outBytes_of_write {s t : State} {v : Byte} (ho : t.obuf = s.obuf.write s.olen.toNat v)
    (hl : t.olen.toNat = s.olen.toNat + 1) : outBytes t = outBytes s ++ [v] := by
  unfold outBytes
  rw [hl, List.range_succ, List.map_append]
  congr 1
  · refine List.map_congr_left fun a ha => ?_
    have : a ≠ s.olen.toNat := Nat.ne_of_lt (List.mem_range.mp ha)
    simp [State.obufAt, ho, Memory.read_write_of_ne _ this]
  · simp [State.obufAt, ho]

/-- `OLEN + 1` does not wrap below `OBUF_SIZE` (rule R39). -/
theorem toNat_olen_succ {s : State} (hle : s.olen.toNat ≤ s.obufSize.toNat) (hne : s.olen ≠ s.obufSize) :
    (s.olen + 1).toNat = s.olen.toNat + 1 ∧ s.olen.toNat + 1 ≤ s.obufSize.toNat := by
  have h1 : s.olen.toNat ≠ s.obufSize.toNat := fun h => hne (BitVec.eq_of_toNat_eq h)
  have h2 := s.obufSize.isLt
  refine ⟨?_, by omega⟩
  rw [BitVec.toNat_add]
  simp
  omega

/-- What pushing the bits `q` leaves (rule R152). -/
structure Pushed (s : State) (q : Bits) (t : State) : Prop where
  packed : packedBits t = packedBits s ++ q
  inv : PackerInv t
  olen : t.olen.toNat = s.olen.toNat + (s.nacc.toNat + q.length) / 8
  nacc : t.nacc.toNat = (s.nacc.toNat + q.length) % 8
  outside : ∀ a, a < s.olen.toNat ∨ t.olen.toNat ≤ a → t.obufAt a = s.obufAt a
  frame : t = { s with acc := t.acc, nacc := t.nacc, obuf := t.obuf, olen := t.olen }

theorem Pushed.refl {s : State} (h : PackerInv s) : Pushed s [] s where
  packed := by simp
  inv := h
  olen := by have := s.nacc.isLt; simp; omega
  nacc := by have := s.nacc.isLt; simp; omega
  outside := fun _ _ => rfl
  frame := rfl

theorem Pushed.trans {s t u : State} {p q : Bits} (h : Pushed s p t) (g : Pushed t q u) : Pushed s (p ++ q) u where
  packed := by rw [g.packed, h.packed, List.append_assoc]
  inv := g.inv
  olen := by
    rw [g.olen, h.olen, h.nacc, List.length_append]
    omega
  nacc := by rw [g.nacc, h.nacc, List.length_append]; omega
  outside := fun a ha => by
    have hu := g.olen
    have ht := h.olen
    rw [g.outside a (by omega), h.outside a (by omega)]
  frame := by rw [g.frame, h.frame]

/-- One pushed bit (rule R152). -/
theorem pushBit_pushed {s : State} (x : Bool) (hi : PackerInv s) (hle : s.olen.toNat ≤ s.obufSize.toNat)
    (hfit : s.olen.toNat + (s.nacc.toNat + 1) / 8 ≤ s.obufSize.toNat) :
    ∃ t, pushBit x s = .ok t ∧ Pushed s [x] t := by
  have hn := s.nacc.isLt
  rcases pushBit_cases (x := x) (s := s) rfl with ⟨h7, hr⟩ | ⟨h7, hne, hr⟩ | ⟨h7, he, -⟩
  · have h7' : s.nacc.toNat ≠ 7 := fun h => h7 (BitVec.eq_of_toNat_eq (by simpa using h))
    have hn1 : (s.nacc + 1).toNat = s.nacc.toNat + 1 := by rw [BitVec.toNat_add]; simp; omega
    refine ⟨_, hr, ?_, ⟨hi.headerReserved, ?_⟩, ?_, ?_, fun _ _ => rfl, rfl⟩
    · simp only [packedBits, outBytes]
      rw [hn1, take_bitsMsbFirst_writeBit s.acc ⟨s.nacc.toNat, hn⟩ x, ← List.append_assoc]
      rfl
    · intro i hlt
      simp only [hn1] at hlt
      rw [getLsbD_writeBit_below s.acc ⟨s.nacc.toNat, hn⟩ x ⟨i, by omega⟩ (by simp; omega)]
      exact hi.clean i (by omega)
    · simp; omega
    · simp only [hn1]; simp; omega
  · obtain ⟨hs, hb⟩ := toNat_olen_succ hle hne
    have h7' : s.nacc.toNat = 7 := by rw [h7]; rfl
    refine ⟨_, hr, ?_, ⟨by simp only [hs]; omega, fun i _ => by simp⟩, ?_, ?_, ?_, rfl⟩
    · have ho := outBytes_of_write (s := s)
        (t := { s with
          acc := 0, nacc := 0, obuf := s.obuf.write s.olen.toNat (writeBit s.acc 0 x), olen := s.olen + 1 })
        rfl hs
      have hne : outBytes s ≠ [] := by
        intro h
        have := hi.headerReserved
        have := length_outBytes s
        rw [h] at this
        simp at this
        omega
      unfold packedBits
      rw [ho, List.tail_append_of_ne_nil hne, List.flatMap_append, h7']
      simp [bitsMsbFirst_writeBit_zero]
    · simp only [hs, h7']; simp
    · simp [h7']
    · intro a ha
      simp only [hs] at ha
      simp [State.obufAt, Memory.read_write_of_ne _ (show a ≠ s.olen.toNat by omega)]
  · have h7' : s.nacc.toNat = 7 := by rw [h7]; rfl
    rw [he, h7'] at hfit
    omega

/-- A sequence that fits (rules R151 and R152). -/
theorem pushBits_pushed (q : Bits) {s : State} (hi : PackerInv s) (hle : s.olen.toNat ≤ s.obufSize.toNat)
    (hfit : s.olen.toNat + (s.nacc.toNat + q.length) / 8 ≤ s.obufSize.toNat) :
    ∃ t, pushBits q s = .ok t ∧ Pushed s q t := by
  induction q generalizing s with
  | nil => exact ⟨s, rfl, .refl hi⟩
  | cons x q ih =>
    rw [List.length_cons] at hfit
    obtain ⟨t, ht, hp⟩ := pushBit_pushed x hi hle (by omega)
    have h1 := hp.olen
    have h2 := hp.nacc
    have hsz : t.obufSize = s.obufSize := by rw [hp.frame]
    simp only [List.length_singleton] at h1 h2
    obtain ⟨u, hu, hq⟩ := ih hp.inv (by rw [hsz]; omega) (by rw [hsz]; omega)
    exact ⟨u, by rw [pushBits_cons, ht]; exact hu, hp.trans hq⟩

/-- A sequence that does not fit raises `ERR_OBUF_FULL` (rules R39 and R151). -/
theorem pushBits_full (q : Bits) {s : State} (hi : PackerInv s) (hle : s.olen.toNat ≤ s.obufSize.toNat)
    (hbig : s.obufSize.toNat < s.olen.toNat + (s.nacc.toNat + q.length) / 8) :
    pushBits q s = .error .obufFull := by
  induction q generalizing s with
  | nil => have := s.nacc.isLt; simp at hbig; omega
  | cons x q ih =>
    rw [List.length_cons] at hbig
    by_cases hfit : s.olen.toNat + (s.nacc.toNat + 1) / 8 ≤ s.obufSize.toNat
    · obtain ⟨t, ht, hp⟩ := pushBit_pushed x hi hle hfit
      have h1 := hp.olen
      have h2 := hp.nacc
      have hsz : t.obufSize = s.obufSize := by rw [hp.frame]
      simp only [List.length_singleton] at h1 h2
      rw [pushBits_cons, ht]
      exact ih hp.inv (by rw [hsz]; omega) (by rw [hsz]; omega)
    · have hn := s.nacc.isLt
      have h7 : s.nacc = 7#3 := BitVec.eq_of_toNat_eq (by simp; omega)
      have he : s.olen = s.obufSize := BitVec.eq_of_toNat_eq (by omega)
      rcases pushBit_cases (x := x) (s := s) rfl with ⟨h, -⟩ | ⟨-, h, -⟩ | ⟨-, -, hr⟩
      · exact absurd h7 h
      · exact absurd he h
      · rw [pushBits_cons, hr]; rfl

end Sys2Proof.Machine
end

