-- ==== Sys2Proof/Laws/Decoding.lean ====
section
/-! SUPPORT. The decoder as a function on bit sequences: what feeding a sequence does when the candidate and the sequence
are whole codewords and a rest in which no codeword begins, and the two ways it fails (spec/44_unpacker_decoder.md rules
R172 and R177). -/

namespace Sys2Proof.Machine

/-- What feeding the bits of the codewords of `b` and of `rest` leaves. -/
structure Fed (s : State) (b : List Byte) (rest : Bits) (t : State) : Prop where
  out : outBytes t = outBytes s ++ b
  cand : t.candidate = rest
  above : ∀ a, t.olen.toNat ≤ a → t.obufAt a = s.obufAt a
  frame : t = { s with cand := t.cand, clen := t.clen, obuf := t.obuf, olen := t.olen }

theorem Fed.olen {s t : State} {b : List Byte} {rest : Bits} (h : Fed s b rest t) :
    t.olen.toNat = s.olen.toNat + b.length := by
  have := congrArg List.length h.out
  simpa using this

theorem Fed.codeword {s t : State} {b : List Byte} {rest : Bits} (h : Fed s b rest t) (u : Byte) :
    t.codeword u = s.codeword u := by rw [h.frame]; rfl

theorem Fed.lenOf {s t : State} {b : List Byte} {rest : Bits} (h : Fed s b rest t) (u : Byte) :
    t.lenOf u = s.lenOf u := by rw [h.frame]; rfl

theorem Fed.obufSize {s t : State} {b : List Byte} {rest : Bits} (h : Fed s b rest t) :
    t.obufSize = s.obufSize := by rw [h.frame]

theorem Fed.prefixFree {s t : State} {b : List Byte} {rest : Bits} (h : Fed s b rest t) (hp : PrefixFree s) :
    PrefixFree t := by
  intro u v huv hu hv
  rw [h.codeword, h.codeword]
  exact hp u v huv (h.lenOf u ▸ hu) (h.lenOf v ▸ hv)

theorem Fed.noMatchIn {s t : State} {b : List Byte} {rest q : Bits} (h : Fed s b rest t) :
    NoMatchIn t q ↔ NoMatchIn s q := by
  simp only [NoMatchIn, h.codeword, h.lenOf]

theorem Fed.codeStream {s t : State} {b c : List Byte} {rest : Bits} (h : Fed s b rest t) :
    codeStream t c = codeStream s c := by
  unfold Machine.codeStream
  congr 1
  exact funext h.codeword

theorem Fed.covered {s t : State} {b c : List Byte} {rest : Bits} (h : Fed s b rest t) :
    Covered t c ↔ Covered s c := by simp only [Covered, h.lenOf]

theorem Fed.trans {s t u : State} {b c : List Byte} {p q : Bits} (h : Fed s b p t) (g : Fed t c q u) :
    Fed s (b ++ c) q u where
  out := by rw [g.out, h.out, List.append_assoc]
  cand := g.cand
  above := fun a ha => by
    have := g.olen
    rw [g.above a ha, h.above a (by omega)]
  frame := by rw [g.frame, h.frame]

theorem codeword_ne_nil {s : State} {t : Byte} (h : s.lenOf t ≠ 0#8) : s.codeword t ≠ [] := by
  intro e
  have := length_codeword s t
  rw [e] at this
  exact h (BitVec.eq_of_toNat_eq (by simpa using this.symm))

theorem length_codeword_le (s : State) (t : Byte) : (s.codeword t).length ≤ 255 := by
  have := (s.lenOf t).isLt
  rw [length_codeword]
  omega

/-- In a sealed table no codeword begins in the empty candidate. -/
theorem noMatchIn_nil (s : State) : NoMatchIn s [] := fun _ ht h =>
  codeword_ne_nil ht (List.prefix_nil.mp h)

theorem NoMatchIn.of_prefix {s : State} {p q : Bits} (h : NoMatchIn s q) (hpq : p <+: q) : NoMatchIn s p :=
  fun t ht hc => h t ht (hc.trans hpq)

theorem matching_eq_none {s : State} {q : Bits} (hq : q ≠ []) (h : NoMatchIn s q) : matching q s = none := by
  cases hm : matching q s with
  | none => rfl
  | some t =>
    obtain ⟨hc, hl⟩ := matching_some hm
    refine absurd (hc ▸ List.prefix_refl _) (h t fun h0 => ?_)
    rw [h0] at hl
    exact hq (List.eq_nil_of_length_eq_zero (by simpa using hl.symm))

/-- Bits in which no codeword begins only lengthen the candidate. -/
theorem feedBits_noMatch (q : Bits) {s : State} (hn : NoMatchIn s (s.candidate ++ q))
    (hl : (s.candidate ++ q).length ≤ 254) :
    ∃ t, feedBits q s = .ok t ∧ t.candidate = s.candidate ++ q ∧ t = { s with cand := t.cand, clen := t.clen } := by
  induction q generalizing s with
  | nil => exact ⟨s, rfl, by simp, rfl⟩
  | cons x q ih =>
    have hx : matching (s.candidate ++ [x]) s = none :=
      matching_eq_none (by simp) (hn.of_prefix ⟨q, by simp⟩)
    have hlen : s.clen.toNat < 254 := by simp at hl; omega
    rcases feedBit_cases (x := x) (s := s) rfl with ⟨t, h, -⟩ | ⟨t, h, -⟩ | ⟨-, -, hr⟩ | ⟨-, h, -⟩
    · rw [hx] at h; cases h
    · rw [hx] at h; cases h
    · have hc : (setCand (s.candidate ++ [x]) s).candidate = s.candidate ++ [x] :=
        candidate_setCand (by simp; omega) s
      obtain ⟨t, ht, hf, hg⟩ := ih (s := setCand (s.candidate ++ [x]) s)
        (by rw [hc, List.append_assoc]; exact hn) (by rw [hc, List.append_assoc]; exact hl)
      exact ⟨t, by rw [feedBits_cons, hr]; exact ht, by rw [hf, hc, List.append_assoc]; rfl, by rw [hg]; rfl⟩
    · omega

/-- The bits that complete a codeword emit its symbol, or raise `ERR_OBUF_FULL`. -/
theorem feedBits_codeword (q : Bits) {s : State} {y : Byte} (hp : PrefixFree s) (hy : s.lenOf y ≠ 0#8)
    (hq : q ≠ []) (he : s.candidate ++ q = s.codeword y) :
    (s.olen ≠ s.obufSize → s.olen.toNat ≤ s.obufSize.toNat → ∃ t, feedBits q s = .ok t ∧ Fed s [y] [] t) ∧
      (s.olen = s.obufSize → feedBits q s = .error .obufFull) := by
  obtain ⟨p, x, rfl⟩ : ∃ p x, q = p ++ [x] := ⟨q.dropLast, q.getLast hq, (List.dropLast_append_getLast hq).symm⟩
  have hlen := length_codeword_le s y
  rw [← he] at hlen
  have hn : NoMatchIn s (s.candidate ++ p) := by
    intro u hu hc
    have hpre : s.candidate ++ p <+: s.codeword y := ⟨[x], by rw [← he, List.append_assoc]⟩
    by_cases huy : u = y
    · subst huy
      have h2 := hc.length_le
      rw [← he] at h2
      simp at h2
    · exact hp u y huy hu hy (hc.trans hpre)
  obtain ⟨t, ht, hc, hf⟩ := feedBits_noMatch p hn (by simp at hlen ⊢; omega)
  have hm : matching (t.candidate ++ [x]) t = some y := by
    rw [hc, List.append_assoc, he]
    rw [hf]
    exact matching_codeword hp hy
  have hstep : feedBits (p ++ [x]) s = feedBit x t := by
    rw [feedBits_append, ht]
    cases h : feedBit x t <;> simp [Except.bind, feedBits, h]
  rw [hstep]
  have ho : t.olen = s.olen := by rw [hf]
  have hz : t.obufSize = s.obufSize := by rw [hf]
  have hb : t.obuf = s.obuf := by rw [hf]
  constructor
  · intro hne hle
    have hs := (toNat_olen_succ hle hne).1
    rcases feedBit_cases (x := x) (s := t) rfl with ⟨z, h, -, hr⟩ | ⟨z, h, h', -⟩ | ⟨h, -⟩ | ⟨h, -⟩
    · rw [hm] at h
      obtain rfl := Option.some.inj h
      refine ⟨_, hr, outBytes_of_write ?_ ?_, candidate_setCand (by simp) _, fun a ha => ?_, ?_⟩
      · simp [hb, ho]
      · simp only [setCand_olen, ho]; exact hs
      · simp only [setCand_olen, ho, hs] at ha
        simp [State.obufAt, ho, hb, Memory.read_write_of_ne _ (show a ≠ s.olen.toNat by omega)]
      · rw [hf]; rfl
    · exact absurd (ho.symm.trans (h'.trans hz)) hne
    · rw [hm] at h; cases h
    · rw [hm] at h; cases h
  · intro heq
    rcases feedBit_cases (x := x) (s := t) rfl with ⟨z, h, hne', hr⟩ | ⟨z, h, h', hr⟩ | ⟨h, -⟩ | ⟨h, -⟩
    · exact absurd (ho.trans (heq.trans hz.symm)) hne'
    · exact hr
    · rw [hm] at h; cases h
    · rw [hm] at h; cases h

theorem codeStream_cons (s : State) (y : Byte) (b : List Byte) :
    codeStream s (y :: b) = s.codeword y ++ codeStream s b := rfl

/-- When no codeword begins in the candidate and the bits go on to a whole codeword, the codeword ends in the bits. -/
theorem split_at_codeword {s : State} {y : Byte} {q r : Bits} (hy : s.lenOf y ≠ 0#8) (hc : NoMatchIn s s.candidate)
    (he : s.candidate ++ q = s.codeword y ++ r) : ∃ p, p ≠ [] ∧ q = p ++ r ∧ s.candidate ++ p = s.codeword y := by
  rcases List.append_eq_append_iff.mp he with ⟨p, h1, h2⟩ | ⟨p, h1, h2⟩
  · refine ⟨p, fun h => ?_, h2, h1.symm⟩
    subst h
    exact hc y hy (by rw [h1, List.append_nil])
  · exact absurd ⟨p, h1.symm⟩ (hc y hy)

/-- Whole codewords and a rest: the symbols are emitted and the rest is the candidate (rule R172). -/
theorem feedBits_stream (b : List Byte) {q rest : Bits} {s : State} (hp : PrefixFree s)
    (hc : NoMatchIn s s.candidate) (hb : Covered s b) (hr : NoMatchIn s rest) (hl : rest.length ≤ 254)
    (he : s.candidate ++ q = codeStream s b ++ rest) (hfit : s.olen.toNat + b.length ≤ s.obufSize.toNat) :
    ∃ t, feedBits q s = .ok t ∧ Fed s b rest t := by
  induction b generalizing q s with
  | nil =>
    simp only [codeStream, List.flatMap_nil, List.nil_append] at he
    obtain ⟨t, ht, h1, h2⟩ := feedBits_noMatch q (he ▸ hr) (he ▸ hl)
    refine ⟨t, ht, ?_, by rw [h1, he], fun a _ => by rw [h2]; rfl, by rw [h2]⟩
    rw [h2]
    simp [outBytes, State.obufAt]
  | cons y b ih =>
    rw [codeStream_cons, List.append_assoc] at he
    rw [List.length_cons] at hfit
    have hy := hb y (by simp)
    obtain ⟨p, hpne, rfl, hpe⟩ := split_at_codeword hy hc he
    obtain ⟨t, ht, hf⟩ := (feedBits_codeword p hp hy hpne hpe).1
      (fun h => by rw [h] at hfit; omega) (by omega)
    have ho := hf.olen
    have hz := hf.obufSize
    have hcand : t.candidate = [] := hf.cand
    obtain ⟨u, hu, hg⟩ := ih (q := codeStream s b ++ rest) (s := t) (hf.prefixFree hp)
      (by rw [hcand]; exact noMatchIn_nil t) (hf.covered.mpr fun z hz => hb z (by simp [hz])) (hf.noMatchIn.mpr hr)
      (by rw [hcand, hf.codeStream]; rfl) (by rw [hz, ho]; simp; omega)
    exact ⟨u, by rw [feedBits_append, ht]; exact hu, hf.trans hg⟩

/-- A symbol that does not fit raises `ERR_OBUF_FULL` (rules R39 and R203). -/
theorem feedBits_full (b : List Byte) {q rest : Bits} {y : Byte} {s : State} (hp : PrefixFree s)
    (hc : NoMatchIn s s.candidate) (hb : Covered s (b ++ [y]))
    (he : s.candidate ++ q = codeStream s (b ++ [y]) ++ rest)
    (hfull : s.olen.toNat + b.length = s.obufSize.toNat) : feedBits q s = .error .obufFull := by
  induction b generalizing q s with
  | nil =>
    rw [List.nil_append, codeStream_cons, List.append_assoc] at he
    have hy := hb y (by simp)
    obtain ⟨p, hpne, rfl, hpe⟩ := split_at_codeword hy hc he
    have := (feedBits_codeword p hp hy hpne hpe).2 (BitVec.eq_of_toNat_eq (by simpa using hfull))
    rw [feedBits_append, this]
    rfl
  | cons z b ih =>
    rw [List.cons_append, codeStream_cons, List.append_assoc] at he
    rw [List.length_cons] at hfull
    have hz := hb z (by simp)
    obtain ⟨p, hpne, rfl, hpe⟩ := split_at_codeword hz hc he
    obtain ⟨t, ht, hf⟩ := (feedBits_codeword p hp hz hpne hpe).1
      (fun h => by rw [h] at hfull; omega) (by omega)
    have ho := hf.olen
    have hsz := hf.obufSize
    have hcand : t.candidate = [] := hf.cand
    rw [feedBits_append, ht]
    exact ih (s := t) (hf.prefixFree hp) (by rw [hcand]; exact noMatchIn_nil t)
      (hf.covered.mpr fun w hw => hb w (by simp at hw ⊢; tauto))
      (by rw [hcand, hf.codeStream]; rfl) (by rw [hsz, ho]; simp; omega)

/-- A candidate that reaches 255 bits without a match raises `ERR_MALFORMED_STREAM` (rule R177). -/
theorem feedBits_malformed (q : Bits) {s : State} (hs : s.clen.toNat ≤ 254) (hn : NoMatchIn s (s.candidate ++ q))
    (hl : 255 ≤ (s.candidate ++ q).length) : feedBits q s = .error .malformedStream := by
  have hq : 255 ≤ s.clen.toNat + q.length := by simpa using hl
  obtain ⟨p, x, r, rfl, hp⟩ : ∃ p x r, q = p ++ x :: r ∧ s.clen.toNat + p.length = 254 := by
    refine ⟨q.take (254 - s.clen.toNat), q[254 - s.clen.toNat]'(by omega), q.drop (254 - s.clen.toNat + 1), ?_, ?_⟩
    · simp
    · simp; omega
  obtain ⟨t, ht, hc, hf⟩ := feedBits_noMatch p (hn.of_prefix ⟨x :: r, by simp⟩) (by simp; omega)
  have hm : matching (t.candidate ++ [x]) t = none := by
    refine matching_eq_none (by simp) ?_
    have : NoMatchIn s (t.candidate ++ [x]) := hn.of_prefix ⟨r, by simp [hc]⟩
    rw [hf]
    rw [hf] at this
    exact this
  have hlen : t.clen.toNat = 254 := by
    have := congrArg List.length hc
    simp at this
    omega
  rw [feedBits_append, ht]
  show (feedBit x t).bind (feedBits r) = _
  rcases feedBit_cases (x := x) (s := t) rfl with ⟨z, h, -⟩ | ⟨z, h, -⟩ | ⟨-, h, -⟩ | ⟨-, -, hr⟩
  · rw [hm] at h; cases h
  · rw [hm] at h; cases h
  · omega
  · rw [hr]; rfl

end Sys2Proof.Machine
end

