-- ==== Sys2Proof/Laws/Tree.lean ====
section
/-! SUPPORT. What `BLD` does (spec/41_tree_builder.md rules R113 to R115): the leaves it writes, the node that `least`
finds, and the invariant of the merge loop. -/

namespace Sys2Proof.Machine

/-! ### The leaves -/

/-- Nodes written into consecutive entries read back, and no other entry changes. -/
theorem nodeRead_writeNodes (es : List Node) (m : Vector Node 511) (n j : Nat) (h : n + es.length ≤ 511) :
    nodeRead (writeNodes m n es) j = if n ≤ j ∧ j < n + es.length then es[j - n]?.getD Node.blank else nodeRead m j := by
  induction es generalizing m n with
  | nil => simp [writeNodes]
  | cons e es ih =>
    simp only [List.length_cons] at h
    rw [writeNodes, ih _ _ (by omega)]
    by_cases hj : j = n
    · subst hj
      rw [if_neg (by omega), if_pos (by simp), nodeRead_nodeWrite_same _ (by omega)]
      simp
    · by_cases h1 : n + 1 ≤ j ∧ j < n + 1 + es.length
      · rw [if_pos h1, if_pos (by simp only [List.length_cons]; omega)]
        obtain ⟨d, rfl⟩ : ∃ d, j = n + 1 + d := ⟨j - (n + 1), by omega⟩
        rw [show n + 1 + d - (n + 1) = d by omega, show n + 1 + d - n = d + 1 by omega, List.getElem?_cons_succ]
      · rw [if_neg h1, if_neg (by simp only [List.length_cons]; omega), nodeRead_nodeWrite_of_ne _ hj]

theorem leafNodes_eq (s : State) : leafNodes s =
    s.present.map (fun t => { leaf := true, sym := t, w := s.freqOf t, left := Config.nil, right := Config.nil }) := rfl

theorem length_leafNodes (s : State) : (leafNodes s).length = s.present.length := by rw [leafNodes_eq, List.length_map]

theorem length_present_le (s : State) : s.present.length ≤ 256 := by
  have := List.length_filter_le (fun t => s.freqOf t ≠ 0#32) allSymbols
  rw [length_allSymbols] at this
  exact this

theorem mem_present {s : State} {t : Byte} : t ∈ s.present ↔ s.freqOf t ≠ 0#32 := by
  simp [State.present, mem_allSymbols]

/-- The symbols that occur are listed in ascending order. -/
theorem pairwise_present (s : State) : s.present.Pairwise (fun t u => t < u) := pairwise_allSymbols.filter _

/-! ### The least of a set of nodes -/

/-- The order of rule R114, said of a node memory. -/
def Before (m : Vector Node 511) (i j : Nat) : Prop :=
  (nodeRead m i).w < (nodeRead m j).w ∨ ((nodeRead m i).w = (nodeRead m j).w ∧ i < j)

theorem lesser_iff (m : Vector Node 511) (i j : Nat) : lesser m i j = true ↔ Before m i j := by
  simp [lesser, Before]

theorem Before.trans {m : Vector Node 511} {i j l : Nat} (h : Before m i j) (g : Before m j l) : Before m i l := by
  unfold Before at *
  simp only [BitVec.lt_def, ← BitVec.toNat_inj] at *
  omega

theorem Before.total (m : Vector Node 511) (i j : Nat) : i = j ∨ Before m i j ∨ Before m j i := by
  unfold Before
  simp only [BitVec.lt_def, ← BitVec.toNat_inj]
  omega

/-- `least` is in the set, and comes before every other node of it (rule R114). -/
theorem least_spec (m : Vector Node 511) (i : Nat) (rest : List Nat) :
    least m i rest ∈ i :: rest ∧ ∀ j ∈ i :: rest, j = least m i rest ∨ Before m (least m i rest) j := by
  induction rest generalizing i with
  | nil => simp [least]
  | cons a rest ih =>
    have hs : least m i (a :: rest) = least m (if lesser m a i then a else i) rest := rfl
    obtain ⟨h1, h2⟩ := ih (if lesser m a i then a else i)
    rw [hs]
    refine ⟨?_, ?_⟩
    · rcases List.mem_cons.mp h1 with h | h
      · rw [h]
        split <;> simp
      · simp [h]
    · intro j hj
      have hb := h2 (if lesser m a i then a else i) (by simp)
      have step : ∀ x, (x = if lesser m a i then a else i) ∨ Before m (if lesser m a i then a else i) x →
          x = least m (if lesser m a i then a else i) rest ∨ Before m (least m (if lesser m a i then a else i) rest) x := by
        intro x hx
        rcases hx with rfl | hx
        · exact hb
        · rcases hb with hb | hb
          · rw [← hb]
            exact .inr hx
          · exact .inr (hb.trans hx)
      rcases List.mem_cons.mp hj with rfl | hj
      · apply step
        by_cases hl : lesser m a j
        · rw [if_pos hl]
          exact .inr ((lesser_iff _ _ _).mp hl)
        · rw [if_neg hl]
          exact .inl rfl
      · rcases List.mem_cons.mp hj with rfl | hj
        · apply step
          by_cases hl : lesser m j i
          · rw [if_pos hl]
            exact .inl rfl
          · rw [if_neg hl]
            rcases Before.total m j i with h | h | h
            · exact .inl h
            · exact absurd ((lesser_iff _ _ _).mpr h) hl
            · exact .inr h
        · exact h2 j (by simp [hj])

/-! ### The merge loop -/

/-- Node `j` is active in a memory of `n` nodes over `k` leaves: it exists, and no merge has taken it. -/
def Active (m : Vector Node 511) (k n j : Nat) : Prop :=
  j < n ∧ ∀ i, k ≤ i → i < n → (nodeRead m i).left.toNat ≠ j ∧ (nodeRead m i).right.toNat ≠ j

/-- Node `i` was made over the two least nodes then active (rules R113 to R115). -/
structure Greedy (m : Vector Node 511) (k i : Nat) : Prop where
  leaf : (nodeRead m i).leaf = false
  sym : (nodeRead m i).sym = 0
  w : (nodeRead m i).w = (nodeRead m (nodeRead m i).left.toNat).w + (nodeRead m (nodeRead m i).right.toNat).w
  left : Active m k i (nodeRead m i).left.toNat
  right : Active m k i (nodeRead m i).right.toNat
  before : Before m (nodeRead m i).left.toNat (nodeRead m i).right.toNat
  least : ∀ j, Active m k i j → j ≠ (nodeRead m i).left.toNat → j ≠ (nodeRead m i).right.toNat →
    Before m (nodeRead m i).right.toNat j

/-- What holds before and after each round of the loop of `BLD`, over the leaves of the memory `m`. -/
structure Merging (m : Vector Node 511) (k : Nat) (g : Build) : Prop where
  k_le : k ≤ 256
  n_ge : k ≤ g.n
  count : g.active.length + g.n = 2 * k
  nodup : g.active.Nodup
  active : ∀ j, j ∈ g.active ↔ Active g.mem k g.n j
  leaves : ∀ j, j < k → nodeRead g.mem j = nodeRead m j
  above : ∀ j, g.n ≤ j → nodeRead g.mem j = nodeRead m j
  greedy : ∀ i, k ≤ i → i < g.n → Greedy g.mem k i

theorem Active.congr {m m' : Vector Node 511} {k n j : Nat} (h : ∀ i, i < n → nodeRead m' i = nodeRead m i) :
    Active m' k n j ↔ Active m k n j := by
  unfold Active
  refine and_congr_right fun _ => forall_congr' fun i => forall_congr' fun _ => forall_congr' fun hi => ?_
  rw [h i hi]

theorem Before.congr {m m' : Vector Node 511} {i j : Nat} (hi : nodeRead m' i = nodeRead m i)
    (hj : nodeRead m' j = nodeRead m j) : Before m' i j ↔ Before m i j := by unfold Before; rw [hi, hj]

/-- A node stays greedily made when entries from a later index on change. -/
theorem Greedy.congr {m m' : Vector Node 511} {k i : Nat} (h : ∀ j, j ≤ i → nodeRead m' j = nodeRead m j)
    (g : Greedy m k i) : Greedy m' k i := by
  have hi := h i (Nat.le_refl i)
  have hl := h _ (Nat.le_of_lt g.left.1)
  have hr := h _ (Nat.le_of_lt g.right.1)
  have ha : ∀ j, Active m' k i j ↔ Active m k i j := fun j => Active.congr fun x hx => h x (Nat.le_of_lt hx)
  constructor
  · rw [hi]; exact g.leaf
  · rw [hi]; exact g.sym
  · rw [hi, hl, hr]; exact g.w
  · rw [hi, ha]; exact g.left
  · rw [hi, ha]; exact g.right
  · rw [hi, Before.congr hl hr]; exact g.before
  · intro j hj h1 h2
    rw [ha] at hj
    rw [hi] at h1 h2 ⊢
    rw [Before.congr hr (h j (Nat.le_of_lt hj.1))]
    exact g.least j hj h1 h2

theorem nodeRead_parentNode (m : Vector Node 511) {n a b : Nat} (hn : n < 511) (ha : a < n) (hb : b < n) :
    nodeRead (nodeWrite m n (parentNode m a b)) n = parentNode m a b ∧
    (parentNode m a b).left.toNat = a ∧ (parentNode m a b).right.toNat = b := by
  refine ⟨nodeRead_nodeWrite_same _ hn _, ?_, ?_⟩ <;>
    simp only [parentNode, BitVec.toNat_ofNat] <;> omega

/-- One round of the loop keeps what holds of it. -/
theorem Merging.round {m : Vector Node 511} {k : Nat} {g : Build} (h : Merging m k g) {i i' : Nat} {rest rest' : List Nat}
    (h1 : g.active = i :: rest) (h2 : (i :: rest).erase (least g.mem i rest) = i' :: rest') :
    Merging m k { mem := nodeWrite g.mem g.n (parentNode g.mem (least g.mem i rest) (least g.mem i' rest')), n := g.n + 1,
                  active := (i' :: rest').erase (least g.mem i' rest') ++ [g.n] } := by
  obtain ⟨ha, hamin⟩ := least_spec g.mem i rest
  obtain ⟨hb, hbmin⟩ := least_spec g.mem i' rest'
  generalize least g.mem i rest = a at *
  generalize least g.mem i' rest' = b at *
  rw [← h1] at ha hamin h2
  have hnd := h.nodup
  have hbact : b ∈ g.active := List.mem_of_mem_erase (h2 ▸ hb)
  have hba : b ≠ a := by
    rw [← h2] at hb
    exact (hnd.mem_erase_iff.mp hb).1
  have hA := (h.active a).mp ha
  have hB := (h.active b).mp hbact
  have hlen : g.active.length = rest'.length + 2 := by
    have := List.length_erase_of_mem ha
    rw [h2, List.length_cons] at this
    have := List.length_pos_of_mem ha
    omega
  have hk := h.k_le
  have hc := h.count
  have hge := h.n_ge
  obtain ⟨hp, hpl, hpr⟩ := nodeRead_parentNode g.mem (n := g.n) (by omega) hA.1 hB.1
  generalize hm : nodeWrite g.mem g.n (parentNode g.mem a b) = m' at *
  have hother : ∀ j, j ≠ g.n → nodeRead m' j = nodeRead g.mem j := fun j hj => by
    rw [← hm, nodeRead_nodeWrite_of_ne _ hj]
  have hact : ∀ j, Active m' k g.n j ↔ Active g.mem k g.n j := fun j => Active.congr fun x hx => hother x (by omega)
  have hab : Before g.mem a b := by
    rcases hamin b hbact with h | h
    · exact absurd h hba
    · exact h
  refine ⟨hk, by show k ≤ g.n + 1; omega, ?_, ?_, ?_, ?_, ?_, ?_⟩
  · show ((i' :: rest').erase b ++ [g.n]).length + (g.n + 1) = 2 * k
    rw [List.length_append, List.length_erase_of_mem hb]
    simp only [List.length_cons, List.length_nil]
    omega
  · show ((i' :: rest').erase b ++ [g.n]).Nodup
    rw [← h2]
    refine List.nodup_append.mpr ⟨(hnd.erase _).erase _, List.nodup_singleton _, ?_⟩
    intro x hx y hy hxy
    obtain rfl := List.mem_singleton.mp hy
    have := ((h.active x).mp (List.mem_of_mem_erase (List.mem_of_mem_erase hx))).1
    omega
  · intro j
    show j ∈ (i' :: rest').erase b ++ [g.n] ↔ Active m' k (g.n + 1) j
    rw [← h2, List.mem_append, (hnd.erase a).mem_erase_iff, hnd.mem_erase_iff, List.mem_singleton, h.active j]
    constructor
    · rintro (⟨h3, h4, h5⟩ | rfl)
      · refine ⟨by have := h5.1; omega, fun x hx hxn => ?_⟩
        by_cases hxe : x = g.n
        · subst hxe
          rw [hp, hpl, hpr]
          exact ⟨fun e => h4 e.symm, fun e => h3 e.symm⟩
        · rw [hother x hxe]
          exact h5.2 x hx (by omega)
      · refine ⟨by omega, fun x hx hxn => ?_⟩
        by_cases hxe : x = g.n
        · subst hxe
          rw [hp, hpl, hpr]
          have := hA.1
          have := hB.1
          omega
        · rw [hother x hxe]
          have hg := h.greedy x hx (by omega)
          have := hg.left.1
          have := hg.right.1
          omega
    · rintro ⟨h3, h4⟩
      by_cases hj : j = g.n
      · exact .inr hj
      · have h5 := h4 g.n hge (by omega)
        rw [hp, hpl, hpr] at h5
        refine .inl ⟨fun e => h5.2 e.symm, fun e => h5.1 e.symm, by omega, fun x hx hxn => ?_⟩
        have := h4 x hx (by omega)
        rwa [hother x (by omega)] at this
  · intro j hj
    rw [hother j (by omega)]
    exact h.leaves j hj
  · intro j hj
    have hj : g.n + 1 ≤ j := hj
    rw [hother j (by omega)]
    exact h.above j (by omega)
  · intro x hx hxn
    have hxn : x < g.n + 1 := hxn
    show Greedy m' k x
    by_cases hxe : x = g.n
    · subst hxe
      have hra := hother a (by have := hA.1; omega)
      have hrb := hother b (by have := hB.1; omega)
      refine ⟨by rw [hp]; rfl, by rw [hp]; rfl, ?_, ?_, ?_, ?_, ?_⟩
      · rw [hp, hpl, hpr, hra, hrb]
        rfl
      · rw [hp, hpl, hact]
        exact hA
      · rw [hp, hpr, hact]
        exact hB
      · rw [hp, hpl, hpr, Before.congr hra hrb]
        exact hab
      · intro j hj h3 h4
        rw [hp, hpl] at h3
        rw [hp, hpr] at h4 ⊢
        rw [hact] at hj
        have hjm : j ∈ (i' :: rest') := by
          rw [← h2, hnd.mem_erase_iff]
          exact ⟨h3, (h.active j).mpr hj⟩
        rw [Before.congr hrb (hother j (by have := hj.1; omega))]
        rcases hbmin j hjm with h | h
        · exact absurd h h4
        · exact h
    · exact (h.greedy x hx (by omega)).congr fun j hj => hother j (by omega)

/-- The loop, given at least as many rounds as there are active nodes, ends with at most one active node. -/
theorem Merging.loop {m : Vector Node 511} {k : Nat} {g : Build} (h : Merging m k g) (rounds : Nat)
    (hr : g.active.length ≤ rounds) : Merging m k (mergeLoop rounds g) ∧ (mergeLoop rounds g).active.length ≤ 1 := by
  induction rounds generalizing g with
  | zero => exact ⟨h, by rw [mergeLoop]; omega⟩
  | succ r ih =>
    rw [mergeLoop]
    match hact : g.active with
    | [] => exact ⟨h, by simp [hact]⟩
    | [i] => exact ⟨h, by simp [hact]⟩
    | i :: j :: rest =>
      simp only
      match he : (i :: j :: rest).erase (least g.mem i (j :: rest)) with
      | [] =>
        have := List.length_erase_of_mem (least_spec g.mem i (j :: rest)).1
        rw [he] at this
        simp at this
      | i' :: rest' =>
        simp only
        refine ih (h.round hact he) ?_
        have h1 := List.length_erase_of_mem (least_spec g.mem i (j :: rest)).1
        have h2 := List.length_erase_of_mem (least_spec g.mem i' rest').1
        rw [he] at h1
        simp only [hact, List.length_cons, List.length_append, List.length_nil] at *
        omega

/-- The weights of the active nodes add up to `W`, and no sum so far has wrapped (rule R28). -/
structure Weighed (k W : Nat) (g : Build) : Prop where
  sum : (g.active.map (fun j => (nodeRead g.mem j).w.toNat)).sum = W
  exact : ∀ i, k ≤ i → i < g.n → (nodeRead g.mem i).w.toNat =
    (nodeRead g.mem (nodeRead g.mem i).left.toNat).w.toNat + (nodeRead g.mem (nodeRead g.mem i).right.toNat).w.toNat

/-- One round keeps the weights' sum. -/
theorem Weighed.round {m : Vector Node 511} {k W : Nat} {g : Build} (h : Merging m k g) (hw : Weighed k W g)
    (hW : W < 2 ^ 32) {i i' : Nat} {rest rest' : List Nat} (h1 : g.active = i :: rest)
    (h2 : (i :: rest).erase (least g.mem i rest) = i' :: rest') :
    Weighed k W { mem := nodeWrite g.mem g.n (parentNode g.mem (least g.mem i rest) (least g.mem i' rest')), n := g.n + 1,
                  active := (i' :: rest').erase (least g.mem i' rest') ++ [g.n] } := by
  have ha := (least_spec g.mem i rest).1
  have hb := (least_spec g.mem i' rest').1
  have hr := h.round h1 h2
  generalize least g.mem i rest = a at *
  generalize least g.mem i' rest' = b at *
  rw [← h1] at ha h2
  have hbact : b ∈ g.active := List.mem_of_mem_erase (h2 ▸ hb)
  have hA := (h.active a).mp ha
  have hB := (h.active b).mp hbact
  have hlen : 2 ≤ g.active.length := by
    have := List.length_erase_of_mem ha
    rw [h2, List.length_cons] at this
    have := List.length_pos_of_mem ha
    omega
  have hk := h.k_le
  have hc := h.count
  obtain ⟨hp, hpl, hpr⟩ := nodeRead_parentNode g.mem (n := g.n) (by omega) hA.1 hB.1
  have hother : ∀ j, j ≠ g.n → nodeRead (nodeWrite g.mem g.n (parentNode g.mem a b)) j = nodeRead g.mem j :=
    fun j hj => nodeRead_nodeWrite_of_ne _ hj _
  have hsum := hw.sum
  have hperm : g.active.Perm (a :: b :: (i' :: rest').erase b) := by
    refine (List.perm_cons_erase ha).trans (.cons _ ?_)
    rw [h2]
    exact List.perm_cons_erase hb
  rw [(hperm.map _).sum_eq, List.map_cons, List.map_cons, List.sum_cons, List.sum_cons] at hsum
  have hpw : (parentNode g.mem a b).w.toNat = (nodeRead g.mem a).w.toNat + (nodeRead g.mem b).w.toNat := by
    simp only [parentNode, BitVec.toNat_add]
    omega
  constructor
  · show (((i' :: rest').erase b ++ [g.n]).map (fun j =>
      (nodeRead (nodeWrite g.mem g.n (parentNode g.mem a b)) j).w.toNat)).sum = W
    have hrest : ((i' :: rest').erase b).map (fun j =>
        (nodeRead (nodeWrite g.mem g.n (parentNode g.mem a b)) j).w.toNat) =
        ((i' :: rest').erase b).map (fun j => (nodeRead g.mem j).w.toNat) := by
      refine List.map_congr_left fun j hj => ?_
      have hja : j ∈ g.active := List.mem_of_mem_erase (h2 ▸ List.mem_of_mem_erase hj)
      rw [hother j (by have := ((h.active j).mp hja).1; omega)]
    rw [List.map_append, List.sum_append, hrest, List.map_singleton, List.sum_singleton, hp, hpw]
    omega
  · intro x hx hxn
    have hxn : x < g.n + 1 := hxn
    show (nodeRead (nodeWrite g.mem g.n (parentNode g.mem a b)) x).w.toNat = _
    by_cases hxe : x = g.n
    · subst hxe
      simp only [hp, hpl, hpr, hpw]
      rw [hother a (by have := hA.1; omega), hother b (by have := hB.1; omega)]
    · have hg := h.greedy x hx (by omega)
      simp only [hother x hxe]
      rw [hother _ (by have := hg.left.1; omega), hother _ (by have := hg.right.1; omega)]
      exact hw.exact x hx (by omega)

/-- The whole loop keeps the weights' sum. -/
theorem Weighed.loop {m : Vector Node 511} {k W : Nat} {g : Build} (h : Merging m k g) (hw : Weighed k W g)
    (hW : W < 2 ^ 32) (rounds : Nat) : Weighed k W (mergeLoop rounds g) := by
  induction rounds generalizing g with
  | zero => exact hw
  | succ r ih =>
    rw [mergeLoop]
    match hact : g.active with
    | [] => exact hw
    | [i] => exact hw
    | i :: j :: rest =>
      simp only
      match he : (i :: j :: rest).erase (least g.mem i (j :: rest)) with
      | [] => exact hw
      | i' :: rest' => exact ih (h.round hact he) (hw.round h hW hact he)

/-- A leaf written by `BLD`. -/
theorem nodeRead_leaves (s : State) {i : Nat} (hi : i < s.present.length) :
    nodeRead (writeNodes s.node 0 (leafNodes s)) i =
      { leaf := true, sym := s.present[i], w := s.freqOf s.present[i], left := Config.nil, right := Config.nil } := by
  rw [nodeRead_writeNodes _ _ _ _ (by rw [length_leafNodes]; have := length_present_le s; omega),
    if_pos (by rw [length_leafNodes]; omega), leafNodes_eq, Nat.sub_zero, List.getElem?_map,
    List.getElem?_eq_getElem hi]
  rfl

theorem nodeRead_above_leaves (s : State) {i : Nat} (hi : s.present.length ≤ i) :
    nodeRead (writeNodes s.node 0 (leafNodes s)) i = nodeRead s.node i := by
  rw [nodeRead_writeNodes _ _ _ _ (by rw [length_leafNodes]; have := length_present_le s; omega),
    if_neg (by rw [length_leafNodes]; omega)]

/-- The counts of the symbols that occur add up to all counts. -/
theorem sum_present (s : State) : (s.present.map (fun t => (s.freqOf t).toNat)).sum =
    (allSymbols.map (fun t => (s.freqOf t).toNat)).sum := by
  unfold State.present
  induction allSymbols with
  | nil => rfl
  | cons t l ih =>
    by_cases h : s.freqOf t = 0#32
    · simpa [h] using ih
    · simpa [h] using ih

/-- What `BLD` builds: the loop's invariant over the memory with the leaves written, and at most one active node. -/
theorem buildTree_merging (s : State) :
    Merging (writeNodes s.node 0 (leafNodes s)) s.present.length (buildTree s) ∧ (buildTree s).active.length ≤ 1 ∧
      (TotalIsSum s → Weighed s.present.length s.total.toNat (buildTree s)) := by
  unfold buildTree
  rw [length_leafNodes]
  have h : Merging (writeNodes s.node 0 (leafNodes s)) s.present.length
      { mem := writeNodes s.node 0 (leafNodes s), n := s.present.length, active := List.range s.present.length } := by
    refine ⟨length_present_le s, Nat.le_refl _, ?_, List.nodup_range, ?_, fun _ _ => rfl, fun _ _ => rfl,
      fun i h1 h2 => absurd h1 (Nat.not_le.mpr h2)⟩
    · simp only [List.length_range, Nat.two_mul]
    · intro j
      rw [List.mem_range]
      exact ⟨fun h => ⟨h, fun i h1 h2 => absurd h1 (Nat.not_le.mpr h2)⟩, fun h => h.1⟩
  obtain ⟨h1, h2⟩ := h.loop s.present.length (by rw [List.length_range])
  refine ⟨h1, h2, fun hs => ?_⟩
  refine Weighed.loop h ⟨?_, fun i h1 h2 => absurd h1 (Nat.not_le.mpr h2)⟩ s.total.isLt _
  rw [← hs, ← sum_present]
  refine congrArg List.sum (List.ext_getElem (by simp) fun i h1 h2 => ?_)
  simp only [List.length_map] at h2
  simp only [List.getElem_map, List.getElem_range]
  rw [nodeRead_leaves s h2]

/-- The registers that `BLD` writes (rule R113): how many leaves and nodes there are, and the root, which is the one active
node that is left. -/
structure BuildCounts (s : State) : Prop where
  k_eq : (buildWrites s).k = s.present.length
  nnodes_eq : (buildWrites s).nnodes.toNat = if s.present.length = 0 then 0 else 2 * s.present.length - 1
  made : (buildTree s).n = (buildWrites s).nnodes.toNat
  root_nil : s.present.length = 0 → (buildWrites s).root = Config.nil
  root_last : 0 < s.present.length → (buildWrites s).root.toNat + 1 = (buildWrites s).nnodes.toNat
  active : 0 < s.present.length → (buildTree s).active = [(buildWrites s).root.toNat]

theorem buildCounts (s : State) : BuildCounts s := by
  obtain ⟨h, hle, -⟩ := buildTree_merging s
  have hp := length_present_le s
  have hc := h.count
  have hn := h.n_ge
  have hlast : 0 < s.present.length → (buildTree s).n - 1 ∈ (buildTree s).active := fun h0 => by
    rw [h.active]
    refine ⟨by omega, fun i hi hin => ?_⟩
    have := (h.greedy i hi hin).left.1
    have := (h.greedy i hi hin).right.1
    omega
  have hone : 0 < s.present.length → (buildTree s).active = [(buildTree s).n - 1] := fun h0 => by
    have hm := hlast h0
    have := List.length_pos_of_mem hm
    obtain ⟨r, hr⟩ := List.length_eq_one_iff.mp (by omega : (buildTree s).active.length = 1)
    rw [hr, List.mem_singleton] at hm
    rw [hr, hm]
  have hn2 : (buildTree s).n = if s.present.length = 0 then 0 else 2 * s.present.length - 1 := by
    split
    · omega
    · rw [hone (by omega), List.length_singleton] at hc
      omega
  have hnn : (buildWrites s).nnodes.toNat = (buildTree s).n := by
    show (BitVec.ofNat 9 _).toNat = _
    rw [BitVec.toNat_ofNat, hn2]
    split <;> omega
  have hroot : 0 < s.present.length → (buildWrites s).root.toNat = (buildTree s).n - 1 := fun h0 => by
    show (rootOf _).toNat = _
    rw [hone h0]
    simp only [rootOf, BitVec.toNat_ofNat]
    rw [if_neg (by omega)] at hn2
    omega
  refine ⟨?_, by rw [hnn, hn2], hnn.symm, fun h0 => ?_, fun h0 => ?_, fun h0 => ?_⟩
  · show (BitVec.ofNat 9 _).toNat = _
    rw [length_leafNodes, BitVec.toNat_ofNat]
    omega
  · show rootOf _ = _
    rw [List.eq_nil_of_length_eq_zero (by omega : (buildTree s).active.length = 0)]
    rfl
  · rw [hroot h0, hnn]
    omega
  · rw [hroot h0, hone h0]

end Sys2Proof.Machine
end

