-- ==== Sys2Proof/Laws/Paths.lean ====
section
/-! SUPPORT. Paths in a tree that meets rule R30 and the codes that `GEN` records (spec/42_code_table.md rules R130 to
R133): a path leads to one node, one path leads to a node, `visit` lists the leaves with their paths. -/

namespace Sys2Proof.Machine

/-! ### Paths -/

@[simp] theorem walk_nil_index (s : State) (q : Bits) : walk s Config.nil q = none := by cases q <;> simp [walk]

/-- A path in two parts. -/
theorem walk_append (s : State) (i : NodeIdx) (p q : Bits) :
    walk s i (p ++ q) = (walk s i p).bind (fun j => walk s j q) := by
  induction p generalizing i with
  | nil =>
    by_cases h : i = Config.nil
    · subst h
      simp
    · simp [walk, h]
  | cons x p ih =>
    rw [List.cons_append, walk, walk]
    split
    · rfl
    · split
      · rfl
      · exact ih _

/-- No path leads on from a leaf. -/
theorem walk_of_leaf {s : State} {i j : NodeIdx} {q : Bits} (h : (s.nodeAt i.toNat).leaf = true)
    (hw : walk s i q = some j) : q = [] := by
  cases q with
  | nil => rfl
  | cons x q => simp [walk, h] at hw

section tree
variable {s : State}

/-- The index of a valid node is not `NIL`. -/
theorem ne_nil_of_lt {i : NodeIdx} (h : i.toNat < s.nnodes.toNat) : i ≠ Config.nil := by
  rintro rfl
  have := s.nnodes.isLt
  simp at h
  omega

/-- A valid node is a leaf exactly when its index is below the number of leaves (rule R30). -/
theorem TreeInv.leaf_iff (h : TreeInv s) {i : Nat} (hi : i < s.nnodes.toNat) : (s.nodeAt i).leaf = true ↔ i < s.k := by
  constructor
  · intro hl
    by_contra hk
    rw [(h.internal i (by omega) hi).1] at hl
    exact Bool.false_ne_true hl
  · exact fun hk => (h.leaves i hk).1

/-- The child of a node along an edge. -/
def child (s : State) (i : NodeIdx) (x : Bool) : NodeIdx :=
  if x then (s.nodeAt i.toNat).right else (s.nodeAt i.toNat).left

/-- The two edges of an internal node lead to different nodes. -/
theorem child_injective {i : NodeIdx} (hne : (s.nodeAt i.toNat).left ≠ (s.nodeAt i.toNat).right) {x y : Bool}
    (h : child s i x = child s i y) : x = y := by
  cases x <;> cases y
  · rfl
  · exact absurd h hne
  · exact absurd h.symm hne
  · rfl

theorem TreeInv.child_lt (h : TreeInv s) {i : NodeIdx} (hi : i.toNat < s.nnodes.toNat)
    (hl : (s.nodeAt i.toNat).leaf = false) (x : Bool) : (child s i x).toNat < i.toNat := by
  have hk : s.k ≤ i.toNat := by
    by_contra hk
    rw [(h.leaf_iff hi).mpr (by omega)] at hl
    exact Bool.false_ne_true hl.symm
  have := h.internal i.toNat hk hi
  cases x
  · exact this.2.2.1
  · exact this.2.2.2.1

theorem walk_cons {i : NodeIdx} (hi : i.toNat < s.nnodes.toNat) (hl : (s.nodeAt i.toNat).leaf = false) (x : Bool)
    (q : Bits) : walk s i (x :: q) = walk s (child s i x) q := by
  simp [walk, ne_nil_of_lt hi, hl, child]

theorem walk_nil {i : NodeIdx} (hi : i.toNat < s.nnodes.toNat) : walk s i [] = some i := by
  simp [walk, ne_nil_of_lt hi]

/-- A path from a valid node ends in a valid node, which is not above it. -/
theorem TreeInv.walk_le (h : TreeInv s) {i j : NodeIdx} {q : Bits} (hi : i.toNat < s.nnodes.toNat)
    (hw : walk s i q = some j) : j.toNat ≤ i.toNat := by
  induction q generalizing i with
  | nil =>
    rw [walk_nil hi] at hw
    cases hw
    exact Nat.le_refl _
  | cons x q ih =>
    cases hl : (s.nodeAt i.toNat).leaf with
    | true => exact absurd (walk_of_leaf hl hw) (by simp)
    | false =>
      rw [walk_cons hi hl] at hw
      have hc := h.child_lt hi hl x
      exact Nat.le_of_lt (Nat.lt_of_le_of_lt (ih (by omega) hw) hc)

theorem TreeInv.root_lt (h : TreeInv s) (hk : 0 < s.k) : s.root.toNat < s.nnodes.toNat := by
  have := h.root_last hk
  omega

theorem TreeInv.walk_root_lt (h : TreeInv s) (hk : 0 < s.k) {j : NodeIdx} {q : Bits}
    (hw : walk s s.root q = some j) : j.toNat < s.nnodes.toNat :=
  Nat.lt_of_le_of_lt (h.walk_le (h.root_lt hk) hw) (h.root_lt hk)

/-- The last edge of a path: the node it leaves is internal and the node it leads to is its child. -/
theorem TreeInv.walk_concat (h : TreeInv s) (hk : 0 < s.k) {j : NodeIdx} {q : Bits} {x : Bool}
    (hw : walk s s.root (q ++ [x]) = some j) :
    ∃ i, walk s s.root q = some i ∧ i.toNat < s.nnodes.toNat ∧ (s.nodeAt i.toNat).leaf = false ∧ child s i x = j := by
  rw [walk_append] at hw
  obtain ⟨i, hi, hw⟩ := Option.bind_eq_some_iff.mp hw
  have hlt := h.walk_root_lt hk hi
  cases hl : (s.nodeAt i.toNat).leaf with
  | true => exact absurd (walk_of_leaf hl hw) (by simp)
  | false =>
    rw [walk_cons hlt hl, walk_nil (Nat.lt_trans (h.child_lt hlt hl x) hlt)] at hw
    exact ⟨i, hi, hlt, hl, Option.some_inj.mp hw⟩

theorem TreeInv.internal_of (h : TreeInv s) {i : NodeIdx} (hi : i.toNat < s.nnodes.toNat)
    (hl : (s.nodeAt i.toNat).leaf = false) : s.k ≤ i.toNat := by
  by_contra hk
  rw [(h.leaf_iff hi).mpr (by omega)] at hl
  exact Bool.false_ne_true hl.symm

/-- Only one path leads to a node (rule R30: "every entry except `ROOT` is the child of exactly one entry"). -/
theorem TreeInv.walk_unique (h : TreeInv s) (hk : 0 < s.k) {j : NodeIdx} {p q : Bits}
    (hp : walk s s.root p = some j) (hq : walk s s.root q = some j) : p = q := by
  have hroot := h.root_last hk
  have below : ∀ {q : Bits} {x : Bool} {j : NodeIdx}, walk s s.root (q ++ [x]) = some j → j.toNat < s.root.toNat := by
    intro q x j hw
    obtain ⟨i, hi, hlt, hl, rfl⟩ := h.walk_concat hk hw
    have := h.child_lt hlt hl x
    have := h.walk_le (h.root_lt hk) hi
    omega
  induction p using List.reverseRecOn generalizing j q with
  | nil =>
    rw [walk_nil (h.root_lt hk)] at hp
    cases hp
    rcases List.eq_nil_or_concat q with rfl | ⟨q, x, rfl⟩
    · rfl
    · have := below (by simpa using hq)
      omega
  | append_singleton p x ih =>
    rcases List.eq_nil_or_concat q with rfl | ⟨q, y, rfl⟩
    · rw [walk_nil (h.root_lt hk)] at hq
      cases hq
      have := below hp
      omega
    · rw [List.concat_eq_append] at hq ⊢
      obtain ⟨i, hi, hil, hin, hic⟩ := h.walk_concat hk hp
      obtain ⟨i', hi', hil', hin', hic'⟩ := h.walk_concat hk hq
      have hj := below hp
      obtain ⟨u, -, huniq⟩ := h.one_parent j.toNat (by omega) (by omega)
      have e1 : i.toNat = u := huniq _ ⟨h.internal_of hil hin, hil, by rw [← hic]; cases x <;> simp [child]⟩
      have e2 : i'.toNat = u := huniq _ ⟨h.internal_of hil' hin', hil', by rw [← hic']; cases y <;> simp [child]⟩
      obtain rfl : i = i' := BitVec.eq_of_toNat_eq (by omega)
      have hne := (h.internal i.toNat (h.internal_of hil hin) hil).2.2.2.2.1
      rw [ih hi hi', child_injective hne (hic.trans hic'.symm)]

/-- A path leads to every node. -/
theorem TreeInv.walk_exists (h : TreeInv s) (hk : 0 < s.k) (j : NodeIdx) (hj : j.toNat < s.nnodes.toNat) :
    ∃ q, walk s s.root q = some j := by
  have hroot := h.root_last hk
  induction hd : s.nnodes.toNat - j.toNat using Nat.strong_induction_on generalizing j with
  | _ d ih =>
    by_cases hr : j.toNat = s.root.toNat
    · obtain rfl := BitVec.eq_of_toNat_eq hr
      exact ⟨[], walk_nil hj⟩
    · obtain ⟨u, ⟨hu, hun, huj⟩, -⟩ := h.one_parent j.toNat hj hr
      have hnn := s.nnodes.isLt
      have hui : (BitVec.ofNat 9 u).toNat = u := by
        rw [BitVec.toNat_ofNat]
        omega
      have hint := h.internal u hu hun
      have hlt : j.toNat < u := by
        rcases huj with e | e <;> omega
      obtain ⟨q, hq⟩ := ih (s.nnodes.toNat - u) (by omega) (BitVec.ofNat 9 u) (by rw [hui]; exact hun) (by rw [hui])
      refine ⟨q ++ [decide ((s.nodeAt u).right.toNat = j.toNat)], ?_⟩
      rw [walk_append, hq, Option.bind_some, walk_cons (by rw [hui]; exact hun) (by rw [hui]; exact hint.1)]
      have hc : child s (BitVec.ofNat 9 u) (decide ((s.nodeAt u).right.toNat = j.toNat)) = j := by
        unfold child
        rw [hui]
        by_cases e : (s.nodeAt u).right.toNat = j.toNat
        · simp only [e, decide_true, if_true]
          exact BitVec.eq_of_toNat_eq e
        · simp only [e, decide_false, Bool.false_eq_true, if_false]
          exact BitVec.eq_of_toNat_eq (huj.resolve_right e)
      rw [hc, walk_nil hj]

/-- Along every infinite bit sequence there is a leaf (rule R133: "every internal node has both children"). -/
theorem TreeInv.leaf_along (h : TreeInv s) (hk : 0 < s.k) (f : Nat → Bool) :
    ∃ n j, walk s s.root ((List.range n).map f) = some j ∧ (s.nodeAt j.toNat).leaf = true := by
  have : ∀ (d : Nat) (n : Nat) (i : NodeIdx), i.toNat = d → walk s s.root ((List.range n).map f) = some i →
      ∃ n j, walk s s.root ((List.range n).map f) = some j ∧ (s.nodeAt j.toNat).leaf = true := by
    intro d
    induction d using Nat.strong_induction_on with
    | _ d ih =>
      intro n i hd hw
      cases hl : (s.nodeAt i.toNat).leaf with
      | true => exact ⟨n, i, hw, hl⟩
      | false =>
        have hlt := h.walk_root_lt hk hw
        have hc := h.child_lt hlt hl (f n)
        refine ih _ (by omega) (n + 1) (child s i (f n)) rfl ?_
        rw [List.range_succ, List.map_append, walk_append, hw, Option.bind_some, List.map_singleton, walk_cons hlt hl,
          walk_nil (by omega)]
  exact this _ 0 s.root rfl (walk_nil (h.root_lt hk))

/-- Two leaves with one symbol are one leaf. -/
theorem TreeInv.leaf_unique (h : TreeInv s) {i j : NodeIdx} (hi : i.toNat < s.k) (hj : j.toNat < s.k)
    (he : (s.nodeAt i.toNat).sym = (s.nodeAt j.toNat).sym) : i = j := by
  apply BitVec.eq_of_toNat_eq
  by_contra hne
  rcases Nat.lt_or_gt_of_ne hne with hlt | hlt
  · have := h.ascending _ _ hlt hj
    rw [he, BitVec.lt_def] at this
    omega
  · have := h.ascending _ _ hlt hi
    rw [he, BitVec.lt_def] at this
    omega

/-! ### What `visit` lists -/

/-- A leaf at the end of a path, and its symbol. -/
def PathTo (s : State) (q : Bits) (x : Byte) : Prop :=
  ∃ j, walk s s.root q = some j ∧ (s.nodeAt j.toNat).leaf = true ∧ (s.nodeAt j.toNat).sym = x

theorem TreeInv.pathTo_unique (h : TreeInv s) (hk : 0 < s.k) {p q : Bits} {x : Byte} (hp : PathTo s p x)
    (hq : PathTo s q x) : p = q := by
  obtain ⟨i, hi, hil, hix⟩ := hp
  obtain ⟨j, hj, hjl, hjx⟩ := hq
  have hi' := (h.leaf_iff (h.walk_root_lt hk hi)).mp hil
  have hj' := (h.leaf_iff (h.walk_root_lt hk hj)).mp hjl
  obtain rfl := h.leaf_unique hi' hj' (hix.trans hjx.symm)
  exact h.walk_unique hk hi hj

/-- One symbol's path is no prefix of another's. -/
theorem PathTo.not_prefix {p q : Bits} {x y : Byte} (hp : PathTo s p x) (hq : PathTo s q y) (hpre : p <+: q) :
    p = q := by
  obtain ⟨i, hi, hil, -⟩ := hp
  obtain ⟨j, hj, -, -⟩ := hq
  obtain ⟨r, rfl⟩ := hpre
  rw [walk_append, hi, Option.bind_some] at hj
  rw [walk_of_leaf hil hj, List.append_nil]

/-- What a listing of the leaves below the end of `path` holds: each leaf once, with its path from the root. -/
structure Listing (s : State) (path : Bits) (l : List (Byte × Bits)) : Prop where
  mem : ∀ x q, (x, q) ∈ l ↔ path <+: q ∧ PathTo s q x
  nodup : (l.map Prod.fst).Nodup
  depth : ∀ c ∈ l, c.2.length + 1 ≤ path.length + l.length

theorem Listing.of_leaf {i : NodeIdx} {path : Bits} (hw : walk s s.root path = some i)
    (hl : (s.nodeAt i.toNat).leaf = true) : Listing s path [((s.nodeAt i.toNat).sym, path)] := by
  refine ⟨fun x q => ?_, by simp, by simp⟩
  simp only [List.mem_singleton, Prod.mk.injEq]
  constructor
  · rintro ⟨rfl, rfl⟩
    exact ⟨List.prefix_refl _, i, hw, hl, rfl⟩
  · rintro ⟨hpre, hq⟩
    have hp : PathTo s path (s.nodeAt i.toNat).sym := ⟨i, hw, hl, rfl⟩
    obtain rfl := hp.not_prefix hq hpre
    obtain ⟨j, hj, -, rfl⟩ := hq
    rw [hw] at hj
    cases hj
    exact ⟨rfl, rfl⟩

/-- The listings below the two children of an internal node make the listing below the node. -/
theorem Listing.append (h : TreeInv s) (hk : 0 < s.k) {i : NodeIdx} {path : Bits} {l1 l2 : List (Byte × Bits)}
    (hw : walk s s.root path = some i) (hl : (s.nodeAt i.toNat).leaf = false) (h1 : Listing s (path ++ [false]) l1)
    (h2 : Listing s (path ++ [true]) l2) (n1 : l1 ≠ []) (n2 : l2 ≠ []) : Listing s path (l1 ++ l2) := by
  have p1 := List.length_pos_iff.mpr n1
  have p2 := List.length_pos_iff.mpr n2
  refine ⟨fun x q => ?_, ?_, ?_⟩
  · rw [List.mem_append, h1.mem, h2.mem]
    constructor
    · rintro (⟨hp, hq⟩ | ⟨hp, hq⟩) <;> exact ⟨(List.prefix_append _ _).trans hp, hq⟩
    · rintro ⟨⟨r, rfl⟩, hq⟩
      cases r with
      | nil =>
        obtain ⟨j, hj, hjl, -⟩ := hq
        rw [List.append_nil, hw] at hj
        cases hj
        rw [hl] at hjl
        exact absurd hjl Bool.false_ne_true
      | cons b r =>
        have hp : path ++ [b] <+: path ++ b :: r := ⟨r, by simp⟩
        cases b
        · exact .inl ⟨hp, hq⟩
        · exact .inr ⟨hp, hq⟩
  · rw [List.map_append]
    refine List.nodup_append.mpr ⟨h1.nodup, h2.nodup, ?_⟩
    intro x hx y hy hxy
    subst hxy
    obtain ⟨⟨x1, q1⟩, hm1, e1⟩ := List.mem_map.mp hx
    obtain ⟨⟨x2, q2⟩, hm2, e2⟩ := List.mem_map.mp hy
    simp only at e1 e2
    subst e1
    subst e2
    obtain ⟨hp1, hq1⟩ := (h1.mem _ _).mp hm1
    obtain ⟨hp2, hq2⟩ := (h2.mem _ _).mp hm2
    obtain rfl := h.pathTo_unique hk hq1 hq2
    obtain ⟨r1, e1⟩ := hp1
    obtain ⟨r2, e2⟩ := hp2
    have := e1.trans e2.symm
    simp at this
  · intro c hc
    rw [List.length_append]
    rcases List.mem_append.mp hc with hc | hc
    · have := h1.depth c hc
      rw [List.length_append, List.length_singleton] at this
      omega
    · have := h2.depth c hc
      rw [List.length_append, List.length_singleton] at this
      omega

/-- `visit` lists the leaves below a node, each once, with the paths that lead to them from the root. -/
theorem TreeInv.visit_listing (h : TreeInv s) (hk : 0 < s.k) (fuel : Nat) {i : NodeIdx} {path : Bits}
    {l : List (Byte × Bits)} (hw : walk s s.root path = some i) (hv : visit s.node fuel i path = some l) :
    Listing s path l ∧ l ≠ [] := by
  have hi := h.walk_root_lt hk hw
  induction fuel generalizing i path l with
  | zero =>
    unfold visit at hv
    rw [if_neg (ne_nil_of_lt hi)] at hv
    split at hv
    · obtain rfl := Option.some_inj.mp hv
      exact ⟨Listing.of_leaf hw ‹_›, by simp⟩
    · cases hv
  | succ fuel ih =>
    unfold visit at hv
    rw [if_neg (ne_nil_of_lt hi)] at hv
    split at hv
    · obtain rfl := Option.some_inj.mp hv
      exact ⟨Listing.of_leaf hw ‹_›, by simp⟩
    · rename_i hl
      have hl : (s.nodeAt i.toNat).leaf = false := by simpa [State.nodeAt] using hl
      simp only at hv
      have hchild : ∀ x, walk s s.root (path ++ [x]) = some (child s i x) := fun x => by
        rw [walk_append, hw, Option.bind_some, walk_cons hi hl, walk_nil (Nat.lt_trans (h.child_lt hi hl x) hi)]
      split at hv
      · rename_i l1 l2 h1 h2
        obtain rfl := Option.some_inj.mp hv
        obtain ⟨m1, n1⟩ := ih (hchild false) h1 (h.walk_root_lt hk (hchild false))
        obtain ⟨m2, n2⟩ := ih (hchild true) h2 (h.walk_root_lt hk (hchild true))
        exact ⟨Listing.append h hk hw hl m1 m2 n1 n2, by simp [n1]⟩
      · cases hv

/-- With as much fuel as the node's index, `visit` comes to an end. -/
theorem TreeInv.visit_some (h : TreeInv s) (fuel : Nat) {i : NodeIdx} (path : Bits) (hi : i.toNat < s.nnodes.toNat)
    (hf : i.toNat ≤ fuel) : ∃ l, visit s.node fuel i path = some l := by
  induction fuel generalizing i path with
  | zero =>
    unfold visit
    rw [if_neg (ne_nil_of_lt hi)]
    split
    · exact ⟨_, rfl⟩
    · rename_i hl
      have hl : (s.nodeAt i.toNat).leaf = false := by simpa [State.nodeAt] using hl
      have := h.child_lt hi hl false
      omega
  | succ fuel ih =>
    unfold visit
    rw [if_neg (ne_nil_of_lt hi)]
    split
    · exact ⟨_, rfl⟩
    · rename_i hl
      have hl : (s.nodeAt i.toNat).leaf = false := by simpa [State.nodeAt] using hl
      have c0 := h.child_lt hi hl false
      have c1 := h.child_lt hi hl true
      obtain ⟨l1, h1⟩ := ih (i := child s i false) (path ++ [false]) (by omega) (by omega)
      obtain ⟨l2, h2⟩ := ih (i := child s i true) (path ++ [true]) (by omega) (by omega)
      simp only [child, Bool.false_eq_true, if_false, if_true, State.nodeAt] at h1 h2
      exact ⟨l1 ++ l2, by simp only [h1, h2]⟩

/-- The fuel that a traversal needs is the number of leaves it lists, less one. -/
theorem visit_fuel {m : Vector Node 511} {fuel : Nat} {i : NodeIdx} {path : Bits} {l : List (Byte × Bits)}
    (hv : visit m fuel i path = some l) :
    0 < l.length ∧ ∀ f, l.length ≤ f + 1 → visit m f i path = some l := by
  induction fuel generalizing i path l with
  | zero =>
    unfold visit at hv
    split at hv
    · cases hv
    · split at hv
      · obtain rfl := Option.some_inj.mp hv
        refine ⟨by simp, fun f _ => ?_⟩
        unfold visit
        simp [*]
      · cases hv
  | succ fuel ih =>
    unfold visit at hv
    split at hv
    · cases hv
    · rename_i hn
      split at hv
      · obtain rfl := Option.some_inj.mp hv
        refine ⟨by simp, fun f _ => ?_⟩
        unfold visit
        simp [*]
      · rename_i hl
        simp only at hv
        split at hv
        · rename_i l1 l2 h1 h2
          obtain rfl := Option.some_inj.mp hv
          obtain ⟨p1, g1⟩ := ih h1
          obtain ⟨p2, g2⟩ := ih h2
          refine ⟨by rw [List.length_append]; omega, fun f hf => ?_⟩
          rw [List.length_append] at hf
          obtain ⟨f, rfl⟩ : ∃ f', f = f' + 1 := ⟨f - 1, by omega⟩
          unfold visit
          simp only [hn, hl, if_false, g1 f (by omega), g2 f (by omega)]
          simp
        · cases hv

/-- The symbols listed are those of leaves, so there are at most as many as leaves. -/
theorem TreeInv.length_listing_le (h : TreeInv s) (hk : 0 < s.k) {path : Bits} {l : List (Byte × Bits)}
    (hl : Listing s path l) : l.length ≤ s.k := by
  have hsub : l.map Prod.fst ⊆ (List.range s.k).map (fun i => (s.nodeAt i).sym) := by
    intro x hx
    obtain ⟨⟨x, q⟩, hm, rfl⟩ := List.mem_map.mp hx
    obtain ⟨j, hj, hjl, rfl⟩ := ((hl.mem _ _).mp hm).2
    exact List.mem_map.mpr ⟨j.toNat, List.mem_range.mpr ((h.leaf_iff (h.walk_root_lt hk hj)).mp hjl), rfl⟩
  have := (hl.nodup.subperm hsub).length_le
  simpa using this

/-- A symbol has a path exactly when it occurs (rule R133 a). -/
theorem TreeInv.pathTo_iff (h : TreeInv s) (hk : 0 < s.k) (x : Byte) : (∃ q, PathTo s q x) ↔ s.freqOf x ≠ 0#32 := by
  have hnn := h.nnodes_eq
  rw [if_neg (by omega)] at hnn
  constructor
  · rintro ⟨q, j, hj, hjl, rfl⟩
    have := (h.leaf_iff (h.walk_root_lt hk hj)).mp hjl
    have hw := h.leaves _ this
    rw [← hw.2.2.2.1]
    exact hw.2.2.2.2
  · intro hx
    obtain ⟨i, hi, rfl⟩ := h.leaf_of_present x hx
    have hlt := s.nnodes.isLt
    have hi9 : (BitVec.ofNat 9 i).toNat = i := by
      rw [BitVec.toNat_ofNat]
      omega
    obtain ⟨q, hq⟩ := h.walk_exists hk (BitVec.ofNat 9 i) (by rw [hi9]; omega)
    exact ⟨q, _, hq, by rw [hi9]; exact (h.leaves i hi).1, by rw [hi9]⟩

/-- The number of leaves is the number of symbols that occur. -/
theorem TreeInv.k_eq (h : TreeInv s) : s.k = s.present.length := by
  have hmem : ∀ x, x ∈ s.present ↔ ∃ i, i < s.k ∧ (s.nodeAt i).sym = x := by
    intro x
    rw [mem_present]
    refine ⟨h.leaf_of_present x, ?_⟩
    rintro ⟨i, hi, rfl⟩
    rw [← (h.leaves i hi).2.2.2.1]
    exact (h.leaves i hi).2.2.2.2
  have hperm : ((List.range s.k).map (fun i => (s.nodeAt i).sym)).Perm s.present := by
    refine (List.perm_ext_iff_of_nodup ?_ (nodup_allSymbols.filter _ : s.present.Nodup)).mpr fun x => ?_
    · refine List.Nodup.map_on ?_ List.nodup_range
      intro i hi j hj e
      rw [List.mem_range] at hi hj
      have hk9 : s.k ≤ 256 := h.k_le
      have := @TreeInv.leaf_unique s h (BitVec.ofNat 9 i) (BitVec.ofNat 9 j)
      simp only [BitVec.toNat_ofNat, Nat.mod_eq_of_lt (show i < 2 ^ 9 by omega),
        Nat.mod_eq_of_lt (show j < 2 ^ 9 by omega)] at this
      have := congrArg BitVec.toNat (this hi hj e)
      simpa only [BitVec.toNat_ofNat, Nat.mod_eq_of_lt (show i < 2 ^ 9 by omega),
        Nat.mod_eq_of_lt (show j < 2 ^ 9 by omega)] using this
    · exact (by simp [List.mem_range] : _ ↔ ∃ i, i < s.k ∧ (s.nodeAt i).sym = x).trans (hmem x).symm
  have := hperm.length_eq
  simpa using this

/-- What `GEN` records (rules R130 to R132): one code for each symbol that occurs and for no other, of 1 to 255 bits; with
two symbols or more, the symbol's path, at most `k - 1` bits long; with one, the bit `0`. -/
structure CodesOf (s : State) (codes : List (Byte × Bits)) : Prop where
  nodup : (codes.map Prod.fst).Nodup
  present : ∀ x, x ∈ codes.map Prod.fst ↔ s.freqOf x ≠ 0#32
  length : ∀ c ∈ codes, 1 ≤ c.2.length ∧ c.2.length ≤ 255
  paths : 2 ≤ s.k → ∀ x q, (x, q) ∈ codes ↔ PathTo s q x
  short : 2 ≤ s.k → ∀ c ∈ codes, c.2.length + 1 ≤ s.k
  single : s.k = 1 → codes = [((s.nodeAt 0).sym, [false])]

/-- The traversal of `GEN` ends well in every tree that meets rule R30. -/
theorem TreeInv.treeCodes (h : TreeInv s) : ∃ codes, treeCodes s = some codes ∧ CodesOf s codes := by
  have hn := h.nnodes_eq
  have hp : ∀ x, s.freqOf x ≠ 0#32 ↔ ∃ i, i < s.k ∧ (s.nodeAt i).sym = x := by
    intro x
    refine ⟨h.leaf_of_present x, ?_⟩
    rintro ⟨i, hi, rfl⟩
    rw [← (h.leaves i hi).2.2.2.1]
    exact (h.leaves i hi).2.2.2.2
  unfold Machine.treeCodes
  by_cases k0 : s.k = 0
  · rw [if_pos k0] at hn
    rw [if_pos (BitVec.eq_of_toNat_eq (by simpa using hn))]
    refine ⟨[], rfl, by simp, fun x => ?_, by simp, fun hk => by omega, by simp, fun hk => by omega⟩
    rw [hp]
    simp [k0]
  · rw [if_neg k0] at hn
    have hk : 0 < s.k := by omega
    rw [if_neg (by rintro e; rw [e] at hn; simp at hn; omega)]
    by_cases k1 : s.k = 1
    · rw [if_pos (BitVec.eq_of_toNat_eq (by simp [hn, k1]))]
      refine ⟨_, rfl, by simp, fun x => ?_, by simp, fun hk => by omega, fun hk => by omega, fun _ => rfl⟩
      rw [hp, k1]
      constructor
      · intro hx
        exact ⟨0, by omega, by simpa using (List.mem_singleton.mp hx).symm⟩
      · rintro ⟨i, hi, rfl⟩
        obtain rfl : i = 0 := by omega
        simp
    · have hk2 : 2 ≤ s.k := by omega
      rw [if_neg (by rintro e; rw [e] at hn; simp at hn; omega)]
      have hroot := h.root_lt hk
      obtain ⟨l, hl⟩ := h.visit_some s.root.toNat [] hroot (Nat.le_refl _)
      obtain ⟨hlist, -⟩ := h.visit_listing hk _ (walk_nil hroot) hl
      have hlen := h.length_listing_le hk hlist
      have hk256 := h.k_le
      refine ⟨l, (visit_fuel hl).2 _ (by simp only [Config.codeMax]; omega), hlist.nodup, fun x => ?_, ?_, ?_, ?_,
        fun e => by omega⟩
      · rw [← h.pathTo_iff hk x, List.mem_map]
        constructor
        · rintro ⟨⟨x, q⟩, hm, rfl⟩
          exact ⟨q, ((hlist.mem _ _).mp hm).2⟩
        · rintro ⟨q, hq⟩
          exact ⟨(x, q), (hlist.mem _ _).mpr ⟨List.nil_prefix, hq⟩, rfl⟩
      · intro c hc
        have hd := hlist.depth c hc
        simp only [List.length_nil] at hd
        refine ⟨?_, by omega⟩
        obtain ⟨j, hj, hjl, -⟩ := ((hlist.mem c.1 c.2).mp hc).2
        by_contra h0
        have hc0 : c.2 = [] := List.eq_nil_of_length_eq_zero (by omega)
        rw [hc0, walk_nil hroot] at hj
        cases hj
        have := (h.leaf_iff hroot).mp hjl
        have := h.root_last hk
        omega
      · intro _ x q
        rw [hlist.mem]
        exact ⟨fun e => e.2, fun e => ⟨List.nil_prefix, e⟩⟩
      · intro _ c hc
        have hd := hlist.depth c hc
        simp only [List.length_nil] at hd
        omega

end tree

/-! ### The table that the codes make -/

/-- Codes written into the table read back, when each symbol is given once and no code is too long. -/
theorem codeword_foldl_setCode (codes : List (Byte × Bits)) (s : State) (hn : (codes.map Prod.fst).Nodup)
    (hl : ∀ c ∈ codes, c.2.length ≤ 255) (x : Byte) :
    (∀ q, (x, q) ∈ codes → (codes.foldl (fun t c => setCode c.1 c.2 t) s).codeword x = q ∧
      (codes.foldl (fun t c => setCode c.1 c.2 t) s).lenOf x = BitVec.ofNat 8 q.length) ∧
    (x ∉ codes.map Prod.fst → (codes.foldl (fun t c => setCode c.1 c.2 t) s).codeword x = s.codeword x ∧
      (codes.foldl (fun t c => setCode c.1 c.2 t) s).lenOf x = s.lenOf x) := by
  induction codes generalizing s with
  | nil => simp
  | cons c codes ih =>
    rw [List.map_cons, List.nodup_cons] at hn
    obtain ⟨i1, i2⟩ := ih (setCode c.1 c.2 s) hn.2 (fun d hd => hl d (by simp [hd]))
    rw [List.foldl_cons]
    have hc : c.2.length ≤ 255 := hl c (by simp)
    constructor
    · intro q hq
      rcases List.mem_cons.mp hq with e | hq
      · obtain rfl : c = (x, q) := e.symm
        obtain ⟨e1, e2⟩ := i2 hn.1
        rw [e1, e2, codeword_setCode hc, lenOf_setCode]
        simp
      · exact i1 q hq
    · intro hx
      rw [List.map_cons, List.mem_cons, not_or] at hx
      obtain ⟨e1, e2⟩ := i2 hx.2
      rw [e1, e2, codeword_setCode hc, lenOf_setCode, if_neg hx.1, if_neg hx.1]
      exact ⟨rfl, rfl⟩

/-- The table that `GEN` writes: exactly the given codes. -/
theorem table_writeCodes {codes : List (Byte × Bits)} (s : State) (hn : (codes.map Prod.fst).Nodup)
    (hl : ∀ c ∈ codes, 1 ≤ c.2.length ∧ c.2.length ≤ 255) (x : Byte) :
    (∀ q, (x, q) ∈ codes → (writeCodes codes s).codeword x = q ∧ ((writeCodes codes s).lenOf x).toNat = q.length) ∧
    (x ∉ codes.map Prod.fst → (writeCodes codes s).lenOf x = 0#8) := by
  obtain ⟨h1, h2⟩ := codeword_foldl_setCode codes { s with len := Vector.replicate 256 0 } hn (fun c hc => (hl c hc).2) x
  refine ⟨fun q hq => ?_, fun hx => ?_⟩
  · obtain ⟨e1, e2⟩ := h1 q hq
    refine ⟨e1, ?_⟩
    rw [writeCodes, e2]
    exact toNat_ofNat8_length (hl _ hq).2
  · rw [writeCodes, (h2 hx).2]
    simp [State.lenOf]

/-- Writing codes changes the table alone. -/
theorem foldl_setCode_frame (codes : List (Byte × Bits)) (s : State) :
    codes.foldl (fun t c => setCode c.1 c.2 t) s = { s with
      len := (codes.foldl (fun t c => setCode c.1 c.2 t) s).len
      bits := (codes.foldl (fun t c => setCode c.1 c.2 t) s).bits } := by
  induction codes generalizing s with
  | nil => rfl
  | cons c codes ih =>
    rw [List.foldl_cons, ih]
    rfl

theorem writeCodes_frame (codes : List (Byte × Bits)) (s : State) :
    writeCodes codes s = { s with len := (writeCodes codes s).len, bits := (writeCodes codes s).bits } := by
  unfold writeCodes
  rw [foldl_setCode_frame]

/-- The table that `GEN` writes has an entry exactly for the symbols that occur (rule R133 a). -/
theorem CodesOf.entry_iff {s : State} {codes : List (Byte × Bits)} (h : CodesOf s codes) (x : Byte) :
    (writeCodes codes s).lenOf x ≠ 0#8 ↔ s.freqOf x ≠ 0#32 := by
  rw [← h.present]
  obtain ⟨h1, h2⟩ := table_writeCodes s h.nodup h.length x
  constructor
  · intro hx
    by_contra hn
    exact hx (h2 hn)
  · intro hx e
    obtain ⟨⟨x, q⟩, hm, rfl⟩ := List.mem_map.mp hx
    have hq := (h1 q hm).2
    rw [show (writeCodes codes s).lenOf x = 0#8 from e] at hq
    have hpos : 1 ≤ q.length := (h.length _ hm).1
    have hzero : (0#8).toNat = 0 := rfl
    omega

/-- Every entry of that table is one of the codes. -/
theorem CodesOf.code_mem {s : State} {codes : List (Byte × Bits)} (h : CodesOf s codes) {x : Byte}
    (hx : (writeCodes codes s).lenOf x ≠ 0#8) : (x, (writeCodes codes s).codeword x) ∈ codes := by
  rw [h.entry_iff, ← h.present] at hx
  obtain ⟨⟨x, q⟩, hm, rfl⟩ := List.mem_map.mp hx
  rwa [((table_writeCodes s h.nodup h.length x).1 q hm).1]

end Sys2Proof.Machine
end

