-- ==== Sys2Proof/Laws/PerInstr.lean ====
section
/-! SUPPORT. Statements about every instruction as syntax, one lemma per constructor: a term of Instr is well formed
(spec/30_encoding.md rules R81 and R86), and its word agrees with its row of the opcode table (rule R82). -/

namespace Sys2Proof.Laws

/-! ### Every instruction is well formed: its operand types are the fields themselves -/

/-- The instruction is well formed. -/
def WellFormed.Statement (i : Instr) : Prop := i.wellFormed = true

namespace WellFormed

/-- The mnemonic is listed with a form whose fields the operands fit. -/
theorem fits {i : Instr} (f : Form) (hm : forms.lookup i.mnemonic = some f)
    (ho : fitFields f.widths i.operands = true) : Statement i := by
  simp [Statement, Instr.wellFormed, Line.wellFormed, Instr.line, hm, ho]

theorem nop : Statement (.nop) := fits .Z rfl rfl
theorem clr : Statement (.clr) := fits .Z rfl rfl
theorem stat : Statement (.stat) := fits .Z rfl rfl
theorem cnt (sym : Byte) : Statement (.cnt sym) := fits .S rfl (by simp [fitFields, Form.widths, Instr.operands, sym.isLt])
theorem bld : Statement (.bld) := fits .Z rfl rfl
theorem gen : Statement (.gen) := fits .Z rfl rfl
theorem frd (sym : Byte) : Statement (.frd sym) := fits .S rfl (by simp [fitFields, Form.widths, Instr.operands, sym.isLt])
theorem ftot : Statement (.ftot) := fits .Z rfl rfl
theorem ncnt : Statement (.ncnt) := fits .Z rfl rfl
theorem nwt (idx : NodeIdx) : Statement (.nwt idx) := fits .N rfl (by simp [fitFields, Form.widths, Instr.operands, idx.isLt])
theorem nlk (idx : NodeIdx) : Statement (.nlk idx) := fits .N rfl (by simp [fitFields, Form.widths, Instr.operands, idx.isLt])
theorem tsel (sym : Byte) : Statement (.tsel sym) := fits .S rfl (by simp [fitFields, Form.widths, Instr.operands, sym.isLt])
theorem tbit (bit : Bool) : Statement (.tbit bit) := fits .B rfl (by cases bit <;> rfl)
theorem tend : Statement (.tend) := fits .Z rfl rfl
theorem tlen (sym : Byte) : Statement (.tlen sym) := fits .S rfl (by simp [fitFields, Form.widths, Instr.operands, sym.isLt])
theorem tget (sym : Byte) (bi : Byte) : Statement (.tget sym bi) := fits .SI rfl (by simp [fitFields, Form.widths, Instr.operands, sym.isLt, bi.isLt])
theorem ebeg : Statement (.ebeg) := fits .Z rfl rfl
theorem enc (sym : Byte) : Statement (.enc sym) := fits .S rfl (by simp [fitFields, Form.widths, Instr.operands, sym.isLt])
theorem efin : Statement (.efin) := fits .Z rfl rfl
theorem dbeg (hdr : Byte) : Statement (.dbeg hdr) := fits .H rfl (by simp [fitFields, Form.widths, Instr.operands, hdr.isLt])
theorem dpl (byte : Byte) : Statement (.dpl byte) := fits .S rfl (by simp [fitFields, Form.widths, Instr.operands, byte.isLt])
theorem dfin : Statement (.dfin) := fits .Z rfl rfl
theorem olen : Statement (.olen) := fits .Z rfl rfl
theorem ord (addr : BitVec 32) : Statement (.ord addr) := fits .A rfl (by simp [fitFields, Form.widths, Instr.operands, addr.isLt])

end WellFormed

/-! ### Every instruction's word is a word of its row -/

/-- The table has a row with the instruction's mnemonic and form, and the instruction's word equals the row's pattern in
every bit that the row's mask covers (rule R82: "exactly when `w AND mask = match`"). -/
def MatchesRow.Statement (i : Instr) : Prop :=
  ∃ row ∈ opcodeTable, row.mnemonic = i.mnemonic ∧ row.form = i.form ∧ encode i &&& row.mask = row.pattern

/-- A row of the table, given by its index, whose mask covers the instruction's word. -/
theorem matchesRow_of_row {i : Instr} (n : Nat) (row : OpcodeRow) (h : opcodeTable[n]? = some row)
    (hm : row.mnemonic = i.mnemonic) (hf : row.form = i.form) (hw : encode i &&& row.mask = row.pattern) :
    MatchesRow.Statement i :=
  ⟨row, List.mem_of_getElem? h, hm, hf, hw⟩

/-- An operand below `2 ^ n` has no bit that a mask over the bits from `n` on covers. -/
theorem mask_operand (op : BitVec 8) (arg : BitVec 32) (n : Nat) (mask : CmdWord)
    (hlow : ∀ i, i < n → mask.getLsbD i = false) (hhigh : ∀ i, 32 ≤ i → i < 40 → mask.getLsbD i = true)
    (hn : arg.toNat < 2 ^ n) : (op ++ arg) &&& mask = (op ++ 0#32 : CmdWord) := by
  apply BitVec.eq_of_getLsbD_eq
  intro i hi
  simp only [BitVec.getLsbD_and, BitVec.getLsbD_append]
  by_cases hs : i < 32
  · by_cases hin : i < n
    · simp [hs, hlow i hin]
    · have : arg.getLsbD i = false := by
        rw [BitVec.getLsbD, Nat.testBit_eq_false_of_lt]
        exact Nat.lt_of_lt_of_le hn (Nat.pow_le_pow_right (by decide) (by omega))
      rw [BitVec.getLsbD_eq_getElem hs] at this
      simp [hs, this]
  · simp [hs, hhigh i (by omega) hi]

/-- A field widened keeps its bound. -/
theorem setWidth_lt {n : Nat} (v : BitVec n) (h : n ≤ 32) : (v.setWidth 32).toNat < 2 ^ n := by
  rw [BitVec.toNat_setWidth_of_le h]
  exact v.isLt

namespace MatchesRow

theorem nop : Statement (.nop) := matchesRow_of_row 0 _ rfl rfl rfl (by decide)

theorem clr : Statement (.clr) := matchesRow_of_row 1 _ rfl rfl rfl (by decide)

theorem stat : Statement (.stat) := matchesRow_of_row 2 _ rfl rfl rfl (by decide)

theorem cnt (sym : Byte) : Statement (.cnt sym) := matchesRow_of_row 3 _ rfl rfl rfl
    (mask_operand 0x10 (sym.setWidth 32) 8 0xFFFFFFFF00 (by decide) (by decide) (setWidth_lt _ (by decide)))

theorem bld : Statement (.bld) := matchesRow_of_row 4 _ rfl rfl rfl (by decide)

theorem gen : Statement (.gen) := matchesRow_of_row 5 _ rfl rfl rfl (by decide)

theorem frd (sym : Byte) : Statement (.frd sym) := matchesRow_of_row 6 _ rfl rfl rfl
    (mask_operand 0x13 (sym.setWidth 32) 8 0xFFFFFFFF00 (by decide) (by decide) (setWidth_lt _ (by decide)))

theorem ftot : Statement (.ftot) := matchesRow_of_row 7 _ rfl rfl rfl (by decide)

theorem ncnt : Statement (.ncnt) := matchesRow_of_row 8 _ rfl rfl rfl (by decide)

theorem nwt (idx : NodeIdx) : Statement (.nwt idx) := matchesRow_of_row 9 _ rfl rfl rfl
    (mask_operand 0x16 (idx.setWidth 32) 9 0xFFFFFFFE00 (by decide) (by decide) (setWidth_lt _ (by decide)))

theorem nlk (idx : NodeIdx) : Statement (.nlk idx) := matchesRow_of_row 10 _ rfl rfl rfl
    (mask_operand 0x17 (idx.setWidth 32) 9 0xFFFFFFFE00 (by decide) (by decide) (setWidth_lt _ (by decide)))

theorem tsel (sym : Byte) : Statement (.tsel sym) := matchesRow_of_row 11 _ rfl rfl rfl
    (mask_operand 0x20 (sym.setWidth 32) 8 0xFFFFFFFF00 (by decide) (by decide) (setWidth_lt _ (by decide)))

theorem tbit (bit : Bool) : Statement (.tbit bit) := by
  cases bit <;> exact matchesRow_of_row 12 _ rfl rfl rfl (by decide)

theorem tend : Statement (.tend) := matchesRow_of_row 13 _ rfl rfl rfl (by decide)

theorem tlen (sym : Byte) : Statement (.tlen sym) := matchesRow_of_row 14 _ rfl rfl rfl
    (mask_operand 0x23 (sym.setWidth 32) 8 0xFFFFFFFF00 (by decide) (by decide) (setWidth_lt _ (by decide)))

theorem tget (sym : Byte) (bi : Byte) : Statement (.tget sym bi) := matchesRow_of_row 15 _ rfl rfl rfl
    (mask_operand 0x24 ((bi ++ sym).setWidth 32) 16 0xFFFFFF0000 (by decide) (by decide) (setWidth_lt _ (by decide)))

theorem ebeg : Statement (.ebeg) := matchesRow_of_row 16 _ rfl rfl rfl (by decide)

theorem enc (sym : Byte) : Statement (.enc sym) := matchesRow_of_row 17 _ rfl rfl rfl
    (mask_operand 0x31 (sym.setWidth 32) 8 0xFFFFFFFF00 (by decide) (by decide) (setWidth_lt _ (by decide)))

theorem efin : Statement (.efin) := matchesRow_of_row 18 _ rfl rfl rfl (by decide)

theorem dbeg (hdr : Byte) : Statement (.dbeg hdr) := matchesRow_of_row 19 _ rfl rfl rfl
    (mask_operand 0x40 (hdr.setWidth 32) 8 0xFFFFFFFF00 (by decide) (by decide) (setWidth_lt _ (by decide)))

theorem dpl (byte : Byte) : Statement (.dpl byte) := matchesRow_of_row 20 _ rfl rfl rfl
    (mask_operand 0x41 (byte.setWidth 32) 8 0xFFFFFFFF00 (by decide) (by decide) (setWidth_lt _ (by decide)))

theorem dfin : Statement (.dfin) := matchesRow_of_row 21 _ rfl rfl rfl (by decide)

theorem olen : Statement (.olen) := matchesRow_of_row 22 _ rfl rfl rfl (by decide)

theorem ord (addr : BitVec 32) : Statement (.ord addr) := matchesRow_of_row 23 _ rfl rfl rfl
    (mask_operand 0x51 addr 32 0xFF00000000 (by decide) (by decide) addr.isLt)

end MatchesRow

end Sys2Proof.Laws
end

