-- ==== Sys2Proof/Laws/Sessions.lean ====
section
/-! SUPPORT. Sequences of commands: running one after another, a code stream cut anywhere, the bits of a byte sequence
against the bytes they fill. -/

namespace Sys2Proof.Machine

/-- Two sequences one after the other run as the whole. -/
theorem execAll_append (p q : List Instr) (s : State) :
    execAll (p ++ q) s =
      match execAll p s with
      | .next t => execAll q t
      | .fault f => .fault f
      | .refused r => .refused r := by
  induction p generalizing s with
  | nil => rfl
  | cons i p ih =>
    simp only [List.cons_append, execAll]
    cases h : exec i s with
    | next t => simpa using ih t
    | fault f => rfl
    | refused r => rfl

theorem execAll_cons_next {i : Instr} {is : List Instr} {s t : State} (h : exec i s = .next t) :
    execAll (i :: is) s = execAll is t := by simp [execAll, h]

/-- Commands that only answer, one after another: each kind of state `P` that their answers rest on, and that a response
does not touch, holds throughout, nothing changes, and the responses are the answers. -/
theorem run_reads {P : State → Prop} (hP : ∀ s r, P s → P { s with rsp := r }) {l : List (Instr × BitVec 32)}
    (h : ∀ e ∈ l, ∀ s, P s → exec e.1 s = .next (respond e.2 s)) {s : State} (hs : P s) :
    (∃ t, execAll (l.map Prod.fst) s = .next t ∧ t = { s with rsp := t.rsp }) ∧
      responses (l.map Prod.fst) s = l.map (fun e => { err := 0, data := e.2 }) := by
  induction l generalizing s with
  | nil => exact ⟨⟨s, rfl, rfl⟩, rfl⟩
  | cons e l ih =>
    have he := h e (by simp) s hs
    obtain ⟨⟨t, ht, hr⟩, ha⟩ := ih (fun e he => h e (by simp [he])) (s := respond e.2 s) (hP s _ hs)
    refine ⟨⟨t, (execAll_cons_next he).trans ht, hr⟩, ?_⟩
    rw [List.map_cons, responses, he]
    exact congrArg (_ :: ·) ha

/-- What the answers to `READTABLE` are read as (rule R87): the codes of the symbols that have one, for any list of
symbols. -/
theorem tableRead_answers (s : State) (ts : List Byte) :
    tableRead ts (ts.flatMap (fun t => { err := 0, data := (s.lenOf t).setWidth 32 } ::
        (s.codeword t).map (fun x => { err := 0, data := if x then 1 else 0 }))) =
      (ts.filter (fun t => s.lenOf t ≠ 0#8)).map (fun t => (t, s.codeword t)) := by
  induction ts with
  | nil => rfl
  | cons t ts ih =>
    have hn : ((s.lenOf t).setWidth 32).toNat = ((s.codeword t).map (fun x =>
        ({ err := 0, data := if x then 1 else 0 } : Response))).length := by
      have := (s.lenOf t).isLt
      simp only [BitVec.toNat_setWidth, List.length_map, length_codeword]
      omega
    have hb : ∀ q : Bits, q.map ((fun a : Response => a.data == 1) ∘ fun x => { err := 0, data := if x then 1 else 0 }) = q :=
      fun q => (List.map_congr_left fun x _ => by cases x <;> rfl).trans (List.map_id q)
    rw [List.flatMap_cons, List.cons_append, tableRead, hn, List.take_left, List.drop_left, ih, List.map_map, hb]
    by_cases h : s.lenOf t = 0#8
    · simp [codeword_eq_nil h, h]
    · have : s.codeword t ≠ [] := fun hc => h (by
        have := length_codeword s t
        rw [hc] at this
        exact BitVec.eq_of_toNat_eq this.symm)
      simp [this, h]

theorem tableRead_tableAnswers (s : State) : tableRead allSymbols (tableAnswers s) = tableCodes s :=
  tableRead_answers s allSymbols

theorem codeStream_append (s : State) (b c : List Byte) : codeStream s (b ++ c) = codeStream s b ++ codeStream s c := by
  simp [codeStream]

/-- A stream of whole codewords cut anywhere: whole codewords, the beginning of one in which no codeword begins, and what
is left of the stream. -/
theorem cut_codeStream {s : State} (hp : PrefixFree s) (b : List Byte) (hb : Covered s b) {p q : Bits}
    (he : codeStream s b = p ++ q) :
    ∃ b1 b2 rest, b = b1 ++ b2 ∧ p = codeStream s b1 ++ rest ∧ rest ++ q = codeStream s b2 ∧ NoMatchIn s rest ∧
      rest.length ≤ 254 := by
  induction b generalizing p with
  | nil =>
    simp only [codeStream, List.flatMap_nil] at he
    obtain ⟨rfl, rfl⟩ := List.append_eq_nil_iff.mp he.symm
    exact ⟨[], [], [], rfl, rfl, rfl, noMatchIn_nil s, by simp⟩
  | cons y b ih =>
    rw [codeStream_cons] at he
    have hy := hb y (by simp)
    rcases List.append_eq_append_iff.mp he with ⟨r, h1, h2⟩ | ⟨r, h1, h2⟩
    · obtain ⟨b1, b2, rest, rfl, h3, h4, h5, h6⟩ := ih (fun z hz => hb z (by simp [hz])) h2
      exact ⟨y :: b1, b2, rest, rfl, by rw [h1, h3, codeStream_cons, List.append_assoc], h4, h5, h6⟩
    · by_cases hr : r = []
      · subst hr
        simp only [List.append_nil, List.nil_append] at h1 h2
        refine ⟨[y], b, [], rfl, by simp [codeStream, h1], by simpa using h2, noMatchIn_nil s, by simp⟩
      · refine ⟨[], y :: b, p, rfl, by simp [codeStream], ?_, ?_, ?_⟩
        · rw [codeStream_cons, h1, h2, List.append_assoc]
        · intro z hz hc
          have hpy : p <+: s.codeword y := ⟨r, h1.symm⟩
          by_cases hzy : z = y
          · subst hzy
            have := hc.length_le
            rw [h1, List.length_append] at this
            exact hr (List.eq_nil_of_length_eq_zero (by omega))
          · exact hp z y hzy hz hy (hc.trans hpy)
        · have := length_codeword_le s y
          rw [h1, List.length_append] at this
          have : 0 < r.length := List.length_pos_iff.mpr hr
          omega

/-- Stream bit `n` of a byte sequence is bit `7 - n mod 8` of byte `n div 8` (rule R62). -/
theorem getElem?_flatMap_bitsMsbFirst (p : List Byte) (n : Nat) :
    (p.flatMap bitsMsbFirst)[n]? = (p[n / 8]?).map (fun v => v.getLsbD (7 - n % 8)) := by
  induction p generalizing n with
  | nil => simp
  | cons v p ih =>
    rw [List.flatMap_cons]
    by_cases h : n < 8
    · rw [List.getElem?_append_left (by simpa using h), Nat.div_eq_of_lt h, Nat.mod_eq_of_lt h]
      have : ∀ (v : Byte) (n : Fin 8), (bitsMsbFirst v)[(n : Nat)]? = some (v.getLsbD (7 - n)) := by decide +kernel
      exact this v ⟨n, h⟩
    · obtain ⟨m, rfl⟩ : ∃ m, n = m + 8 := ⟨n - 8, by omega⟩
      rw [List.getElem?_append_right (by simp), length_bitsMsbFirst, Nat.add_sub_cancel, ih]
      simp [Nat.add_div_right m (by decide : 0 < 8)]

theorem length_flatMap_bitsMsbFirst (p : List Byte) : (p.flatMap bitsMsbFirst).length = 8 * p.length := by
  induction p with
  | nil => rfl
  | cons v p ih => rw [List.flatMap_cons, List.length_append, ih, length_bitsMsbFirst, List.length_cons]; omega

end Sys2Proof.Machine
end

