-- ==== Sys2Proof/Tests/Slice0.lean ====
section
/-! SUPPORT. The model's own tests: what well-formedness refuses, the decoding of words written out from
spec/30_encoding.md (vectors V-X1 to V-X37 of spec/95_test_vectors.md), one step of each command with the answers of the
spec's vectors (named at each test), and a witness for the hypotheses of every statement. -/

namespace Sys2Proof.Machine

-- One theorem at a time: each is an evaluation by the kernel, and many at once need much memory.
set_option Elab.async false

/-! ### Helpers: small states, and what an outcome holds -/

/-- The response an outcome carries. -/
def answered : Outcome → Option Response
  | .next t => t.rsp
  | .fault _ => none
  | .refused _ => none

/-- The state an outcome leaves. -/
def leaves : Outcome → State
  | .next t => t
  | .fault _ => State.reset
  | .refused _ => State.reset

/-- The outcome is a next state. -/
def completes : Outcome → Bool
  | .next _ => true
  | .fault _ => false
  | .refused _ => false

theorem exists_next {o : Outcome} (h : completes o = true) : ∃ t, o = .next t := by
  cases o with
  | next t => exact ⟨t, rfl⟩
  | fault f => cases h
  | refused r => cases h

/-- An outcome written out: the response and the state it leaves apart. -/
theorem next_leaves {o : Outcome} (h : completes o = true) : o = .next (leaves o) := by
  cases o with
  | next t => rfl
  | fault f => cases h
  | refused r => cases h

def ok (d : BitVec 32) : Option Response := some { err := 0, data := d }
def error (e : ErrorCode) : Option Response := some { err := e.code, data := 0 }

/-- Counts given in the phase `IDLE`. -/
def counted (counts : List (Byte × Weight)) : State :=
  counts.foldl (fun s c => { s with freq := fileWrite s.freq c.1 c.2, total := s.total + c.2 }) State.reset

/-- A tree in the phase `TREE`. -/
def planted (k : BitVec 9) (nodes : List Node) (s : State) : State :=
  { s with
    node := writeNodes s.node 0 nodes, nnodes := BitVec.ofNat 9 nodes.length, root := BitVec.ofNat 9 (nodes.length - 1)
    nsym := k, phase := .tree }

def leafNode (t : Byte) (w : Weight) : Node := { leaf := true, sym := t, w := w, left := Config.nil, right := Config.nil }
def innerNode (w : Weight) (l r : NodeIdx) : Node := { leaf := false, sym := 0, w := w, left := l, right := r }

/-- The tree of "ab" (vector V-T3). -/
def treeAB : State :=
  planted 2 [leafNode 0x61 1, leafNode 0x62 1, innerNode 2 0 1] (counted [(0x61, 1), (0x62, 1)])

/-- The tree of "bbbbb" (vector V-T2). -/
def treeB : State := planted 1 [leafNode 0x62 5] (counted [(0x62, 5)])

/-- The tree of "aaabbc" (vector V-T6). -/
def treeABC : State :=
  planted 3 [leafNode 0x61 3, leafNode 0x62 2, leafNode 0x63 1, innerNode 3 2 1, innerNode 6 0 3]
    (counted [(0x61, 3), (0x62, 2), (0x63, 1)])

/-- A state of some phase with a code table. -/
def withTable (p : Phase) (codes : List (Byte × Bits)) : State :=
  { writeCodes codes State.reset with nsym := BitVec.ofNat 9 codes.length, phase := p }

def codesABC : List (Byte × Bits) := [(0x61, [false]), (0x62, [true, true]), (0x63, [true, false])]

/-- The table of vector V-G20: `a` = `0`, `b` = `11`, `c` = `10`. -/
def tableABC : State := withTable .table codesABC

/-- An encode session on it, with `n` bits in the accumulator and `o` bytes written. -/
def encoding (n : BitVec 3) (o size : BitVec 32) : State :=
  { tableABC with nacc := n, olen := o, obufSize := size, phase := .encode }

/-- A decode session on it with a byte held. -/
def decoding (h : BitVec 3) (held : Byte) (q : Bits) (size : BitVec 32) : State :=
  setCand q { tableABC with hdr := h, hold := held, holdV := true, obufSize := size, phase := .decode }

/-- The phase `FAULT` of program P4: `ERR` = 3, `NSYM` = 2. -/
def faulted : State := { State.reset with phase := .fault, err := some .unknownSymbol, nsym := 2 }

/-! ### Well-formedness: an ill-formed line for each check -/

theorem test_wellFormed_accepts : Line.wellFormed { mnemonic := "TGET", operands := [255, 254] } = true := by decide +kernel
theorem test_wellFormed_refuses_unknown_mnemonic : Line.wellFormed { mnemonic := "MUL", operands := [] } = false := by
  decide +kernel
theorem test_wellFormed_refuses_missing_operand : Line.wellFormed { mnemonic := "TGET", operands := [255] } = false := by
  decide +kernel
theorem test_wellFormed_refuses_extra_operand : Line.wellFormed { mnemonic := "NOP", operands := [0] } = false := by
  decide +kernel
theorem test_wellFormed_refuses_wide_symbol : Line.wellFormed { mnemonic := "CNT", operands := [256] } = false := by
  decide +kernel
theorem test_wellFormed_refuses_wide_index : Line.wellFormed { mnemonic := "NWT", operands := [512] } = false := by
  decide +kernel
theorem test_wellFormed_refuses_wide_bit : Line.wellFormed { mnemonic := "TBIT", operands := [2] } = false := by
  decide +kernel
theorem test_wellFormed_refuses_wide_address :
    Line.wellFormed { mnemonic := "ORD", operands := [4294967296] } = false := by decide +kernel

/-! ### Decoding: words of rule R82 and of vectors V-X1 to V-X37 -/

theorem test_decode_control :
    decode 0x0000000000 = .ok .nop ∧ decode 0x0100000000 = .ok .clr ∧ decode 0x0200000000 = .ok .stat := by
  decide +kernel

theorem test_decode_tree_builder :
    decode 0x1000000061 = .ok (.cnt 0x61) ∧ decode 0x1100000000 = .ok .bld ∧ decode 0x13000000FF = .ok (.frd 0xFF) ∧
    decode 0x1400000000 = .ok .ftot ∧ decode 0x1500000000 = .ok .ncnt ∧ decode 0x16000001FE = .ok (.nwt 510) ∧
    decode 0x1700000004 = .ok (.nlk 4) := by
  decide +kernel

theorem test_decode_code_table :
    decode 0x1200000000 = .ok .gen ∧ decode 0x2000000062 = .ok (.tsel 0x62) ∧ decode 0x2100000001 = .ok (.tbit true) ∧
    decode 0x2200000000 = .ok .tend ∧ decode 0x2300000063 = .ok (.tlen 0x63) ∧
    decode 0x2400000163 = .ok (.tget 0x63 1) ∧ decode 0x240000FEFF = .ok (.tget 0xFF 254) := by
  decide +kernel

theorem test_decode_encoder :
    decode 0x3000000000 = .ok .ebeg ∧ decode 0x310000007A = .ok (.enc 0x7A) ∧ decode 0x3200000000 = .ok .efin := by
  decide +kernel

theorem test_decode_decoder :
    decode 0x40000000FF = .ok (.dbeg 0xFF) ∧ decode 0x410000001F = .ok (.dpl 0x1F) ∧ decode 0x4200000000 = .ok .dfin := by
  decide +kernel

theorem test_decode_output :
    decode 0x5000000000 = .ok .olen ∧ decode 0x5100000002 = .ok (.ord 2) ∧
    decode 0x51FFFFFFFF = .ok (.ord 0xFFFFFFFF) := by
  decide +kernel

/-- Bit by bit, `op` in bits 39:32: `TGET` is 0x24, then 16 zeros, `bi` = 1, `sym` = `c`. -/
theorem test_decode_bit_by_bit :
    decode (0b00100100#8 ++ 0b0000000000000000#16 ++ 0b00000001#8 ++ 0b01100011#8) = .ok (.tget 0x63 1) := by
  decide +kernel

/-- Vectors V-X30 to V-X36. -/
theorem test_decode_illegal :
    decode 0x0300000000 = .error .unassignedOpcode ∧ decode 0xFF00000000 = .error .unassignedOpcode ∧
    decode 0x0000000001 = .error .reservedBitSet ∧ decode 0x1000000100 = .error .reservedBitSet ∧
    decode 0x1600000200 = .error .reservedBitSet ∧ decode 0x2100000002 = .error .reservedBitSet ∧
    decode 0x2400010000 = .error .reservedBitSet := by
  decide +kernel

/-- A word that the opcode table numbers, and a number that is no 40-bit word. -/
theorem test_decodeTableWord :
    decodeTableWord 40 0x1000000061 = some (.cnt 0x61) ∧ decodeTableWord 48 0x011000000061 = none := by decide +kernel

/-- Rule R86: an operand as a character, a number and a hexadecimal number, a comment, a response. -/
theorem test_assembleText :
    assembleText "CNT 'a'".toList = some (.cnt 0x61) ∧ assembleText "TGET 0x63, 1 => OK 0x1 # x".toList = some (.tget 0x63 1) ∧
    assembleText "FRD 0xfB".toList = some (.frd 0xFB) ∧ assembleText "FRD 0xG".toList = none ∧
    assembleText "CNT 1A".toList = none ∧ assembleText "CNT 256".toList = none ∧ assembleText "NOP 0".toList = none := by
  decide +kernel

/-! ### A word, a response, the ports -/

/-- V-X30: the first word after reset is illegal; then `STAT` answers 0x17. -/
theorem test_illegal_word :
    answered (runWord 0x0300000000 State.reset) = error .illegal ∧
    answered (exec .stat (leaves (runWord 0x0300000000 State.reset))) = ok 0x17 := by
  decide +kernel

/-- V-X37, V-F1 and V-C7: illegal before out of sequence, faulted before illegal. -/
theorem test_priorities :
    answered (runWord 0x5100000000 State.reset) = error .seq ∧
    answered (runWord 0x1000000100 treeAB) = error .illegal ∧
    answered (runWord 0xFF00000000 faulted) = some { err := 15, data := 0 } := by
  decide +kernel

/-- The word the host offers runs at the very next step, and what the program leaves is in the state. -/
theorem test_step_runs_the_word :
    (leaves (step (State.reset.withFetchWord 40 0x1000000061))).freqOf 0x61 = 1 ∧
    answered (step (State.reset.withFetchWord 40 0x1000000061)) = ok 0 := by
  decide +kernel

theorem test_reset_memory_wf : Memory.wf State.reset.obuf := ⟨.nil, by simp [State.reset]⟩

/-- Writing what an unlisted byte reads as takes the entry out. -/
theorem test_memory_canonical :
    Memory.write [(1, 7), (4, 9)] 2 5 = [(1, 7), (2, 5), (4, 9)] ∧ Memory.write [(1, 7), (4, 9)] 4 0 = [(1, 7)] := by
  decide +kernel

/-! ### One step of each command -/

/-- V-C5. -/
theorem test_nop : exec .nop faulted = .next { faulted with rsp := ok 0 } := rfl

/-- V-C5 and V-C3. -/
theorem test_stat :
    answered (exec .stat faulted) = ok 0x237 ∧ answered (exec .stat { tableABC with ovalid := true }) = ok 0x30B := by
  decide +kernel

/-- V-C9. -/
theorem test_clr :
    answered (exec .stat (leaves (exec .clr (encoding 7 1 300)))) = ok 0 ∧
    (leaves (exec .clr (encoding 7 1 300))).lenOf 0x61 = 0 := by
  decide +kernel

/-- V-T21. -/
theorem test_cnt_last :
    (leaves (exec (.cnt 0) (counted [(0, 0xFFFFFFFE)]))).freqOf 0 = 0xFFFFFFFF ∧
    (leaves (exec (.cnt 0) (counted [(0, 0xFFFFFFFE)]))).total = 0xFFFFFFFF := by
  decide +kernel

/-- V-T22. -/
theorem test_cnt_overflow :
    answered (exec (.cnt 0) (counted [(0, 0xFFFFFFFF)])) = error .countOverflow ∧
    (leaves (exec (.cnt 0) (counted [(0, 0xFFFFFFFF)]))).freqOf 0 = 0xFFFFFFFF := by
  decide +kernel

/-- V-T6: nodes 0 and 3 tie at weight 3, and the leaf is taken first. -/
theorem test_bld_tie :
    (leaves (exec .bld (counted [(0x61, 3), (0x62, 2), (0x63, 1)]))).nodeAt 3 = innerNode 3 2 1 ∧
    (leaves (exec .bld (counted [(0x61, 3), (0x62, 2), (0x63, 1)]))).nodeAt 4 = innerNode 6 0 3 := by
  decide +kernel

/-- V-T10: the lighter `b` is on the left. -/
theorem test_bld_order :
    (leaves (exec .bld (counted [(0x61, 8), (0x62, 1)]))).nodeAt 2 = innerNode 9 1 0 := by decide +kernel

/-- V-T28. -/
theorem test_frd_ftot : answered (exec (.frd 0x61) tableABC) = ok 0 ∧ answered (exec (.frd 0x62) treeB) = ok 5 ∧
    answered (exec .ftot treeAB) = ok 2 := by decide +kernel

/-- V-T6 and V-T1. -/
theorem test_ncnt : answered (exec .ncnt treeABC) = ok 0x805 ∧
    answered (exec .ncnt { State.reset with phase := .tree }) = ok 0x3FE00 := by decide +kernel

/-- V-T2 and V-T23. -/
theorem test_nwt : answered (exec (.nwt 0) treeB) = ok 5 ∧ answered (exec (.nwt 3) treeAB) = error .range := by
  decide +kernel

/-- V-T2, V-T6 and V-T24. -/
theorem test_nlk : answered (exec (.nlk 0) treeB) = ok 0x818BFFFF ∧ answered (exec (.nlk 3) treeABC) = ok 0x401 ∧
    answered (exec (.nlk 0x1FF) treeAB) = error .range := by decide +kernel

/-- V-G6. -/
theorem test_gen :
    (leaves (exec .gen treeABC)).codeword 0x61 = [false] ∧ (leaves (exec .gen treeABC)).codeword 0x62 = [true, true] ∧
    (leaves (exec .gen treeABC)).codeword 0x63 = [true, false] ∧ (leaves (exec .gen treeABC)).lenOf 0x64 = 0 := by
  decide +kernel

/-- V-G2. -/
theorem test_gen_one_symbol : (leaves (exec .gen treeB)).codeword 0x62 = [false] := by decide +kernel

/-- V-G27: the second `TSEL` empties the entry. -/
theorem test_tsel : (leaves (exec (.tsel 0x61) (withTable .load [(0x61, [true])]))).lenOf 0x61 = 0 ∧
    (leaves (exec (.tsel 0x61) (withTable .load [(0x61, [true])]))).tsym = 0x61 := by decide +kernel

/-- V-G20 (`b` = `11`, its second bit). -/
theorem test_tbit :
    (leaves (exec (.tbit true) { withTable .load [(0x62, [true])] with tsym := 0x62 })).codeword 0x62 = [true, true] := by
  decide +kernel

/-- V-G30: the 256th bit. -/
theorem test_tbit_range : answered (exec (.tbit true) (withTable .load [(0, List.replicate 255 true)])) = error .range := by
  decide +kernel

/-- V-G20, and a sealed table is not sealed again. -/
theorem test_tend : answered (exec .stat (leaves (exec .tend { tableABC with nsym := 0, phase := .load }))) = ok 0x303 ∧
    answered (exec .tend tableABC) = error .seq := by decide +kernel

/-- V-G25 and V-G26. -/
theorem test_tend_bad_table :
    answered (exec .tend (withTable .load [(0x61, [false]), (0x62, [false, true])])) = error .badTable ∧
    answered (exec .tend (withTable .load [(0x61, [true]), (0x62, [true])])) = error .badTable := by decide +kernel

/-- V-G21. -/
theorem test_tlen : answered (exec (.tlen 0x62) tableABC) = ok 2 ∧ answered (exec (.tlen 0x64) tableABC) = ok 0 := by
  decide +kernel

/-- V-G21, V-G22 and V-G23. -/
theorem test_tget : answered (exec (.tget 0x63 0) tableABC) = ok 1 ∧ answered (exec (.tget 0x63 1) tableABC) = ok 0 ∧
    answered (exec (.tget 0x63 2) tableABC) = error .range ∧ answered (exec (.tget 0x64 0) tableABC) = error .range := by
  decide +kernel

/-- The answers of V-G21 for `a`, `b`, `c` and a symbol without an entry, as the host reads them (rule R87). -/
theorem test_tableRead :
    tableRead [0x61, 0x62, 0x63, 0x64] ([1, 0, 2, 1, 1, 2, 1, 0, 0].map (fun d => { err := 0, data := d })) = codesABC := by
  decide +kernel

/-- V-E26: the smallest buffer. -/
theorem test_ebeg : answered (exec .ebeg { tableABC with obufSize := 1 }) = ok 0 ∧
    (leaves (exec .ebeg { tableABC with obufSize := 1 })).olen = 1 := by decide +kernel

/-- V-E6: after `0 0 0 11` the second `b` completes the byte 0x1F. -/
theorem test_enc :
    let t := leaves (exec (.enc 0x62) { encoding 6 1 300 with acc := 0x1C })
    t.obufAt 1 = 0x1F ∧ t.olen = 2 ∧ t.nacc = 0 ∧ t.acc = 0 := by decide +kernel

/-- V-E20 (program P4). -/
theorem test_enc_unknown_symbol : answered (exec (.enc 0x7A) (encoding 1 1 300)) = error .unknownSymbol := by decide +kernel

/-- V-E6: one bit `0` is left over. -/
theorem test_efin :
    let t := leaves (exec .efin { encoding 1 2 300 with obuf := [(1, 0x1F)] })
    t.obuf = [(0, 1), (1, 0x1F)] ∧ t.olen = 3 ∧ t.ovalid = true ∧ t.phase = .table := by decide +kernel

/-- V-E25. -/
theorem test_efin_full : answered (exec .efin (encoding 1 2 2)) = error .obufFull := by decide +kernel

/-- V-D1 and V-D7. -/
theorem test_dbeg : (leaves (exec (.dbeg 1) tableABC)).hdr = 1 ∧ answered (exec (.dbeg 8) tableABC) = error .malformedStream := by
  decide +kernel

/-- The table of V-D1 by hand: of 0x01 come seven `a`, and the candidate `1` is left. -/
theorem test_dpl :
    (fun t : State => (outBytes t, t.candidate, t.hold)) (leaves (exec (.dpl 0) (decoding 1 0x01 [] 300))) =
      (List.replicate 7 0x61, [true], 0) := by decide +kernel

/-- V-D16: the third `a` does not fit. -/
theorem test_dpl_full : answered (exec (.dpl 0) (decoding 1 0x1F [] 2)) = error .obufFull := by decide +kernel

/-- V-D1: the last bit makes the candidate `10`. -/
theorem test_dfin : outBytes (leaves (exec .dfin (decoding 1 0x00 [true] 300))) = [0x63] ∧
    (leaves (exec .dfin (decoding 1 0x00 [true] 300))).ovalid = true := by decide +kernel

/-- V-D6. -/
theorem test_dfin_malformed : answered (exec .dfin (decoding 1 0x80 [] 300)) = error .malformedStream := by decide +kernel

/-- V-O1 and V-D8b. -/
theorem test_olen : answered (exec .olen { tableABC with ovalid := true, olen := 3 }) = ok 3 ∧
    answered (exec .olen tableABC) = error .seq := by decide +kernel

/-- V-O1 and V-O3. -/
theorem test_ord :
    answered (exec (.ord 1) { tableABC with ovalid := true, olen := 3, obuf := [(0, 1), (1, 0x1F)] }) = ok 0x1F ∧
    answered (exec (.ord 0xFFFFFFFF) { tableABC with ovalid := true, olen := 3 }) = error .range := by decide +kernel

/-! ### Witnesses: the hypotheses of each statement hold together in a state shown here -/

/-- Only the symbols of the given codes have an entry. -/
theorem entry_listed {codes : List (Byte × Bits)} {r : State} {t : Byte} (h : (writeCodes codes r).lenOf t ≠ 0#8) :
    t ∈ codes.map Prod.fst := by
  by_contra hn
  refine h ?_
  have : ∀ (codes : List (Byte × Bits)) (s : State), t ∉ codes.map Prod.fst →
      (codes.foldl (fun s c => setCode c.1 c.2 s) s).lenOf t = s.lenOf t := by
    intro codes
    induction codes with
    | nil => exact fun s _ => rfl
    | cons c codes ih =>
      intro s hc
      simp only [List.map_cons, List.mem_cons, not_or] at hc
      rw [List.foldl_cons, ih _ hc.2, lenOf_setCode, if_neg hc.1]
  rw [writeCodes, this codes _ hn]
  simp [State.lenOf, fileRead]

theorem noMatch_of_codes (codes : List (Byte × Bits)) {r s : State} {q : Bits} (hl : s.len = (writeCodes codes r).len)
    (h : ∀ c ∈ codes, ¬ s.codeword c.1 <+: q) : NoMatchIn s q := by
  intro t ht
  rw [State.lenOf, hl] at ht
  obtain ⟨c, hc, rfl⟩ := List.mem_map.mp (entry_listed ht)
  exact h c hc

/-- A match in a session on the table of `tableABC` could only be one of its three codes. -/
theorem noMatchABC {s : State} {q : Bits} (hl : s.len = tableABC.len)
    (h : ∀ c ∈ codesABC, ¬ s.codeword c.1 <+: q) : NoMatchIn s q :=
  noMatch_of_codes (r := State.reset) codesABC hl h

/-- The table invariant of a table given by its codes. -/
theorem tableInv_of_codes (codes : List (Byte × Bits)) {r s : State} (hl : s.len = (writeCodes codes r).len)
    (hn : (codes.map Prod.fst).Nodup) (h0 : ∀ c ∈ codes, s.lenOf c.1 ≠ 0#8) (hk : s.k = codes.length)
    (hp : ∀ c ∈ codes, ∀ d ∈ codes, c.1 ≠ d.1 → ¬ s.codeword c.1 <+: s.codeword d.1) : TableInv s := by
  have hm : ∀ {t}, s.lenOf t ≠ 0#8 → t ∈ codes.map Prod.fst := fun {t} ht => by
    rw [State.lenOf, hl] at ht
    exact entry_listed ht
  constructor
  · intro t u htu ht hu
    obtain ⟨c, hc, rfl⟩ := List.mem_map.mp (hm ht)
    obtain ⟨d, hd, rfl⟩ := List.mem_map.mp (hm hu)
    exact hp c hc d hd htu
  · have : s.entries.Perm (codes.map Prod.fst) := by
      refine (List.perm_ext_iff_of_nodup (nodup_entries s) hn).mpr fun t => ?_
      simp only [State.entries, List.mem_filter, mem_allSymbols, true_and, decide_eq_true_eq]
      refine ⟨hm, fun ht => ?_⟩
      obtain ⟨c, hc, rfl⟩ := List.mem_map.mp ht
      exact h0 c hc
    rw [hk, this.length_eq, List.length_map]

theorem tableABC_inv : TableInv tableABC :=
  tableInv_of_codes (r := State.reset) codesABC rfl (by decide +kernel) (by decide +kernel) (by decide +kernel) (by decide +kernel)

theorem tableABC_stream : (codeStream tableABC [0x61, 0x62, 0x63]).length = 5 := by decide +kernel

theorem codeStream_congr {s t : State} (hl : t.len = s.len) (hb : t.bits = s.bits) (b : List Byte) :
    codeStream t b = codeStream s b := by
  have : t.codeword = s.codeword := by
    funext x
    simp only [State.codeword, State.lenOf, hl, hb]
  rw [codeStream, this, codeStream]

theorem small_stream {s : State} (hl : s.len = tableABC.len) (hb : s.bits = tableABC.bits) (h : 2 ≤ s.obufSize.toNat) :
    1 + ((codeStream s [0x61, 0x62, 0x63]).length + 7) / 8 ≤ s.obufSize.toNat := by
  rw [codeStream_congr hl hb, tableABC_stream]
  exact h

theorem covered_congr {s t : State} {b : List Byte} (hl : t.len = s.len) (h : Covered s b) : Covered t b := by
  intro x hx
  have := h x hx
  rwa [State.lenOf, ← hl] at this

theorem tableABC_covers : Covered tableABC [0x61, 0x62, 0x63] := by
  intro x hx
  simp only [List.mem_cons, List.not_mem_nil, or_false] at hx
  rcases hx with rfl | rfl | rfl <;> decide +kernel

/-- What the session states take from the table. -/
theorem prefixFree_congr {s t : State} (hl : t.len = s.len) (hb : t.bits = s.bits) (h : PrefixFree s) : PrefixFree t := by
  intro u v huv hu hv
  have := h u v huv
  simp only [State.lenOf, State.codeword, hl, hb] at *
  exact this hu hv

theorem tableInv_congr {s t : State} (hl : t.len = s.len) (hb : t.bits = s.bits) (hn : t.nsym = s.nsym) (h : TableInv s) :
    TableInv t :=
  ⟨prefixFree_congr hl hb h.prefixFree, by have := h.count; simp only [State.k, State.entries, State.lenOf, hl, hn] at *; exact this⟩

theorem encoding_packer (n : BitVec 3) (o z : BitVec 32) (h : 1 ≤ o.toNat) : PackerInv (encoding n o z) :=
  ⟨h, fun i _ => by
    have : (encoding n o z).acc = 0#8 := rfl
    simp [this]⟩

theorem decoding_table (h : BitVec 3) (v : Byte) (q : Bits) (z : BitVec 32) : TableInv (decoding h v q z) :=
  tableInv_congr (s := tableABC) rfl rfl rfl tableABC_inv

theorem reset_lenOf (t : Byte) : State.reset.lenOf t = 0#8 := by simp [State.lenOf, fileRead, State.reset]
theorem reset_freqOf (t : Byte) : State.reset.freqOf t = 0#32 := by simp [State.freqOf, fileRead, State.reset]

/-- A symbol that is not among the counts given has the count 0. -/
theorem counted_freqOf {counts : List (Byte × Weight)} {t : Byte} (h : t ∉ counts.map Prod.fst) :
    (counted counts).freqOf t = 0#32 := by
  have : ∀ (counts : List (Byte × Weight)) (s : State), t ∉ counts.map Prod.fst →
      (counts.foldl (fun s c => { s with freq := fileWrite s.freq c.1 c.2, total := s.total + c.2 }) s).freqOf t =
        s.freqOf t := by
    intro counts
    induction counts with
    | nil => exact fun s _ => rfl
    | cons c counts ih =>
      intro s hc
      simp only [List.map_cons, List.mem_cons, not_or] at hc
      rw [List.foldl_cons, ih _ hc.2, State.freqOf, fileRead_fileWrite_of_ne _ hc.1]
      rfl
  rw [counted, this counts _ h, reset_freqOf]

theorem countedAB_sum : TotalIsSum (counted [(0x61, 1), (0x62, 1)]) :=
  by unfold TotalIsSum; decide +kernel

theorem treeAB_inv : TreeInv treeAB where
  k_le := by decide +kernel
  nnodes_eq := by decide +kernel
  root_nil := by decide +kernel
  root_last := by decide +kernel
  leaves := by decide +kernel
  ascending := fun i j => by
    have : ∀ j, j < treeAB.k → ∀ i, i < j → (treeAB.nodeAt i).sym < (treeAB.nodeAt j).sym := by decide +kernel
    exact fun h g => this j g i h
  leaf_of_present := fun t ht => by
    have hm : t ∈ [(0x61, 1), (0x62, (1 : Weight))].map Prod.fst := by
      by_contra h
      exact ht (counted_freqOf h)
    have : ∀ u ∈ [(0x61, 1), (0x62, (1 : Weight))].map Prod.fst, ∃ i, i < treeAB.k ∧ (treeAB.nodeAt i).sym = u := by
      decide +kernel
    exact this t hm
  internal := by
    have : ∀ i, i < treeAB.nnodes.toNat → treeAB.k ≤ i → (treeAB.nodeAt i).leaf = false ∧ (treeAB.nodeAt i).sym = 0 ∧
        (treeAB.nodeAt i).left.toNat < i ∧ (treeAB.nodeAt i).right.toNat < i ∧
        (treeAB.nodeAt i).left ≠ (treeAB.nodeAt i).right ∧
        (treeAB.nodeAt i).w.toNat = (treeAB.nodeAt (treeAB.nodeAt i).left.toNat).w.toNat +
          (treeAB.nodeAt (treeAB.nodeAt i).right.toNat).w.toNat := by decide +kernel
    exact fun i h g => this i g h
  one_parent := by
    intro j hj hr
    refine ⟨2, ⟨by decide +kernel, by decide +kernel, ?_⟩, ?_⟩
    · have : ∀ j, j < treeAB.nnodes.toNat → j ≠ treeAB.root.toNat →
          (treeAB.nodeAt 2).left.toNat = j ∨ (treeAB.nodeAt 2).right.toNat = j := by decide +kernel
      exact this j hj hr
    · rintro i ⟨h1, h2, -⟩
      have : ∀ i, i < treeAB.nnodes.toNat → treeAB.k ≤ i → i = 2 := by decide +kernel
      exact this i h2 h1
  root_weight := by decide +kernel

theorem treeB_inv : TreeInv treeB where
  k_le := by decide +kernel
  nnodes_eq := by decide +kernel
  root_nil := by decide +kernel
  root_last := by decide +kernel
  leaves := by decide +kernel
  ascending := fun i j h g => by
    have : treeB.k = 1 := by decide +kernel
    omega
  leaf_of_present := fun t ht => by
    have hm : t ∈ [(0x62, (5 : Weight))].map Prod.fst := by
      by_contra h
      exact ht (counted_freqOf h)
    have : ∀ u ∈ [(0x62, (5 : Weight))].map Prod.fst, ∃ i, i < treeB.k ∧ (treeB.nodeAt i).sym = u := by decide +kernel
    exact this t hm
  internal := fun i h g => by
    have : treeB.k = 1 ∧ treeB.nnodes.toNat = 1 := by decide +kernel
    omega
  one_parent := fun j h g => by
    have : treeB.root.toNat = 0 ∧ treeB.nnodes.toNat = 1 := by decide +kernel
    omega
  root_weight := by decide +kernel

/-! ### Witnesses for the encoding statements -/

theorem witness_DecodeOfEncode : (Instr.tget 255 254).wellFormed = true ∧ (Instr.ord 0xFFFFFFFF).wellFormed = true := by
  decide +kernel
theorem witness_EncodeOfDecode : decode 0x51FFFFFFFF = .ok (.ord 0xFFFFFFFF) := by decide +kernel

/-- The last word of a row, and a word one row's mask covers and the neighbour's does not. -/
theorem witness_WordIsRowsCommandExactlyWhenMasked :
    ∃ row, row ∈ opcodeTable ∧ (0x16000001FF : CmdWord) &&& row.mask = row.pattern :=
  ⟨{ mnemonic := "NWT", form := .N, pattern := 0x1600000000, mask := 0xFFFFFFFE00 }, by decide +kernel, by decide +kernel⟩
theorem witness_UnmatchedWordRaisesIllegal :
    (∀ row ∈ opcodeTable, (0x1600000200 : CmdWord) &&& row.mask ≠ row.pattern) ∧ State.reset.phase ≠ .fault := by
  decide +kernel

/-! ### Witnesses for the statements about words, ports and reset -/

/-- The block with one input waiting. -/
def given (p : PortIn) (s : State) : State := { s with inputs := [p] }

theorem witness_StepRunsTheIssuedCommand :
    let p := issueInput 0x1000000061
    (given p State.reset).inputs = [p] ∧ p.rst = false ∧ p.cmdValid = true ∧ (given p State.reset).rsp = none ∧
    decode p.cmdWord = .ok (.cnt 0x61) := by decide +kernel

/-- An illegal word at the port, outside and inside phase `FAULT`. -/
theorem witness_StepRunsTheIssuedCommand_illegal :
    let p := issueInput 0x0300000000
    (given p State.reset).inputs = [p] ∧ p.rst = false ∧ p.cmdValid = true ∧ (given p State.reset).rsp = none ∧
    decode p.cmdWord = .error .unassignedOpcode ∧ State.reset.phase ≠ .fault ∧
    (given p faulted).inputs = [p] ∧ (given p faulted).rsp = none ∧ faulted.phase = .fault := by decide +kernel
theorem witness_WordsAreProcessedInOrder :
    (faulted.phase = .fault ∧ decode 0x0200000000 = .ok .stat) ∧
    (faulted.phase = .fault ∧ decode 0x1100000000 ≠ .ok .nop ∧ decode 0x1100000000 ≠ .ok .clr ∧
      decode 0x1100000000 ≠ .ok .stat) ∧
    (State.reset.phase ≠ .fault ∧ decode 0x0300000000 = .error .unassignedOpcode) ∧
    (State.reset.phase ≠ .fault ∧ decode 0x1200000000 = .ok .gen ∧ legal .gen State.reset = false) ∧
    (State.reset.phase ≠ .fault ∧ decode 0x1100000000 = .ok .bld ∧ legal .bld State.reset = true) := by
  decide +kernel
theorem witness_FaultedBlockAnswers :
    faulted.phase = .fault ∧ decode 0x0000000000 = .ok .nop ∧ decode 0x0200000000 = .ok .stat ∧
    decode 0x0100000000 = .ok .clr ∧ decode 0xFF00000000 ≠ .ok .nop ∧ decode 0xFF00000000 ≠ .ok .stat ∧
    decode 0xFF00000000 ≠ .ok .clr := by decide +kernel
theorem witness_LegalityTable :
    (State.reset.phase ≠ .fault ∧ legal .gen State.reset = false) ∧
    (legal (.cnt 0) State.reset = true ∧ completes (exec (.cnt 0) State.reset) = true ∧
      (leaves (exec (.cnt 0) State.reset)).rsp = ok 0) ∧
    (faulted.phase = .fault ∧ Instr.gen ≠ .nop ∧ Instr.gen ≠ .clr ∧ Instr.gen ≠ .stat) := by decide +kernel
theorem witness_FaultsArePrecise :
    ∃ t, exec .gen State.reset = .next t ∧ t.rsp = some { err := 2, data := 0 } :=
  ⟨leaves (exec .gen State.reset), next_leaves (by decide +kernel), by decide +kernel⟩
theorem witness_EveryCommandAnswers :
    (treeAB.phase = .tree → TreeInv treeAB) ∧ ∃ t, exec .gen treeAB = .next t :=
  ⟨fun _ => treeAB_inv, exists_next (by decide +kernel)⟩
theorem witness_PhaseTransitions :
    (∃ t, exec .bld State.reset = .next t ∧ t.rsp = ok 0) ∧ ∃ t, exec .gen State.reset = .next t ∧ t.rsp = error .seq :=
  ⟨⟨_, next_leaves (by decide +kernel), by decide +kernel⟩, ⟨_, next_leaves (by decide +kernel), by decide +kernel⟩⟩
theorem witness_ResetInputClearsTheBlock :
    let p := { PortIn.quiet with rst := true, cmdValid := true }
    (given p faulted).inputs = [p] ∧ p.rst = true := by decide +kernel

/-- A response is due: valid and taken, valid and not taken, not yet valid. -/
theorem witness_OneCommandOutstanding :
    let s := { given PortIn.quiet faulted with rsp := ok 0 }
    s.inputs = [PortIn.quiet] ∧ PortIn.quiet.rst = false ∧ s.rsp = ok 0 ∧ s.rspValid = true ∧
    State.rspValid { s with rspDelay := 1 } = false := by decide +kernel
theorem witness_BlockHoldsStateWhenIdle :
    State.reset.rsp = none ∧
    (∀ p, State.reset.inputs.head? = some p → p.rst = false ∧ p.cmdValid = false) ∧
    (∀ p, (given PortIn.quiet State.reset).inputs.head? = some p → p.rst = false ∧ p.cmdValid = false) :=
  ⟨rfl, fun p h => by simp [State.reset] at h, fun p h => by
    obtain rfl : PortIn.quiet = p := by simpa [given] using h
    decide⟩
theorem witness_ResponseIsDelivered :
    let ready := { PortIn.quiet with rspReady := true }
    let s := { faulted with rsp := ok 0, rspDelay := 2, inputs := [ready, ready, ready] }
    s.rsp = ok 0 ∧ s.inputs = List.replicate (s.rspDelay + 1) ready ++ [] := by decide +kernel
theorem witness_FirstErrorSticks :
    faulted.phase = .fault ∧ (∃ t, step (given (issueInput 0x3200000000) faulted) = .next t) ∧
    (∀ p, (given (issueInput 0x3200000000) faulted).inputs.head? = some p →
      p.rst = false ∧ (p.cmdValid = true → (given (issueInput 0x3200000000) faulted).rsp = none →
        p.cmdWord ≠ encode .clr)) :=
  ⟨rfl, exists_next (by decide +kernel), fun p h => by
    obtain rfl : issueInput 0x3200000000 = p := by simpa [given] using h
    exact ⟨rfl, fun _ _ => by decide +kernel⟩⟩

/-! ### Witnesses for the tree builder's statements -/

theorem witness_CntCountsBytesInAnyOrder :
    ((counted [(0, 0xFFFFFFFE)]).phase = .idle ∧ (counted [(0, 0xFFFFFFFE)]).total ≠ 0xFFFFFFFF#32) ∧
    ((counted [(0, 0xFFFFFFFF)]).phase = .idle ∧ (counted [(0, 0xFFFFFFFF)]).total = 0xFFFFFFFF#32) ∧
    (treeAB.phase ≠ .idle ∧ treeAB.phase ≠ .fault) := by decide +kernel
theorem witness_CntCountsBytesInAnyOrder_order :
    let s := counted [(0, 0xFFFFFFFD)]
    s.phase = .idle ∧ s.total.toNat + [0x61#8, 0x62#8].length ≤ 0xFFFFFFFF ∧ [0x61#8, 0x62#8].Perm [0x62#8, 0x61#8] ∧
    TotalIsSum s :=
  ⟨by decide +kernel, by decide +kernel, .swap _ _ _, by unfold TotalIsSum; decide +kernel⟩
theorem witness_CountsReadBack : treeAB.phase ≠ .fault := by decide
theorem witness_BldBuildsTheGreedyTree :
    (State.reset.phase = .idle ∧ State.reset.present.length = 0) ∧
    (let s := counted [(0x61, 1), (0xFF, 0xFFFFFFFE)]
     s.phase = .idle ∧ 0 < s.present.length ∧ ∃ i : Nat, s.present[i]? = some 0xFF) ∧
    (treeAB.phase ≠ .idle ∧ treeAB.phase ≠ .fault) :=
  ⟨⟨rfl, by simp [State.present, reset_freqOf]⟩, by
    have h : (counted [(0x61, 1), (0xFF, 0xFFFFFFFE)]).present = [0x61, 0xFF] := by decide +kernel
    exact ⟨rfl, by rw [h]; decide, 1, by rw [h]; rfl⟩, by decide +kernel⟩
theorem witness_BldEstablishesTheTreeInvariants :
    let s := counted [(0x61, 1), (0x62, 1)]
    s.phase = .idle ∧ TotalIsSum s ∧ ∃ t, exec .bld s = .next t :=
  ⟨rfl, countedAB_sum, exists_next (by decide +kernel)⟩
theorem witness_BldOfDegenerateAlphabets :
    (State.reset.phase = .idle ∧ ∀ x, State.reset.freqOf x = 0#32) ∧
    (let s := counted [(0x62, 5)]
     s.phase = .idle ∧ TotalIsSum s ∧ s.freqOf 0x62 ≠ 0#32 ∧ ∀ y, y ≠ 0x62#8 → s.freqOf y = 0#32) :=
  ⟨⟨rfl, reset_freqOf⟩, rfl, by unfold TotalIsSum; decide +kernel, by decide +kernel, fun y hy => counted_freqOf (by simpa using hy)⟩
theorem witness_NodeCountReadsBack : treeAB.phase = .tree ∧ State.reset.phase ≠ .tree ∧ State.reset.phase ≠ .fault := by
  decide +kernel
theorem witness_NodesReadBack :
    (treeAB.phase = .tree ∧ (2#9).toNat < treeAB.nnodes.toNat) ∧
    (treeAB.phase = .tree ∧ treeAB.nnodes.toNat ≤ (3#9).toNat) ∧
    (State.reset.phase ≠ .tree ∧ State.reset.phase ≠ .fault) := by decide +kernel

/-! ### Witnesses for the code table's statements -/

/-- Two symbols: the path `0` ends in the leaf `a`. One symbol. Another phase. -/
theorem witness_GenRecordsThePaths :
    (treeAB.phase = .tree ∧ TreeInv treeAB ∧ 2 ≤ treeAB.k ∧ walk treeAB treeAB.root [false] = some 0 ∧
      (treeAB.nodeAt (0#9).toNat).leaf = true) ∧
    (treeB.phase = .tree ∧ TreeInv treeB ∧ treeB.k = 1) ∧
    (State.reset.phase ≠ .tree ∧ State.reset.phase ≠ .fault) :=
  ⟨⟨rfl, treeAB_inv, by decide +kernel, by decide +kernel, by decide +kernel⟩, ⟨rfl, treeB_inv, by decide +kernel⟩, by decide +kernel⟩
theorem witness_GeneratedTableIsPrefixFree :
    treeAB.phase = .tree ∧ TreeInv treeAB ∧ ∃ t, exec .gen treeAB = .next t :=
  ⟨rfl, treeAB_inv, exists_next (by decide +kernel)⟩
theorem witness_GeneratedCodesAreComplete :
    treeAB.phase = .tree ∧ TreeInv treeAB ∧ 2 ≤ treeAB.k ∧ ∃ t, exec .gen treeAB = .next t :=
  ⟨rfl, treeAB_inv, by decide +kernel, exists_next (by decide +kernel)⟩
theorem witness_GeneratedCodesAreShort :
    treeAB.phase = .tree ∧ TreeInv treeAB ∧ 2 ≤ treeAB.k ∧ ∃ t, exec .gen treeAB = .next t :=
  witness_GeneratedCodesAreComplete
theorem witness_TselOpensAnEntry :
    State.reset.phase = .idle ∧ (withTable .load []).phase = .load ∧
    (tableABC.phase ≠ .idle ∧ tableABC.phase ≠ .load ∧ tableABC.phase ≠ .fault) := by decide +kernel
theorem witness_TbitExtendsTheEntry :
    (let s := withTable .load [(0, List.replicate 254 true)]
     s.phase = .load ∧ s.lenOf s.tsym ≠ 255#8) ∧
    (let s := withTable .load [(0, List.replicate 255 true)]
     s.phase = .load ∧ s.lenOf s.tsym = 255#8) ∧
    (State.reset.phase ≠ .load ∧ State.reset.phase ≠ .fault) := by decide +kernel

/-- Codes of which one is a prefix of the other. -/
def tableClash : State := withTable .load [(0x61, [false]), (0x62, [false, true])]

theorem witness_TendSealsPrefixFreeTables :
    (State.reset.phase = .idle ∧ PrefixFree State.reset) ∧
    ({ tableABC with phase := .load }.phase = .load ∧ PrefixFree { tableABC with phase := .load }) ∧
    (tableClash.phase = .load ∧ ¬ PrefixFree tableClash) ∧
    (tableABC.phase ≠ .idle ∧ tableABC.phase ≠ .load ∧ tableABC.phase ≠ .fault) :=
  ⟨⟨rfl, fun t _ _ ht => absurd (reset_lenOf t) ht⟩, ⟨rfl, prefixFree_congr (s := tableABC) rfl rfl tableABC_inv.prefixFree⟩,
    ⟨rfl, fun h => h 0x61 0x62 (by decide) (by decide +kernel) (by decide +kernel) (by decide +kernel)⟩, by decide +kernel⟩
theorem witness_TableReadsBack :
    (tableABC.phase = .table ∧ (tableABC.codeword 0x63)[(1#8).toNat]? = some false ∧ tableABC.lenOf 0x63 ≤ 2#8) ∧
    (State.reset.phase ≠ .table ∧ State.reset.phase ≠ .fault) := by decide +kernel
theorem witness_LoadedTableEqualsTheOneRead :
    TableInv tableABC ∧ tableABC.phase = .table ∧ State.reset.phase = .idle ∧ ∀ x, State.reset.lenOf x = 0#8 :=
  ⟨tableABC_inv, rfl, rfl, reset_lenOf⟩
theorem witness_SealedTableIsFrozen : tableABC.phase = .table ∧ Instr.ebeg ≠ .clr ∧ ∃ t, exec .ebeg tableABC = .next t :=
  ⟨rfl, by decide, exists_next (by decide +kernel)⟩

/-! ### Witnesses for the encoder's statements -/

theorem witness_EbegOpensASession :
    (let s := { tableABC with obufSize := 1 }
     s.phase = .table ∧ s.obufSize ≠ 0#32) ∧ (State.reset.phase ≠ .table ∧ State.reset.phase ≠ .fault) := by
  decide +kernel

/-- The bit of `a` completes the byte, which is the last one that fits; does not fit; the byte `z` has no entry. -/
theorem witness_EncPacksTheCodeword :
    (let s := encoding 7 1 2
     s.phase = .encode ∧ PackerInv s ∧ s.olen.toNat ≤ s.obufSize.toNat ∧ s.lenOf 0x61 ≠ 0#8 ∧
     s.olen.toNat + (s.nacc.toNat + (s.lenOf 0x61).toNat) / 8 ≤ s.obufSize.toNat ∧ s.lenOf 0x7A = 0#8) ∧
    (let s := encoding 7 1 1
     s.phase = .encode ∧ PackerInv s ∧ s.olen.toNat ≤ s.obufSize.toNat ∧ s.lenOf 0x61 ≠ 0#8 ∧
     s.obufSize.toNat < s.olen.toNat + (s.nacc.toNat + (s.lenOf 0x61).toNat) / 8) :=
  ⟨⟨rfl, encoding_packer _ _ _ (by decide), by decide +kernel, by decide +kernel, by decide +kernel, by decide +kernel⟩,
    ⟨rfl, encoding_packer _ _ _ (by decide), by decide +kernel, by decide +kernel, by decide +kernel⟩⟩
theorem witness_EfinWritesTheHeader :
    (let s := encoding 0 1 1
     s.phase = .encode ∧ 1 ≤ s.olen.toNat ∧ s.nacc = 0#3) ∧
    (let s := encoding 1 1 2
     s.phase = .encode ∧ 1 ≤ s.olen.toNat ∧ s.nacc ≠ 0#3 ∧ s.olen ≠ s.obufSize) ∧
    (let s := encoding 1 1 1
     s.phase = .encode ∧ s.nacc ≠ 0#3 ∧ s.olen = s.obufSize) ∧
    (tableABC.phase ≠ .encode ∧ tableABC.phase ≠ .fault) := by decide +kernel

/-- Five bits in a buffer of two bytes. -/
theorem witness_SessionPacksTheCodeStream :
    let s := { tableABC with obufSize := 2 }
    s.phase = .table ∧ Covered s [0x61, 0x62, 0x63] ∧
    1 + ((codeStream s [0x61, 0x62, 0x63]).length + 7) / 8 ≤ s.obufSize.toNat :=
  ⟨rfl, covered_congr (s := tableABC) rfl tableABC_covers, small_stream rfl rfl (by decide)⟩

/-! ### Witnesses for the decoder's statements -/

theorem witness_DbegOpensASession :
    tableABC.phase = .table ∧ (7#8).toNat ≤ 7 ∧ 7 < (8#8).toNat ∧ (State.reset.phase ≠ .table ∧ State.reset.phase ≠ .fault) := by
  decide +kernel

/-- Nothing held; and the candidate `1` with the byte 0xFF: `11` four times, `1` left, the buffer just large enough. -/
theorem witness_DplDecodesTheHeldByte :
    (let s := { decoding 0 0 [] 300 with holdV := false }
     s.phase = .decode ∧ TableInv s ∧ DecoderInv s ∧ s.olen.toNat ≤ s.obufSize.toNat ∧ s.holdV = false) ∧
    (let s := decoding 0 0xFF [true] 4
     let b : List Byte := [0x62, 0x62, 0x62, 0x62]
     s.phase = .decode ∧ TableInv s ∧ DecoderInv s ∧ s.olen.toNat ≤ s.obufSize.toNat ∧ s.holdV = true ∧ Covered s b ∧
     NoMatchIn s [true] ∧ [true].length ≤ 254 ∧ s.candidate ++ bitsMsbFirst s.hold = codeStream s b ++ [true] ∧
     s.olen.toNat + b.length ≤ s.obufSize.toNat) :=
  ⟨⟨rfl, tableInv_congr (s := decoding 0 0 [] 300) rfl rfl rfl (decoding_table 0 0 [] 300), ⟨by decide +kernel, noMatchABC rfl (by decide +kernel)⟩, by decide +kernel, rfl⟩,
    ⟨rfl, decoding_table .., ⟨by decide +kernel, noMatchABC rfl (by decide +kernel)⟩, by decide +kernel, by decide +kernel,
      by unfold Covered; decide +kernel, noMatchABC rfl (by decide +kernel), by decide, by decide +kernel, by decide +kernel⟩⟩

/-- The table `a` = `0` alone, 247 ones in the candidate. -/
def starving : State :=
  setCand (List.replicate 247 true)
    { withTable .decode [(0x61, [false])] with hold := 0xFF, holdV := true }

theorem starving_noMatch {q : Bits} (h : ∀ c ∈ [((0x61 : Byte), [false])], ¬ starving.codeword c.1 <+: q) :
    NoMatchIn starving q :=
  noMatch_of_codes (r := State.reset) [(0x61, [false])] rfl h

theorem witness_DecodingFaults :
    (starving.phase = .decode ∧ TableInv starving ∧ DecoderInv starving ∧ starving.olen.toNat ≤ starving.obufSize.toNat ∧
      starving.holdV = true ∧ NoMatchIn starving (starving.candidate ++ bitsMsbFirst starving.hold) ∧
      255 ≤ (starving.candidate ++ bitsMsbFirst starving.hold).length) ∧
    (let s := decoding 3 0x1F [] 2
     let q := (bitsMsbFirst s.hold).take (if s.hdr = 0#3 then 8 else s.hdr.toNat)
     s.phase = .decode ∧ TableInv s ∧ DecoderInv s ∧ s.olen.toNat ≤ s.obufSize.toNat ∧ s.holdV = true ∧
     Covered s ([0x61, 0x61] ++ [0x61]) ∧ s.candidate ++ q = codeStream s ([0x61, 0x61] ++ [0x61]) ++ [] ∧
     s.olen.toNat + [0x61#8, 0x61#8].length = s.obufSize.toNat) :=
  ⟨⟨rfl, tableInv_of_codes (r := State.reset) [(0x61, [false])] rfl (by decide +kernel) (by decide +kernel)
      (by decide +kernel) (by decide +kernel), ⟨by decide +kernel, starving_noMatch (by decide +kernel)⟩,
      by decide +kernel, by decide +kernel, starving_noMatch (by decide +kernel), by decide +kernel⟩,
    ⟨rfl, decoding_table .., ⟨by decide +kernel, noMatchABC rfl (by decide +kernel)⟩, by decide +kernel, by decide +kernel,
      by unfold Covered; decide +kernel, by decide +kernel, by decide +kernel⟩⟩

/-- Header 1: the byte 0x00 completes `10`; the byte 0x80 after nothing leaves `1`; nothing held at all. -/
theorem witness_DfinEndsTheSession :
    let bits := fun s : State => s.candidate ++ (if s.holdV then
      (bitsMsbFirst s.hold).take (if s.hdr = 0#3 then 8 else s.hdr.toNat) else [])
    (let s := decoding 1 0x00 [true] 1
     s.phase = .decode ∧ TableInv s ∧ DecoderInv s ∧ s.olen.toNat ≤ s.obufSize.toNat ∧ Covered s [0x63] ∧ NoMatchIn s [] ∧
     bits s = codeStream s [0x63] ++ [] ∧ s.olen.toNat + [0x63#8].length ≤ s.obufSize.toNat) ∧
    (let s := decoding 1 0x80 [] 1
     s.phase = .decode ∧ TableInv s ∧ DecoderInv s ∧ s.olen.toNat ≤ s.obufSize.toNat ∧ Covered s [] ∧ NoMatchIn s [true] ∧
     bits s = codeStream s [] ++ [true] ∧ s.olen.toNat + ([] : List Byte).length ≤ s.obufSize.toNat) ∧
    (let s := { decoding 5 0x00 [] 1 with holdV := false }
     bits s = codeStream s [] ++ []) :=
  ⟨⟨rfl, decoding_table .., ⟨by decide +kernel, noMatchABC rfl (by decide +kernel)⟩, by decide +kernel,
      by unfold Covered; decide +kernel, noMatchIn_nil _, by decide +kernel, by decide +kernel⟩,
    ⟨rfl, decoding_table .., ⟨by decide +kernel, noMatchABC rfl (by decide +kernel)⟩, by decide +kernel,
      by unfold Covered; decide +kernel, noMatchABC rfl (by decide +kernel), by decide +kernel, by decide +kernel⟩, by decide +kernel⟩
theorem witness_EmptySessions :
    tableABC.phase = .table ∧ (7#8).toNat ≤ 7 ∧ { tableABC with obufSize := 1 }.obufSize ≠ 0#32 := by decide +kernel
theorem witness_SessionCommandsNeedASession :
    tableABC.phase ≠ .fault ∧ tableABC.phase ≠ .decode ∧ tableABC.phase ≠ .encode := by decide +kernel

/-! ### Witnesses for the output buffer's statements and the whole machine -/

theorem witness_OutputReadsBack :
    (let s := { tableABC with ovalid := true, olen := 3 }
     s.phase = .table ∧ s.ovalid = true ∧ (2#32).toNat < s.olen.toNat ∧ s.olen.toNat ≤ (3#32).toNat) ∧
    (tableABC.phase ≠ .fault ∧ ¬ (tableABC.phase = .table ∧ tableABC.ovalid = true)) := by decide +kernel
theorem witness_NoOutputWhileInvalid :
    tableABC.ovalid = false ∧ (∃ t, exec (.ord 0) tableABC = .next t) ∧
    ∃ u, exec (.ord 0) { tableABC with obuf := [(0, 7)] } = .next u :=
  ⟨rfl, exists_next (by decide +kernel), exists_next (by decide +kernel)⟩

/-- A state of the phase `IDLE` in which no tree and no table was made meets the invariant. -/
theorem idle_inv {s : State} (hp : s.phase = .idle) (he : s.err = none) (hv : s.ovalid = false) (hk : s.k = 0)
    (hl : ∀ t, s.lenOf t = 0#8) (hs : TotalIsSum s) (hn : s.nnodes = 0#9) (hr : s.root = Config.nil)
    (hz : s.obufSize ≠ 0#32) (ho : s.olen.toNat ≤ s.obufSize.toNat) (hw : s.obuf.wf)
    (hi : ∀ c ∈ s.obuf, c.1 < s.obufSize.toNat) (hrsp : s.rsp = none) (hd : s.delivered = []) : Inv s where
  err_iff_fault := by simp [hp, he]
  ovalid_table := by simp [hv]
  total_sum := hs
  size_pos := hz
  olen_le := ho
  obuf_wf := hw
  obuf_inside := hi
  nsym_le := by omega
  idle_empty := fun _ => ⟨hk, hl⟩
  load_unsealed := fun _ => hk
  tree_gone := fun _ _ => ⟨hn, hr⟩
  tree := by simp [hp]
  table := by simp [hp]
  packer := by simp [hp]
  decoder := by simp [hp]
  responses_ok := by simp [hrsp, hd]

theorem counted_inv : Inv (counted [(0x61, 1), (0x62, 1)]) :=
  idle_inv rfl rfl rfl rfl reset_lenOf countedAB_sum rfl rfl (by decide +kernel) (by decide +kernel)
    ⟨.nil, by simp [counted, State.reset]⟩ (by simp [counted, State.reset]) rfl rfl

theorem counted_inv_stale : Inv { counted [(0x61, 1), (0x62, 1)] with obuf := [(5, 7)] } :=
  idle_inv rfl rfl rfl rfl reset_lenOf countedAB_sum rfl rfl (by decide +kernel) (by decide +kernel)
    ⟨by simp, by simp⟩ (by simp [counted, State.reset, Config.obufSize]) rfl rfl

theorem witness_UnreadableContentsNeverShow :
    let s := counted [(0x61, 1), (0x62, 1)]
    let u := { s with obuf := [(5, 7)] }
    Inv s ∧ Inv u ∧ SameReadable s u ∧ s ≠ u ∧ ∃ t, exec .bld s = .next t :=
  ⟨counted_inv, counted_inv_stale, ⟨rfl, fun _ _ => rfl, fun _ => rfl, rfl, fun a ha => by simp [counted, State.reset] at ha⟩,
    fun h => by simpa [counted, State.reset] using congrArg State.obuf h, exists_next (by decide +kernel)⟩
theorem witness_ReadsAreIdempotent :
    ∃ t, exec (.frd 0x61) treeAB = .next t ∧ t.rsp = some { err := 0, data := 1 } :=
  ⟨_, next_leaves (by decide +kernel), by decide +kernel⟩
theorem witness_StepKeepsTheInvariant :
    ∃ s t, Inv s ∧ step s = .next t :=
  ⟨_, _, counted_inv, next_leaves (by decide +kernel)⟩
theorem witness_BlockNeverHalts : ∃ s, Inv s := ⟨_, counted_inv⟩
theorem witness_SessionRoundTrip :
    let s := { tableABC with obufSize := 2 }
    let u := { tableABC with obufSize := 3 }
    let b : List Byte := [0x61, 0x62, 0x63]
    s.phase = .table ∧ TableInv s ∧ Covered s b ∧ 1 + ((codeStream s b).length + 7) / 8 ≤ s.obufSize.toNat ∧
    u.phase = .table ∧ SameTable u s ∧ b.length ≤ u.obufSize.toNat :=
  ⟨rfl, tableInv_congr (s := tableABC) rfl rfl rfl tableABC_inv, covered_congr (s := tableABC) rfl tableABC_covers, small_stream rfl rfl (by decide), rfl, fun _ => ⟨rfl, rfl⟩, by decide +kernel⟩

/-- The input `a`: its code is one bit long, and two bytes hold its packed stream. -/
theorem witness_CompressThenDecompressIsIdentity :
    let s := { State.reset with obufSize := 2 }
    [0x61#8].length ≤ 0xFFFFFFFF ∧
    ∃ u, execAll (makeTable [0x61]) s = .next u ∧ 1 + ((codeStream u [0x61]).length + 7) / 8 ≤ s.obufSize.toNat ∧
      [0x61#8].length ≤ s.obufSize.toNat :=
  ⟨by decide, _, next_leaves (by decide +kernel), by decide +kernel, by decide +kernel⟩
theorem witness_CountedInputBitCount : [0x61#8].length ≤ 0xFFFFFFFF := by decide
theorem witness_CompressionIsDeterministic : State.reset.obufSize = faulted.obufSize := rfl

end Sys2Proof.Machine
end

/-! ## The tree of `BLD` (rules R30, R113) and how decoding fails (rules R172, R177) -/

namespace Sys2Proof.Machine

/-- No node comes before itself (rule R114). -/
theorem Before.irrefl (m : Vector Node 511) (i : Nat) : ¬ Before m i i := by
  simp [Before]

/-- The two children of a greedily made node differ. -/
theorem Greedy.left_ne_right {m : Vector Node 511} {k i : Nat} (h : Greedy m k i) :
    (nodeRead m i).left ≠ (nodeRead m i).right := fun e =>
  Before.irrefl m _ (e ▸ h.before)

/-- A node is taken by at most one merge: the later of two parents would take a node no longer active. -/
theorem Greedy.parent_unique {m : Vector Node 511} {k i j c : Nat} (hi : Greedy m k i) (hj : Greedy m k j) (hki : k ≤ i)
    (hkj : k ≤ j) (hci : (nodeRead m i).left.toNat = c ∨ (nodeRead m i).right.toNat = c)
    (hcj : (nodeRead m j).left.toNat = c ∨ (nodeRead m j).right.toNat = c) : i = j := by
  have active_child : ∀ {p}, Greedy m k p → ((nodeRead m p).left.toNat = c ∨ (nodeRead m p).right.toNat = c) →
      Active m k p c := by
    rintro p hp (rfl | rfl)
    · exact hp.left
    · exact hp.right
  rcases Nat.lt_trichotomy i j with hlt | heq | hlt
  · have := (active_child hj hcj).2 i hki hlt
    exact absurd hci (not_or.mpr this)
  · exact heq
  · have := (active_child hi hci).2 j hkj hlt
    exact absurd hcj (not_or.mpr this)

/-- A node that is not active any more has a parent. -/
theorem exists_parent_of_not_active {m : Vector Node 511} {k n j : Nat} (hj : j < n) (h : ¬ Active m k n j) :
    ∃ i, k ≤ i ∧ i < n ∧ ((nodeRead m i).left.toNat = j ∨ (nodeRead m i).right.toNat = j) := by
  by_contra hno
  refine h ⟨hj, fun i hk hi => not_or.mp fun hc => hno ⟨i, hk, hi, hc⟩⟩

/-- The leaves of the finished tree are those `BLD` wrote first: no merge overwrites them (rule R113). -/
theorem nodeAt_buildWrites_leaf (s : State) {i : Nat} (hi : i < s.present.length) : (buildWrites s).nodeAt i =
    { leaf := true, sym := s.present[i], w := s.freqOf s.present[i], left := Config.nil, right := Config.nil } :=
  ((buildTree_merging s).1.leaves i hi).trans (nodeRead_leaves s hi)

/-- The writes of `BLD` meet all of rule R30 where `TOTAL` is the sum of the counts. -/
theorem treeInv_buildWrites {s : State} (hs : TotalIsSum s) : TreeInv (buildWrites s) := by
  obtain ⟨hm, -, hw⟩ := buildTree_merging s
  have hw := hw hs
  have hc := buildCounts s
  have hk := hc.k_eq
  have greedy : ∀ i, (buildWrites s).k ≤ i → i < (buildWrites s).nnodes.toNat →
      Greedy (buildTree s).mem s.present.length i := fun i h1 h2 =>
    hm.greedy i (hk ▸ h1) (hc.made ▸ h2)
  constructor
  case k_le => exact hk ▸ length_present_le s
  case nnodes_eq => rw [hk]; exact hc.nnodes_eq
  case root_nil => exact fun h => hc.root_nil (hk ▸ h)
  case root_last => exact fun h => hc.root_last (hk ▸ h)
  case leaves =>
    intro i hi
    rw [nodeAt_buildWrites_leaf s (hk ▸ hi)]
    exact ⟨rfl, rfl, rfl, rfl, mem_present.mp (List.getElem_mem _)⟩
  case ascending =>
    intro i j hij hj
    rw [hk] at hj
    rw [nodeAt_buildWrites_leaf s (Nat.lt_trans hij hj), nodeAt_buildWrites_leaf s hj]
    exact List.pairwise_iff_getElem.mp (pairwise_present s) i j _ _ hij
  case leaf_of_present =>
    intro t ht
    have hmem : t ∈ s.present := mem_present.mpr ht
    obtain ⟨i, hi, rfl⟩ := List.getElem_of_mem hmem
    exact ⟨i, hk ▸ hi, by rw [nodeAt_buildWrites_leaf s hi]⟩
  case internal =>
    intro i h1 h2
    have hg := greedy i h1 h2
    exact ⟨hg.leaf, hg.sym, hg.left.1, hg.right.1, hg.left_ne_right, hw.exact i (hk ▸ h1) (hc.made ▸ h2)⟩
  case one_parent =>
    intro j hj hroot
    have h0 : 0 < s.present.length := by
      have := hc.nnodes_eq
      split at this <;> omega
    have hna : ¬ Active (buildTree s).mem s.present.length (buildTree s).n j := by
      rw [← hm.active, hc.active h0, List.mem_singleton]
      exact hroot
    obtain ⟨i, h1, h2, hi⟩ := exists_parent_of_not_active (hc.made ▸ hj) hna
    rw [← hk] at h1
    rw [hc.made] at h2
    refine ⟨i, ⟨h1, h2, hi⟩, fun i' ⟨h1', h2', hi'⟩ => ?_⟩
    exact (greedy i' h1' h2').parent_unique (greedy i h1 h2) (hk ▸ h1') (hk ▸ h1) hi' hi
  case root_weight =>
    intro h0
    have := hw.sum
    rw [hc.active (hk ▸ h0), List.map_singleton, List.sum_singleton] at this
    exact BitVec.eq_of_toNat_eq this

/-- `BLD` in phase `IDLE` makes its writes and answers 0 (rule R113). -/
theorem exec_bld_of_idle {s : State} (h : s.phase = .idle) : exec .bld s = .next (respond 0 (buildWrites s)) := by
  have hl : legal .bld s = true := by simp [legal, h]
  show command (legal .bld s) (fun s => finish s (.ok (buildWrites s)) (fun _ => 0)) s = _
  rw [hl, command_of_legal (by simp [h]), finish_ok]

/-- The tree invariants look at six registers. -/
theorem TreeInv.congr {s t : State} (h : TreeInv s) (hnsym : t.nsym = s.nsym) (hfreq : t.freq = s.freq)
    (htotal : t.total = s.total) (hnode : t.node = s.node) (hnnodes : t.nnodes = s.nnodes) (hroot : t.root = s.root) :
    TreeInv t := by
  have ht : TreeInv { t with
      nsym := s.nsym, freq := s.freq, total := s.total, node := s.node, nnodes := s.nnodes, root := s.root } :=
    ⟨h.k_le, h.nnodes_eq, h.root_nil, h.root_last, h.leaves, h.ascending, h.leaf_of_present, h.internal, h.one_parent,
      h.root_weight⟩
  rwa [← hnsym, ← hfreq, ← htotal, ← hnode, ← hnnodes, ← hroot] at ht

/-- Settles O25: the loop's invariant (`Merging`) and the weights' (`Weighed`) give each clause of rule R30. -/
theorem bldEstablishesTheTreeInvariants : Obligations.BldEstablishesTheTreeInvariants := by
  intro s t hidle hs ht
  rw [exec_bld_of_idle hidle] at ht
  cases ht
  exact (treeInv_buildWrites hs).congr rfl rfl rfl rfl rfl rfl

/-! ### How decoding fails -/

/-- A command that the phase accepts and whose own rule ends in the error `e` raises `e` (rules R89 and R201). -/
theorem command_raises {l : Bool} {s : State} {r : Working} {d : State → BitVec 32} {e : ErrorCode}
    (hp : s.phase ≠ .fault) (hl : l = true) (hr : r = .error e) :
    command l (fun _ => finish s r d) s = .next (raise e s) := by
  rw [hl, command_of_legal hp, hr, finish_error]

/-- `DPL` fails as the feeding of the held byte fails (rule R173). -/
theorem dpl_raises {s : State} {x : Byte} {e : ErrorCode} (hp : s.phase = .decode) (hv : s.holdV = true)
    (hf : feedBits (bitsMsbFirst s.hold) s = .error e) : Raises (.dpl x) s e :=
  command_raises (r := takePayload x s) (by simp [hp]) (by simp [legal, hp]) (by simp [takePayload, hv, hf, Except.map])

/-- `DFIN` fails as the feeding of the held byte's valid bits fails (rule R174). -/
theorem dfin_raises {s : State} {e : ErrorCode} (hp : s.phase = .decode) (hv : s.holdV = true)
    (hf : feedBits ((bitsMsbFirst s.hold).take (lastValidBits s.hdr)) s = .error e) : Raises .dfin s e :=
  command_raises (r := endDecode s) (by simp [hp]) (by simp [legal, hp])
    (by simp [endDecode, hv, hf, Except.map, Except.bind])

/-- Settles O45: both commands fail as `feedBits` does, and `feedBits` fails at 255 bits and at a full buffer. -/
theorem decodingFaults : Obligations.DecodingFaults := by
  intro s x hp ht hd _ hv i q hi
  have raises : ∀ e, feedBits q s = .error e → Raises i s e := by
    intro e he
    rcases hi with ⟨rfl, rfl⟩ | ⟨rfl, rfl⟩
    · exact dpl_raises hp hv he
    · exact dfin_raises hp hv he
  exact ⟨fun hn hl => raises _ (feedBits_malformed q hd.short hn hl),
    fun b y rest hb he hfull => raises _ (feedBits_full b ht.prefixFree hd.noMatch hb he hfull)⟩

end Sys2Proof.Machine

/-! ## What the unreadable contents can reach (rules R24 and R40)

One relation serves both noninterference statements. `Alike shown s u` is `SameReadable`, but asks that the written bytes of
the output buffer agree only when `shown` holds; every command keeps it. -/

namespace Sys2Proof.Machine

/-- Two states that differ at most in node entries that are not valid, in the storage of `BITS` beyond `LEN` and of `CAND`
beyond `CLEN`, and in the output buffer: anywhere, or beyond `OLEN` only, when `shown` holds. -/
structure Alike (shown : Prop) (s u : State) : Prop where
  rest : { s with node := u.node, bits := u.bits, cand := u.cand, obuf := u.obuf } = u
  node : ∀ i, i < s.nnodes.toNat → s.nodeAt i = u.nodeAt i
  code : ∀ x, s.codeword x = u.codeword x
  cand : s.candidate = u.candidate
  obuf : shown → ∀ a, a < s.olen.toNat → s.obufAt a = u.obufAt a

theorem alike_true_iff {s u : State} : Alike True s u ↔ SameReadable s u :=
  ⟨fun h => ⟨h.rest, h.node, h.code, h.cand, h.obuf trivial⟩, fun h => ⟨h.rest, h.node, h.code, h.cand, fun _ => h.obuf⟩⟩

theorem alike_false_obuf (s : State) (m : Memory) : Alike False s { s with obuf := m } :=
  ⟨rfl, fun _ _ => rfl, fun _ => rfl, rfl, False.elim⟩

/-- Two working states are alike, or the same error is raised. -/
inductive WorkingAlike (shown : Prop) : Working → Working → Prop where
  | ok {s u : State} : Alike shown s u → WorkingAlike shown (.ok s) (.ok u)
  | error (e : ErrorCode) : WorkingAlike shown (.error e) (.error e)

/-- Where the first outcome is a next state, so is the second, and the two are alike. -/
def OutcomeAlike (shown : Prop) (o o' : Outcome) : Prop := ∀ t, o = .next t → ∃ v, o' = .next v ∧ Alike shown t v

section
variable {shown : Prop} {s u : State}

/-! ### The common steps -/

theorem Alike.respond (h : Alike shown s u) (d : BitVec 32) : Alike shown (respond d s) (respond d u) :=
  ⟨congrArg (Machine.respond d) h.rest, h.node, h.code, h.cand, h.obuf⟩

theorem Alike.raise (h : Alike shown s u) (e : ErrorCode) : Alike shown (raise e s) (raise e u) :=
  ⟨congrArg (Machine.raise e) h.rest, h.node, h.code, h.cand, h.obuf⟩

theorem Alike.answerFaulted (h : Alike shown s u) : Alike shown (answerFaulted s) (answerFaulted u) :=
  ⟨congrArg Machine.answerFaulted h.rest, h.node, h.code, h.cand, h.obuf⟩

/-- What does not look at the four contents is the same in both states. -/
theorem Alike.view {α : Type} (h : Alike shown s u) (f : State → α)
    (hf : ∀ n b c m, f { s with node := n, bits := b, cand := c, obuf := m } = f s := by intros; rfl) : f s = f u :=
  (hf _ _ _ _).symm.trans (congrArg f h.rest)

theorem Alike.phase (h : Alike shown s u) : s.phase = u.phase := h.view State.phase

theorem Alike.rsp (h : Alike shown s u) : s.rsp = u.rsp := h.view State.rsp

/-- Everything but the four contents is the same. -/
theorem Alike.overlay (h : Alike shown s u) : ∃ n b c m, u = { s with node := n, bits := b, cand := c, obuf := m } :=
  ⟨_, _, _, _, h.rest.symm⟩

/-- Both states accept the same commands: rule R90 looks at `PHASE` and `OVALID` alone. -/
theorem Alike.legal (h : Alike shown s u) (i : Instr) : legal i s = legal i u := by
  obtain ⟨n, b, c, m, rfl⟩ := h.overlay
  cases i <;> rfl

theorem OutcomeAlike.next (h : Alike shown s u) : OutcomeAlike shown (.next s) (.next u) := by
  rintro t ⟨⟩
  exact ⟨u, rfl, h⟩

theorem WorkingAlike.bind {r r' : Working} {f f' : State → Working} (h : WorkingAlike shown r r')
    (hf : ∀ s u, Alike shown s u → WorkingAlike shown (f s) (f' u)) : WorkingAlike shown (r.bind f) (r'.bind f') := by
  cases h with
  | ok h => exact hf _ _ h
  | error e => exact .error e

theorem WorkingAlike.map {r r' : Working} {f f' : State → State} (h : WorkingAlike shown r r')
    (hf : ∀ s u, Alike shown s u → Alike shown (f s) (f' u)) : WorkingAlike shown (r.map f) (r'.map f') := by
  cases h with
  | ok h => exact .ok (hf _ _ h)
  | error e => exact .error e

theorem WorkingAlike.ite {c c' : Prop} [Decidable c] [Decidable c'] {r r' q q' : Working} (hc : c ↔ c')
    (hr : WorkingAlike shown r r') (hq : WorkingAlike shown q q') :
    WorkingAlike shown (if c then r else q) (if c' then r' else q') := by
  by_cases h : c
  · rwa [if_pos h, if_pos (hc.mp h)]
  · rwa [if_neg h, if_neg (mt hc.mpr h)]

/-- A command that answers 0 ends alike where its working states are alike. -/
theorem finish_alike {r r' : Working} (h : Alike shown s u) (hr : WorkingAlike shown r r') :
    OutcomeAlike shown (finish s r (fun _ => 0)) (finish u r' (fun _ => 0)) := by
  cases hr with
  | ok hr => exact .next (hr.respond 0)
  | error e => exact .next (h.raise e)

/-- The common steps of rule R89 keep the relation when the command's own rule does. -/
theorem command_alike {l l' : Bool} {run : State → Outcome} (h : Alike shown s u) (hl : l = l')
    (hrun : l = true → OutcomeAlike shown (run s) (run u)) : OutcomeAlike shown (command l run s) (command l' run u) := by
  subst hl
  by_cases hp : s.phase = .fault
  · rw [command_of_fault hp, command_of_fault (h.phase ▸ hp)]
    exact .next h.answerFaulted
  · cases l with
    | true =>
      rw [command_of_legal hp, command_of_legal (h.phase ▸ hp)]
      exact hrun rfl
    | false =>
      rw [command_of_not_legal hp, command_of_not_legal (h.phase ▸ hp)]
      exact .next (h.raise .seq)

/-- A command that writes and answers 0. -/
theorem write_alike (h : Alike shown s u) (i : Instr) {work : State → Working}
    (hw : WorkingAlike shown (work s) (work u)) :
    OutcomeAlike shown (command (legal i s) (fun s => finish s (work s) (fun _ => 0)) s)
      (command (legal i u) (fun s => finish s (work s) (fun _ => 0)) u) :=
  command_alike h (h.legal i) fun _ => finish_alike h hw

/-- A command that reads, where its index is in range. -/
theorem read_alike (h : Alike shown s u) (i : Instr) (ok : State → Bool) (d : State → BitVec 32) (hok : ok s = ok u)
    (hd : legal i s = true → ok s = true → d s = d u) :
    OutcomeAlike shown (command (legal i s) (fun s => finish s (inRange (ok s) s) d) s)
      (command (legal i u) (fun s => finish s (inRange (ok s) s) d) u) := by
  refine command_alike h (h.legal i) fun hl => ?_
  rw [← hok]
  cases hv : ok s with
  | true =>
    show OutcomeAlike shown (.next (Machine.respond (d s) s)) (.next (Machine.respond (d u) u))
    rw [hd hl hv]
    exact .next (h.respond _)
  | false => exact .next (h.raise .range)

/-! ### The code table and the candidate -/

/-- A codeword written in both states reads the same, whatever was stored. -/
theorem Alike.setCode (h : Alike shown s u) (x : Byte) (q : Bits) : Alike shown (setCode x q s) (setCode x q u) := by
  have hcode := h.code
  obtain ⟨n, b, c, m, rfl⟩ := h.overlay
  refine ⟨rfl, h.node, fun y => ?_, h.cand, h.obuf⟩
  unfold State.codeword at hcode ⊢
  rw [lenOf_setCode, lenOf_setCode]
  by_cases hy : y = x
  · simp [hy]
  · simpa [hy, fileRead_fileWrite] using hcode y

theorem Alike.setCand (h : Alike shown s u) (q : Bits) : Alike shown (setCand q s) (setCand q u) := by
  obtain ⟨n, b, c, m, rfl⟩ := h.overlay
  exact ⟨rfl, h.node, h.code, rfl, h.obuf⟩

theorem Alike.clearBlock (h : Alike shown s u) : Alike shown (clearBlock s) (clearBlock u) := by
  have empty : ∀ (t : State) x, (Machine.clearBlock t).codeword x = [] := fun t x =>
    codeword_eq_nil (by simp [State.lenOf])
  refine ⟨congrArg Machine.clearBlock h.rest, ?_, fun x => (empty s x).trans (empty u x).symm, rfl, ?_⟩ <;> simp

theorem tsel_alike (h : Alike shown s u) (x : Byte) :
    Alike shown { setCode x [] s with tsym := x, phase := .load } { setCode x [] u with tsym := x, phase := .load } := by
  have h := h.setCode x []
  exact ⟨congrArg (fun t => { t with tsym := x, phase := .load }) h.rest, h.node, h.code, h.cand, h.obuf⟩

theorem extendEntry_alike (h : Alike shown s u) (bit : Bool) :
    WorkingAlike shown (extendEntry bit s) (extendEntry bit u) := by
  unfold extendEntry
  have htsym : s.tsym = u.tsym := h.view State.tsym
  have hlen : s.lenOf s.tsym = u.lenOf u.tsym := h.view (fun t => State.lenOf t t.tsym)
  rw [htsym] at hlen ⊢
  rw [hlen, h.code u.tsym]
  exact .ite Iff.rfl (.error _) (.ok (h.setCode _ _))

theorem sealTable_alike (h : Alike shown s u) : WorkingAlike shown (sealTable s) (sealTable u) := by
  have hentries : s.entries = u.entries := h.view State.entries
  have hclash : tableClashes s = tableClashes u := by simp only [tableClashes, clash, h.code, hentries]
  unfold sealTable
  rw [hclash, hentries]
  refine .ite Iff.rfl (.error _) (.ok ⟨?_, h.node, h.code, h.cand, h.obuf⟩)
  exact congrArg (fun t => { t with nsym := BitVec.ofNat 9 u.entries.length, phase := .table }) h.rest

/-- The writes of `GEN` with the same codes: every entry is written over, or has no bits. -/
theorem generateWrites_alike (h : Alike shown s u) (codes : List (Byte × Bits)) :
    Alike shown (generateWrites codes s) (generateWrites codes u) := by
  have fold : ∀ {s u : State}, Alike shown s u →
      Alike shown (codes.foldl (fun t c => setCode c.1 c.2 t) s) (codes.foldl (fun t c => setCode c.1 c.2 t) u) := by
    induction codes with
    | nil => exact fun h => h
    | cons c codes ih => exact fun h => ih (h.setCode c.1 c.2)
  have empty : ∀ (t : State) x, State.codeword { t with len := Vector.replicate 256 0 } x = [] := fun t x =>
    codeword_eq_nil (by simp [State.lenOf])
  have h : Alike shown (writeCodes codes s) (writeCodes codes u) := fold
    ⟨congrArg (fun t : State => { t with len := Vector.replicate 256 0 }) h.rest, h.node,
      fun x => (empty s x).trans (empty u x).symm, h.cand, h.obuf⟩
  refine ⟨congrArg (fun t : State => { t with nnodes := 0, root := Config.nil, phase := .table }) h.rest, ?_, h.code, h.cand,
    h.obuf⟩
  simp [generateWrites]

/-! ### The output buffer, the packer and the decoder -/

/-- A byte appended in both states reads the same. -/
theorem append_alike (h : Alike shown s u) (v : Byte) : WorkingAlike shown (append v s) (append v u) := by
  have hobuf := h.obuf
  obtain ⟨n, b, c, m, rfl⟩ := h.overlay
  refine .ite Iff.rfl (.error _) (.ok ⟨rfl, h.node, h.code, h.cand, fun hs a ha => ?_⟩)
  simp only [State.obufAt, Memory.read_write] at hobuf ⊢
  by_cases he : a = s.olen.toNat
  · simp [he]
  · have hsucc : (s.olen + 1).toNat ≤ s.olen.toNat + 1 := by
      rw [BitVec.toNat_add]
      exact Nat.mod_le _ _
    have ha : a < (s.olen + 1).toNat := ha
    simpa [he] using hobuf hs a (by omega)

theorem pushBit_alike (h : Alike shown s u) (x : Bool) : WorkingAlike shown (pushBit x s) (pushBit x u) := by
  have happend := append_alike h (writeBit s.acc (7 - s.nacc.toNat) x)
  obtain ⟨n, b, c, m, rfl⟩ := h.overlay
  refine .ite Iff.rfl (happend.map fun t v h => ?_) (.ok ⟨rfl, h.node, h.code, h.cand, h.obuf⟩)
  exact ⟨congrArg (fun t : State => { t with acc := 0, nacc := 0 }) h.rest, h.node, h.code, h.cand, h.obuf⟩

theorem pushBits_alike (q : Bits) : ∀ s u, Alike shown s u → WorkingAlike shown (pushBits q s) (pushBits q u) := by
  induction q with
  | nil => exact fun s u h => .ok h
  | cons x q ih => exact fun s u h => (pushBit_alike h x).bind ih

/-- Both states match the same candidate: rule R172 looks at the table's lengths and codewords. -/
theorem Alike.matching (h : Alike shown s u) (q : Bits) : matching q s = matching q u := by
  have hlen : s.lenOf = u.lenOf := h.view State.lenOf
  simp only [Machine.matching, h.code, hlen]

theorem feedBit_alike (h : Alike shown s u) (x : Bool) : WorkingAlike shown (feedBit x s) (feedBit x u) := by
  unfold feedBit
  rw [← h.cand, ← h.matching]
  cases matching (s.candidate ++ [x]) s with
  | some t => exact (append_alike h t).map fun s u h => h.setCand []
  | none => exact .ite Iff.rfl (.error _) (.ok (h.setCand _))

theorem feedBits_alike (q : Bits) : ∀ s u, Alike shown s u → WorkingAlike shown (feedBits q s) (feedBits q u) := by
  induction q with
  | nil => exact fun s u h => .ok h
  | cons x q ih => exact fun s u h => (feedBit_alike h x).bind ih

theorem beginEncode_alike (h : Alike shown s u) : WorkingAlike shown (beginEncode s) (beginEncode u) := by
  have hstart : Alike shown { s with ovalid := false, olen := 0 } { u with ovalid := false, olen := 0 } :=
    ⟨congrArg (fun t : State => { t with ovalid := false, olen := 0 }) h.rest, h.node, h.code, h.cand, by simp⟩
  refine (append_alike hstart 0).map fun s u h => ?_
  exact ⟨congrArg (fun t : State => { t with acc := 0, nacc := 0, phase := .encode }) h.rest, h.node, h.code, h.cand, h.obuf⟩

theorem encodeByte_alike (h : Alike shown s u) (x : Byte) : WorkingAlike shown (encodeByte x s) (encodeByte x u) := by
  have hlen : s.lenOf x = u.lenOf x := h.view (fun t => State.lenOf t x)
  unfold encodeByte
  rw [hlen, h.code]
  exact .ite Iff.rfl (.error _) (pushBits_alike _ _ _ h)

/-- `EFIN`: the last byte and the header are the same, since `ACC` and `NACC` are. -/
theorem endEncode_alike (h : Alike shown s u) : WorkingAlike shown (endEncode s) (endEncode u) := by
  have hnacc : s.nacc = u.nacc := h.view State.nacc
  have hacc : s.acc = u.acc := h.view State.acc
  have hflush : WorkingAlike shown (flushByte s) (flushByte u) := by
    unfold flushByte
    rw [hnacc, hacc]
    exact .ite Iff.rfl (.ok h) (append_alike h _)
  unfold endEncode
  rw [hnacc]
  refine hflush.map fun s t h => ?_
  have hobuf := h.obuf
  obtain ⟨n, b, c, m, rfl⟩ := h.overlay
  refine ⟨rfl, h.node, h.code, h.cand, fun hs a ha => ?_⟩
  simp only [State.obufAt, Memory.read_write] at hobuf ⊢
  rw [hobuf hs a ha]

theorem beginDecode_alike (h : Alike shown s u) (hdr : Byte) :
    WorkingAlike shown (beginDecode hdr s) (beginDecode hdr u) := by
  have h := h.setCand []
  refine .ite Iff.rfl (.error _) (.ok ⟨?_, h.node, h.code, h.cand, by simp⟩)
  exact congrArg (fun t : State =>
    { t with ovalid := false, olen := 0, hdr := hdr.setWidth 3, hold := 0, holdV := false, phase := .decode }) h.rest

theorem takePayload_alike (h : Alike shown s u) (x : Byte) : WorkingAlike shown (takePayload x s) (takePayload x u) := by
  have hfeed := feedBits_alike (bitsMsbFirst s.hold) s u h
  have hhold : s.hold = u.hold := h.view State.hold
  have hholdV : s.holdV = u.holdV := h.view State.holdV
  unfold takePayload
  rw [← hholdV, ← hhold]
  refine (WorkingAlike.ite Iff.rfl hfeed (.ok h)).map fun s u h => ?_
  exact ⟨congrArg (fun t : State => { t with hold := x, holdV := true }) h.rest, h.node, h.code, h.cand, h.obuf⟩

theorem endDecode_alike (h : Alike shown s u) : WorkingAlike shown (endDecode s) (endDecode u) := by
  have hfeed := feedBits_alike ((bitsMsbFirst s.hold).take (lastValidBits s.hdr)) s u h
  have hhold : s.hold = u.hold := h.view State.hold
  have hholdV : s.holdV = u.holdV := h.view State.holdV
  have hhdr : s.hdr = u.hdr := h.view State.hdr
  unfold endDecode
  rw [← hholdV, ← hhold, ← hhdr]
  refine ((WorkingAlike.ite Iff.rfl hfeed (.ok h)).bind fun s u h => ?_).map fun s u h => ?_
  · have hclen : s.clen = u.clen := h.view State.clen
    unfold candidateEmpty
    rw [hclen]
    exact .ite Iff.rfl (.ok h) (.error _)
  · exact ⟨congrArg (fun t : State => { t with holdV := false, ovalid := true, phase := .table }) h.rest, h.node, h.code,
      h.cand, h.obuf⟩

/-! ### The tree -/

theorem countByte_alike (h : Alike shown s u) (x : Byte) : WorkingAlike shown (countByte x s) (countByte x u) := by
  obtain ⟨n, b, c, m, rfl⟩ := h.overlay
  exact .ite Iff.rfl (.error _) (.ok ⟨rfl, h.node, h.code, h.cand, h.obuf⟩)

end

/-- Two node memories with the same entries below an index. -/
def AgreeBelow (n : Nat) (m m' : Vector Node 511) : Prop := ∀ i, i < n → nodeRead m i = nodeRead m' i

/-- The same node written at the first index that may differ. -/
theorem AgreeBelow.nodeWrite {n : Nat} {m m' : Vector Node 511} (h : AgreeBelow n m m') (e : Node) :
    AgreeBelow (n + 1) (nodeWrite m n e) (nodeWrite m' n e) := by
  intro i hi
  by_cases he : i = n
  · subst he
    by_cases hlt : i < 511
    · rw [nodeRead_nodeWrite_same _ hlt, nodeRead_nodeWrite_same _ hlt]
    · simp [nodeRead, hlt]
  · rw [nodeRead_nodeWrite_of_ne _ he, nodeRead_nodeWrite_of_ne _ he]
    exact h i (by omega)

theorem AgreeBelow.writeNodes {n : Nat} {m m' : Vector Node 511} (h : AgreeBelow n m m') (es : List Node) :
    AgreeBelow (n + es.length) (writeNodes m n es) (writeNodes m' n es) := by
  induction es generalizing n m m' with
  | nil => exact h
  | cons e es ih =>
    have := ih (h.nodeWrite e)
    rwa [List.length_cons, Nat.add_comm es.length, ← Nat.add_assoc]

/-- `least` looks at the nodes of the set alone. -/
theorem AgreeBelow.least_eq {n : Nat} {m m' : Vector Node 511} (h : AgreeBelow n m m') {i : Nat} {rest : List Nat}
    (hi : ∀ j ∈ i :: rest, j < n) : least m i rest = least m' i rest := by
  induction rest generalizing i with
  | nil => rfl
  | cons j rest ih =>
    have hl : lesser m j i = lesser m' j i := by
      unfold lesser
      rw [h i (hi i (by simp)), h j (hi j (by simp))]
    show least m (if lesser m j i then j else i) rest = least m' (if lesser m' j i then j else i) rest
    rw [← hl]
    refine ih fun x hx => ?_
    rcases List.mem_cons.mp hx with rfl | hx
    · split <;> exact hi _ (by simp)
    · exact hi x (by simp [hx])

/-- The loop of `BLD` looks at no entry that it has not written: over two memories that agree below its count it makes the
same nodes. -/
theorem mergeLoop_agree (rounds : Nat) {g g' : Build} (hn : g.n = g'.n) (ha : g.active = g'.active)
    (hlt : ∀ j ∈ g.active, j < g.n) (hm : AgreeBelow g.n g.mem g'.mem) :
    (mergeLoop rounds g).n = (mergeLoop rounds g').n ∧ (mergeLoop rounds g).active = (mergeLoop rounds g').active ∧
      AgreeBelow (mergeLoop rounds g).n (mergeLoop rounds g).mem (mergeLoop rounds g').mem := by
  induction rounds generalizing g g' with
  | zero => exact ⟨hn, ha, hm⟩
  | succ r ih =>
    rw [mergeLoop, mergeLoop, ← ha, ← hn]
    match hact : g.active with
    | [] | [i] => exact ⟨hn, ha, hm⟩
    | i :: j :: rest =>
      rw [hact] at hlt
      simp only
      rw [← hm.least_eq hlt]
      match he : (i :: j :: rest).erase (least g.mem i (j :: rest)) with
      | [] => exact ⟨hn, ha, hm⟩
      | i' :: rest' =>
        have hlt' : ∀ x ∈ i' :: rest', x < g.n := fun x hx => hlt x (List.mem_of_mem_erase (he ▸ hx))
        simp only
        rw [← hm.least_eq hlt']
        have hA := hlt _ (least_spec g.mem i (j :: rest)).1
        have hB := hlt' _ (least_spec g.mem i' rest').1
        have hparent : ∀ a b, a < g.n → b < g.n → parentNode g'.mem a b = parentNode g.mem a b := fun a b h1 h2 => by
          unfold parentNode
          rw [hm a h1, hm b h2]
        rw [hparent _ _ hA hB]
        refine ih rfl rfl (fun x hx => ?_) (hm.nodeWrite _)
        rcases List.mem_append.mp hx with hx | hx
        · have := hlt' x (List.mem_of_mem_erase hx)
          show x < g.n + 1
          omega
        · obtain rfl := List.mem_singleton.mp hx
          exact Nat.lt_succ_self _

/-- `BLD` over two node memories: the leaves are the same, and so is everything made over them. -/
theorem buildTree_agree (s : State) (n : Vector Node 511) :
    (buildTree s).n = (buildTree { s with node := n }).n ∧
      (buildTree s).active = (buildTree { s with node := n }).active ∧
      AgreeBelow (buildTree s).n (buildTree s).mem (buildTree { s with node := n }).mem := by
  have h0 : AgreeBelow 0 s.node n := fun i hi => absurd hi (Nat.not_lt_zero i)
  have hw := h0.writeNodes (leafNodes s)
  rw [Nat.zero_add] at hw
  exact mergeLoop_agree _ rfl rfl (fun j hj => List.mem_range.mp hj) hw

theorem buildWrites_alike {shown : Prop} {s u : State} (h : Alike shown s u) :
    Alike shown (buildWrites s) (buildWrites u) := by
  obtain ⟨n, b, c, m, rfl⟩ := h.overlay
  obtain ⟨h1, h2, h3⟩ := buildTree_agree s n
  refine ⟨?_, fun i hi => h3 i ?_, h.code, h.cand, h.obuf⟩
  · unfold buildWrites
    rw [h1, h2]
    rfl
  · exact Nat.lt_of_lt_of_le hi (by simpa [buildWrites] using Nat.mod_le _ _)

/-! ### The codes of `GEN` -/

/-- The traversal of a tree that meets rule R30 looks at valid nodes alone. -/
theorem TreeInv.visit_congr {s : State} (h : TreeInv s) {m : Vector Node 511} (hm : AgreeBelow s.nnodes.toNat s.node m)
    (fuel : Nat) {i : NodeIdx} (path : Bits) (hi : i.toNat < s.nnodes.toNat) :
    visit s.node fuel i path = visit m fuel i path := by
  induction fuel generalizing i path with
  | zero =>
    unfold visit
    rw [hm i.toNat hi]
  | succ fuel ih =>
    unfold visit
    rw [← hm i.toNat hi]
    cases hl : (nodeRead s.node i.toNat).leaf with
    | true => rfl
    | false =>
      have hleft : visit s.node fuel (nodeRead s.node i.toNat).left (path ++ [false]) = _ :=
        ih _ (Nat.lt_trans (h.child_lt hi hl false) hi)
      have hright : visit s.node fuel (nodeRead s.node i.toNat).right (path ++ [true]) = _ :=
        ih _ (Nat.lt_trans (h.child_lt hi hl true) hi)
      simp only [hleft, hright]

theorem Alike.treeCodes {shown : Prop} {s u : State} (h : Alike shown s u) (ht : TreeInv s) :
    treeCodes s = treeCodes u := by
  have hnode : AgreeBelow s.nnodes.toNat s.node u.node := h.node
  obtain ⟨n, b, c, m, rfl⟩ := h.overlay
  unfold Machine.treeCodes
  by_cases h0 : s.nnodes = 0#9
  · simp [h0]
  · have hpos : 0 < s.nnodes.toNat := Nat.pos_of_ne_zero fun e => h0 (BitVec.eq_of_toNat_eq e)
    have hk : 0 < s.k := by
      have := ht.nnodes_eq
      split at this <;> omega
    rw [h.node 0 hpos, ht.visit_congr hnode _ _ (ht.root_lt hk)]

/-! ### Every command -/

/-- Alike states answer every command alike and stay alike, where the traversal of `GEN` is the same in both and the output
is shown or not readable. -/
theorem exec_alike {shown : Prop} {s u : State} (h : Alike shown s u)
    (hcodes : s.phase = .tree → treeCodes s = treeCodes u) (hshown : s.ovalid = true → shown) (i : Instr) :
    OutcomeAlike shown (exec i s) (exec i u) := by
  match i with
  | .nop => exact .next (h.respond 0)
  | .clr => exact .next (h.clearBlock.respond 0)
  | .stat =>
    have hd : statusWord s = statusWord u := h.view statusWord
    show OutcomeAlike shown (.next (respond (statusWord s) s)) (.next (respond (statusWord u) u))
    rw [hd]
    exact .next (h.respond _)
  | .cnt x => exact write_alike h (.cnt x) (countByte_alike h x)
  | .bld => exact write_alike h .bld (work := fun s => .ok (buildWrites s)) (.ok (buildWrites_alike h))
  | .gen =>
    show OutcomeAlike shown (execGen s) (execGen u)
    unfold execGen
    refine command_alike h (h.legal .gen) fun hl => ?_
    have hp : s.phase = .tree := by simpa [legal] using hl
    rw [← hcodes hp]
    cases treeCodes s with
    | some codes => exact finish_alike h (.ok (generateWrites_alike h codes))
    | none => intro t ht; cases ht
  | .frd x => exact read_alike h (.frd x) (fun _ => true) _ rfl fun _ _ => h.view (fun t => State.freqOf t x)
  | .ftot => exact read_alike h .ftot (fun _ => true) _ rfl fun _ _ => h.view State.total
  | .ncnt => exact read_alike h .ncnt (fun _ => true) _ rfl fun _ _ => h.view nodeCountWord
  | .nwt j =>
    refine read_alike h (.nwt j) (fun s => s.validNode j) _ (h.view (fun t => State.validNode t j)) fun _ hv => ?_
    rw [h.node j.toNat (by simpa [State.validNode, BitVec.lt_def] using hv)]
  | .nlk j =>
    refine read_alike h (.nlk j) (fun s => s.validNode j) _ (h.view (fun t => State.validNode t j)) fun _ hv => ?_
    rw [h.node j.toNat (by simpa [State.validNode, BitVec.lt_def] using hv)]
  | .tsel x =>
    exact write_alike h (.tsel x)
      (work := fun s => .ok { setCode x [] s with tsym := x, phase := .load }) (.ok (tsel_alike h x))
  | .tbit bit => exact write_alike h (.tbit bit) (extendEntry_alike h bit)
  | .tend => exact write_alike h .tend (sealTable_alike h)
  | .tlen x =>
    exact read_alike h (.tlen x) (fun _ => true) _ rfl fun _ _ => h.view (fun t => (State.lenOf t x).setWidth 32)
  | .tget x bi =>
    refine read_alike h (.tget x bi) (fun s => s.validBit x bi) _ (h.view (fun t => State.validBit t x bi))
      fun _ _ => ?_
    rw [h.code]
  | .ebeg => exact write_alike h .ebeg (beginEncode_alike h)
  | .enc x => exact write_alike h (.enc x) (encodeByte_alike h x)
  | .efin => exact write_alike h .efin (endEncode_alike h)
  | .dbeg hdr => exact write_alike h (.dbeg hdr) (beginDecode_alike h hdr)
  | .dpl x => exact write_alike h (.dpl x) (takePayload_alike h x)
  | .dfin => exact write_alike h .dfin (endDecode_alike h)
  | .olen => exact read_alike h .olen (fun _ => true) _ rfl fun _ _ => h.view State.olen
  | .ord a =>
    refine read_alike h (.ord a) (fun s => s.validAddr a) _ (h.view (fun t => State.validAddr t a)) fun hl hv => ?_
    simp only [legal, Bool.and_eq_true] at hl
    rw [h.obuf (hshown hl.2) a.toNat (by simpa [State.validAddr, BitVec.lt_def] using hv)]

/-- Settles O50: the two states are alike with no byte of the buffer shown, and `ORD` needs `OVALID`. -/
theorem noOutputWhileInvalid : Obligations.NoOutputWhileInvalid := by
  intro i s t u m hv ht hu
  obtain ⟨v, hv, h⟩ := exec_alike (alike_false_obuf s m) (fun _ => rfl) (by simp [hv]) i t ht
  rw [hu] at hv
  cases hv
  exact h.rsp

/-- Settles O51: the two states are alike with the written bytes shown, and the invariant gives `GEN` a tree that meets
rule R30. -/
theorem unreadableContentsNeverShow : Obligations.UnreadableContentsNeverShow := by
  intro i s u t hs _ hsame ht
  have h := alike_true_iff.mpr hsame
  obtain ⟨v, hv, hvt⟩ := exec_alike h (fun hp => h.treeCodes (hs.tree hp)) (fun _ => trivial) i t ht
  exact ⟨v, hv, hvt.rsp, alike_true_iff.mp hvt⟩

end Sys2Proof.Machine

/-! ## What every command keeps (rules R23, R24, R28, R30, R33, R34, R37, R38 and R71)

First what a command can do, said once (`exec_ends`); then the machine's invariant, grouped by what it speaks of; then each
command's writes keep it. -/

namespace Sys2Proof.Machine

/-! ### What a command can do -/

/-- What a command that succeeds leaves, its response apart. -/
def Effect (i : Instr) (s t : State) : Prop :=
  match i with
  | .clr => t = clearBlock s
  | .cnt x => countByte x s = .ok t
  | .bld => t = buildWrites s
  | .gen => ∃ codes, treeCodes s = some codes ∧ t = generateWrites codes s
  | .tsel x => t = { setCode x [] s with tsym := x, phase := .load }
  | .tbit bit => extendEntry bit s = .ok t
  | .tend => sealTable s = .ok t
  | .ebeg => beginEncode s = .ok t
  | .enc x => encodeByte x s = .ok t
  | .efin => endEncode s = .ok t
  | .dbeg hdr => beginDecode hdr s = .ok t
  | .dpl x => takePayload x s = .ok t
  | .dfin => endDecode s = .ok t
  | .nop | .stat | .frd _ | .ftot | .ncnt | .nwt _ | .nlk _ | .tlen _ | .tget _ _ | .olen | .ord _ => t = s

/-- The three ways a command ends (rules R10, R89 and R201): refused in phase `FAULT`, an error, or its effect. -/
def Ends (i : Instr) (s t : State) : Prop :=
  t = answerFaulted s ∨ (∃ e, t = raise e s) ∨ ∃ d u, legal i s = true ∧ Effect i s u ∧ t = respond d u

theorem ends_of_work {i : Instr} {s t : State} {work : State → Working} {d : State → BitVec 32}
    (hw : ∀ u, work s = .ok u → Effect i s u)
    (h : command (legal i s) (fun s => finish s (work s) d) s = .next t) : Ends i s t := by
  rcases command_cases h with ⟨-, rfl⟩ | ⟨-, -, rfl⟩ | ⟨-, hl, h⟩
  · exact .inl rfl
  · exact .inr (.inl ⟨_, rfl⟩)
  · rcases finish_cases h with ⟨u, hu, rfl⟩ | ⟨e, -, rfl⟩
    · exact .inr (.inr ⟨_, u, hl, hw u hu, rfl⟩)
    · exact .inr (.inl ⟨e, rfl⟩)

theorem eq_of_inRange_ok {ok : Bool} {s u : State} (h : inRange ok s = .ok u) : u = s := by
  rcases inRange_cases h with ⟨-, h⟩ | ⟨-, h⟩ <;> cases h
  rfl

/-- Every command that answers ends in one of the three ways. -/
theorem exec_ends {i : Instr} {s t : State} (h : exec i s = .next t) : Ends i s t := by
  match i with
  | .nop => cases h; exact .inr (.inr ⟨0, s, rfl, rfl, rfl⟩)
  | .clr => cases h; exact .inr (.inr ⟨0, clearBlock s, rfl, rfl, rfl⟩)
  | .stat => cases h; exact .inr (.inr ⟨statusWord s, s, rfl, rfl, rfl⟩)
  | .gen =>
    have h : execGen s = .next t := h
    unfold execGen at h
    rcases command_cases h with ⟨-, rfl⟩ | ⟨-, -, rfl⟩ | ⟨-, hl, h⟩
    · exact .inl rfl
    · exact .inr (.inl ⟨_, rfl⟩)
    · cases hc : treeCodes s with
      | none => simp [hc] at h
      | some codes =>
        simp only [hc, finish_ok] at h
        cases h
        exact .inr (.inr ⟨0, _, hl, ⟨codes, hc, rfl⟩, rfl⟩)
  | .cnt x => exact ends_of_work (work := countByte x) (fun _ h => h) h
  | .bld => exact ends_of_work (work := fun s => .ok (buildWrites s)) (fun _ h => by cases h; rfl) h
  | .tsel x =>
    exact ends_of_work (work := fun s => .ok { setCode x [] s with tsym := x, phase := .load })
      (fun _ h => by cases h; rfl) h
  | .tbit bit => exact ends_of_work (work := extendEntry bit) (fun _ h => h) h
  | .tend => exact ends_of_work (work := sealTable) (fun _ h => h) h
  | .ebeg => exact ends_of_work (work := beginEncode) (fun _ h => h) h
  | .enc x => exact ends_of_work (work := encodeByte x) (fun _ h => h) h
  | .efin => exact ends_of_work (work := endEncode) (fun _ h => h) h
  | .dbeg hdr => exact ends_of_work (work := beginDecode hdr) (fun _ h => h) h
  | .dpl x => exact ends_of_work (work := takePayload x) (fun _ h => h) h
  | .dfin => exact ends_of_work (work := endDecode) (fun _ h => h) h
  | .frd _ | .ftot | .ncnt | .tlen _ | .olen =>
    exact ends_of_work (work := fun s => .ok s) (fun _ h => by cases h; rfl) h
  | .nwt j | .nlk j => exact ends_of_work (work := fun s => inRange (s.validNode j) s) (fun _ h => eq_of_inRange_ok h) h
  | .tget x bi => exact ends_of_work (work := fun s => inRange (s.validBit x bi) s) (fun _ h => eq_of_inRange_ok h) h
  | .ord a => exact ends_of_work (work := fun s => inRange (s.validAddr a) s) (fun _ h => eq_of_inRange_ok h) h

/-! ### The writes of each command that can fail, when it does not -/

section
variable {s t : State}

theorem except_map_ok {r : Working} {f : State → State} (h : r.map f = .ok t) : ∃ u, r = .ok u ∧ t = f u := by
  cases r with
  | ok u => exact ⟨u, rfl, (Except.ok.inj h).symm⟩
  | error e => cases h

theorem except_bind_ok {r : Working} {f : State → Working} (h : r.bind f = .ok t) : ∃ u, r = .ok u ∧ f u = .ok t := by
  cases r with
  | ok u => exact ⟨u, rfl, h⟩
  | error e => cases h

theorem countByte_ok {x : Byte} (h : countByte x s = .ok t) :
    s.total ≠ Config.totalMax ∧ t = { s with freq := fileWrite s.freq x (s.freqOf x + 1), total := s.total + 1 } := by
  unfold countByte at h
  split at h
  · cases h
  · exact ⟨‹_›, (Except.ok.inj h).symm⟩

theorem extendEntry_ok {bit : Bool} (h : extendEntry bit s = .ok t) :
    t = setCode s.tsym (s.codeword s.tsym ++ [bit]) s := by
  unfold extendEntry at h
  split at h
  · cases h
  · exact (Except.ok.inj h).symm

theorem sealTable_ok (h : sealTable s = .ok t) :
    tableClashes s = false ∧ t = { s with nsym := BitVec.ofNat 9 s.entries.length, phase := .table } := by
  unfold sealTable at h
  split at h
  · cases h
  · exact ⟨Bool.eq_false_iff.mpr ‹_›, (Except.ok.inj h).symm⟩

theorem beginEncode_ok (h : beginEncode s = .ok t) :
    ∃ u, append 0 { s with ovalid := false, olen := 0 } = .ok u ∧ t = { u with acc := 0, nacc := 0, phase := .encode } :=
  except_map_ok h

theorem encodeByte_ok {x : Byte} (h : encodeByte x s = .ok t) : pushBits (s.codeword x) s = .ok t := by
  unfold encodeByte at h
  split at h
  · cases h
  · exact h

theorem endEncode_ok (h : endEncode s = .ok t) : ∃ u, (u = s ∨ append s.acc s = .ok u) ∧ t = { u with
    obuf := u.obuf.write 0 (s.nacc.setWidth 8), acc := 0, nacc := 0, ovalid := true, phase := .table } := by
  obtain ⟨u, hu, rfl⟩ := except_map_ok h
  refine ⟨u, ?_, rfl⟩
  unfold flushByte at hu
  split at hu
  · exact .inl (Except.ok.inj hu).symm
  · exact .inr hu

theorem beginDecode_ok {hdr : Byte} (h : beginDecode hdr s = .ok t) : t = { setCand [] s with
    ovalid := false, olen := 0, hdr := hdr.setWidth 3, hold := 0, holdV := false, phase := .decode } := by
  unfold beginDecode at h
  split at h
  · cases h
  · exact (Except.ok.inj h).symm

/-- No held byte feeds no bits. -/
theorem feedBits_of_ite {c : Bool} {q : Bits} {u : State} (h : (if c then feedBits q s else .ok s) = .ok u) :
    ∃ q, feedBits q s = .ok u := by
  split at h
  · exact ⟨q, h⟩
  · exact ⟨[], h⟩

theorem takePayload_ok {x : Byte} (h : takePayload x s = .ok t) :
    ∃ q u, feedBits q s = .ok u ∧ t = { u with hold := x, holdV := true } := by
  obtain ⟨u, hu, rfl⟩ := except_map_ok h
  obtain ⟨q, hq⟩ := feedBits_of_ite hu
  exact ⟨q, u, hq, rfl⟩

theorem endDecode_ok (h : endDecode s = .ok t) :
    ∃ q u, feedBits q s = .ok u ∧ t = { u with holdV := false, ovalid := true, phase := .table } := by
  obtain ⟨u, hu, rfl⟩ := except_map_ok h
  obtain ⟨v, hv, hu⟩ := except_bind_ok hu
  obtain ⟨q, hq⟩ := feedBits_of_ite hv
  unfold candidateEmpty at hu
  split at hu
  · cases hu
    exact ⟨q, u, hq, rfl⟩
  · cases hu

/-! ### What the packer and the decoder leave alone -/

/-- What each pushed bit keeps, the whole sequence keeps. -/
theorem pushBits_keeps {P : State → Prop} (hP : ∀ {s t x}, P s → pushBit x s = .ok t → P t) {q : Bits} {s t : State}
    (hs : P s) (h : pushBits q s = .ok t) : P t := by
  induction q generalizing s with
  | nil =>
    cases h
    exact hs
  | cons x q ih =>
    obtain ⟨u, hu, h⟩ := except_bind_ok (pushBits_cons x q s ▸ h)
    exact ih (hP hs hu) h

/-- What each fed bit keeps, the whole sequence keeps. -/
theorem feedBits_keeps {P : State → Prop} (hP : ∀ {s t x}, P s → feedBit x s = .ok t → P t) {q : Bits} {s t : State}
    (hs : P s) (h : feedBits q s = .ok t) : P t := by
  induction q generalizing s with
  | nil =>
    cases h
    exact hs
  | cons x q ih =>
    obtain ⟨u, hu, h⟩ := except_bind_ok (feedBits_cons x q s ▸ h)
    exact ih (hP hs hu) h

theorem append_frame {v : Byte} (h : append v s = .ok t) : t = { s with obuf := t.obuf, olen := t.olen } := by
  rcases append_cases h with ⟨-, h⟩ | ⟨-, h⟩ <;> cases h
  rfl

theorem pushBits_frame {q : Bits} (h : pushBits q s = .ok t) :
    t = { s with acc := t.acc, nacc := t.nacc, obuf := t.obuf, olen := t.olen } := by
  refine pushBits_keeps (P := fun t => t = { s with acc := t.acc, nacc := t.nacc, obuf := t.obuf, olen := t.olen }) ?_ rfl h
  intro u v x hu hv
  rcases pushBit_cases hv with ⟨-, h⟩ | ⟨-, -, h⟩ | ⟨-, -, h⟩ <;> cases h
  · rw [hu]
  · rw [hu]

theorem feedBits_frame {q : Bits} (h : feedBits q s = .ok t) :
    t = { s with cand := t.cand, clen := t.clen, obuf := t.obuf, olen := t.olen } := by
  refine feedBits_keeps (P := fun t => t = { s with cand := t.cand, clen := t.clen, obuf := t.obuf, olen := t.olen }) ?_ rfl h
  intro u v x hu hv
  rcases feedBit_cases hv with ⟨y, -, -, h⟩ | ⟨y, -, -, h⟩ | ⟨-, -, h⟩ | ⟨-, -, h⟩ <;> cases h
  · rw [hu]; rfl
  · rw [hu]; rfl

/-! ### The sealed table -/

/-- In the phases in which the table is sealed, no command but `CLR` writes it. -/
theorem Effect.table_kept {i : Instr} (hp : s.phase = .table ∨ s.phase = .encode ∨ s.phase = .decode) (hi : i ≠ .clr)
    (hl : legal i s = true) (h : Effect i s t) : t.len = s.len ∧ t.bits = s.bits := by
  match i with
  | .clr => exact absurd rfl hi
  | .cnt _ | .bld | .gen | .tsel _ | .tbit _ | .tend =>
    rcases hp with hp | hp | hp <;> simp [legal, hp] at hl
  | .ebeg =>
    obtain ⟨u, hu, rfl⟩ := beginEncode_ok h
    rw [append_frame hu]
    exact ⟨rfl, rfl⟩
  | .enc x =>
    rw [pushBits_frame (encodeByte_ok h)]
    exact ⟨rfl, rfl⟩
  | .efin =>
    obtain ⟨u, rfl | hu, rfl⟩ := endEncode_ok h
    · exact ⟨rfl, rfl⟩
    · rw [append_frame hu]
      exact ⟨rfl, rfl⟩
  | .dbeg hdr =>
    rw [beginDecode_ok h]
    exact ⟨rfl, rfl⟩
  | .dpl x =>
    obtain ⟨q, u, hu, rfl⟩ := takePayload_ok h
    rw [feedBits_frame hu]
    exact ⟨rfl, rfl⟩
  | .dfin =>
    obtain ⟨q, u, hu, rfl⟩ := endDecode_ok h
    rw [feedBits_frame hu]
    exact ⟨rfl, rfl⟩
  | .nop | .stat | .frd _ | .ftot | .ncnt | .nwt _ | .nlk _ | .tlen _ | .tget _ _ | .olen | .ord _ =>
    cases h
    exact ⟨rfl, rfl⟩

end

/-- Settles O38: an error and a refusal write no table, and `Effect.table_kept` covers what succeeds. -/
theorem sealedTableIsFrozen : Obligations.SealedTableIsFrozen := by
  intro i s t hp hi h
  rcases exec_ends h with rfl | ⟨e, rfl⟩ | ⟨d, u, hl, hu, rfl⟩
  · exact ⟨rfl, rfl⟩
  · exact ⟨rfl, rfl⟩
  · exact (hu.table_kept hp hi hl :)

end Sys2Proof.Machine

/-! ## The machine's invariant (`Inv`), grouped by what it speaks of -/

namespace Sys2Proof.Machine

/-- The output buffer's part of the invariant (rules R6 and R38). -/
structure BufferInv (s : State) : Prop where
  size_pos : s.obufSize ≠ 0#32
  olen_le : s.olen.toNat ≤ s.obufSize.toNat
  wf : Memory.wf s.obuf
  inside : ∀ c ∈ s.obuf, c.1 < s.obufSize.toNat

/-- The part of the invariant that holds in every phase. -/
structure RegisterInv (s : State) : Prop where
  err_iff_fault : s.err ≠ none ↔ s.phase = .fault
  ovalid_table : s.ovalid = true → s.phase = .table
  total_sum : TotalIsSum s
  buffer : BufferInv s
  nsym_le : s.k ≤ 256
  responses_ok : ∀ r, r ∈ s.rsp.toList ∨ r ∈ s.delivered → ResponseOk r

/-- There is no tree (rule R30: outside phase `TREE`). -/
def TreeGone (s : State) : Prop := s.nnodes = 0#9 ∧ s.root = Config.nil

/-- The part of the invariant that belongs to a phase. -/
def PhaseInv (s : State) : Phase → Prop
  | .idle => TreeGone s ∧ s.k = 0 ∧ ∀ x, s.lenOf x = 0#8
  | .tree => TreeInv s
  | .load => TreeGone s ∧ s.k = 0
  | .table => TreeGone s ∧ TableInv s
  | .encode => TreeGone s ∧ TableInv s ∧ PackerInv s
  | .decode => TreeGone s ∧ TableInv s ∧ DecoderInv s
  | .fault => True

section
variable {s t : State}

theorem Inv.buffer (h : Inv s) : BufferInv s := ⟨h.size_pos, h.olen_le, h.obuf_wf, h.obuf_inside⟩

/-- The invariant from its two parts. -/
theorem RegisterInv.inv (h : RegisterInv s) (hp : PhaseInv s s.phase) : Inv s where
  err_iff_fault := h.err_iff_fault
  ovalid_table := h.ovalid_table
  total_sum := h.total_sum
  size_pos := h.buffer.size_pos
  olen_le := h.buffer.olen_le
  obuf_wf := h.buffer.wf
  obuf_inside := h.buffer.inside
  nsym_le := h.nsym_le
  idle_empty e := by rw [e] at hp; exact hp.2
  load_unsealed e := by rw [e] at hp; exact hp.2
  tree_gone h1 h2 := by
    cases e : s.phase <;> rw [e] at hp
    case tree => exact absurd e h1
    case fault => exact absurd e h2
    all_goals exact hp.1
  tree e := by rw [e] at hp; exact hp
  table e := by
    rcases e with e | e | e <;> rw [e] at hp
    · exact hp.2
    · exact hp.2.1
    · exact hp.2.1
  packer e := by rw [e] at hp; exact hp.2.2
  decoder e := by rw [e] at hp; exact hp.2.2
  responses_ok := h.responses_ok

/-- A running command keeps the invariant that leaves `ERR` and the ports alone and meets the part of its last phase. -/
theorem Inv.keep (h : Inv s) (p : Phase) (hs : s.phase ≠ .fault) (ht : t.phase = p) (hp : p ≠ .fault)
    (hv : t.ovalid = true → p = .table) (hsum : TotalIsSum t) (hb : BufferInv t) (hk : t.k ≤ 256) (hpart : PhaseInv t p)
    (herr : t.err = s.err := by rfl) (hrsp : t.rsp = s.rsp := by rfl) (hd : t.delivered = s.delivered := by rfl) :
    Inv t := by
  have hnone : t.err = none := by
    rw [herr]
    by_contra he
    exact hs (h.err_iff_fault.mp he)
  subst ht
  refine RegisterInv.inv ⟨by simp [hnone, hp], hv, hsum, hb, hk, ?_⟩ hpart
  rw [hrsp, hd]
  exact h.responses_ok

/-- Outside phase `TABLE` the output is not readable (rule R24). -/
theorem Inv.ovalid_eq_false (h : Inv s) (hp : s.phase ≠ .table) : s.ovalid = false :=
  Bool.eq_false_iff.mpr fun hv => hp (h.ovalid_table hv)

/-! ### Parts of the invariant that a change elsewhere keeps -/

theorem TableInv.congr (h : TableInv s) (hlen : t.len = s.len) (hbits : t.bits = s.bits) (hnsym : t.nsym = s.nsym) :
    TableInv t := by
  have ht : TableInv { t with len := s.len, bits := s.bits, nsym := s.nsym } := ⟨h.prefixFree, h.count⟩
  rwa [← hlen, ← hbits, ← hnsym] at ht

theorem PackerInv.congr (h : PackerInv s) (holen : t.olen = s.olen) (hacc : t.acc = s.acc) (hnacc : t.nacc = s.nacc) :
    PackerInv t := by
  have ht : PackerInv { t with olen := s.olen, acc := s.acc, nacc := s.nacc } := ⟨h.headerReserved, h.clean⟩
  rwa [← holen, ← hacc, ← hnacc] at ht

theorem DecoderInv.congr (h : DecoderInv s) (hlen : t.len = s.len) (hbits : t.bits = s.bits) (hcand : t.cand = s.cand)
    (hclen : t.clen = s.clen) : DecoderInv t := by
  have ht : DecoderInv { t with len := s.len, bits := s.bits, cand := s.cand, clen := s.clen } := ⟨h.short, h.noMatch⟩
  rwa [← hlen, ← hbits, ← hcand, ← hclen] at ht

theorem BufferInv.congr (h : BufferInv s) (hobuf : t.obuf = s.obuf) (holen : t.olen = s.olen)
    (hsize : t.obufSize = s.obufSize) : BufferInv t := by
  have ht : BufferInv { t with obuf := s.obuf, olen := s.olen, obufSize := s.obufSize } :=
    ⟨h.size_pos, h.olen_le, h.wf, h.inside⟩
  rwa [← hobuf, ← holen, ← hsize] at ht

/-- A session starts with no output (rules R150 and R170). -/
theorem BufferInv.restart (h : BufferInv s) (hobuf : t.obuf = s.obuf) (holen : t.olen = 0)
    (hsize : t.obufSize = s.obufSize) : BufferInv t where
  size_pos := hsize ▸ h.size_pos
  olen_le := by simp [holen]
  wf := hobuf ▸ h.wf
  inside := by rw [hobuf, hsize]; exact h.inside

/-- A byte written inside the buffer. -/
theorem BufferInv.write (h : BufferInv s) {a : Nat} {v : Byte} (ha : a < s.obufSize.toNat)
    (hobuf : t.obuf = s.obuf.write a v) (holen : t.olen.toNat ≤ s.obufSize.toNat) (hsize : t.obufSize = s.obufSize) :
    BufferInv t where
  size_pos := hsize ▸ h.size_pos
  olen_le := hsize ▸ holen
  wf := hobuf ▸ Memory.wf_write h.wf a v
  inside := by
    rw [hobuf, hsize]
    intro c hc
    rcases Memory.mem_write hc with rfl | hc
    · exact ha
    · exact h.inside c hc

/-- A byte stored at `OLEN` and counted (rule R39). -/
theorem BufferInv.stored (h : BufferInv s) {v : Byte} (hne : s.olen ≠ s.obufSize)
    (hobuf : t.obuf = s.obuf.write s.olen.toNat v) (holen : t.olen = s.olen + 1) (hsize : t.obufSize = s.obufSize) :
    BufferInv t := by
  obtain ⟨hsucc, hle⟩ := toNat_olen_succ h.olen_le hne
  exact h.write (by omega) hobuf (by rw [holen, hsucc]; exact hle) hsize

theorem BufferInv.append (h : BufferInv s) {v : Byte} (ht : append v s = .ok t) : BufferInv t := by
  rcases append_cases ht with ⟨hne, e⟩ | ⟨-, e⟩ <;> cases e
  exact h.stored hne rfl rfl rfl

theorem BufferInv.pushBits (h : BufferInv s) {q : Bits} (ht : pushBits q s = .ok t) : BufferInv t := by
  refine pushBits_keeps (P := BufferInv) (fun {s t x} h ht => ?_) h ht
  rcases pushBit_cases ht with ⟨-, e⟩ | ⟨-, hne, e⟩ | ⟨-, -, e⟩ <;> cases e
  · exact h.congr rfl rfl rfl
  · exact h.stored hne rfl rfl rfl

theorem BufferInv.feedBits (h : BufferInv s) {q : Bits} (ht : feedBits q s = .ok t) : BufferInv t := by
  refine feedBits_keeps (P := BufferInv) (fun {s t x} h ht => ?_) h ht
  rcases feedBit_cases ht with ⟨y, -, hne, e⟩ | ⟨y, -, -, e⟩ | ⟨-, -, e⟩ | ⟨-, -, e⟩ <;> cases e
  · exact h.stored hne rfl rfl rfl
  · exact h.congr rfl rfl rfl

/-- The packer keeps its invariant (rule R152): bits that were taken did fit. -/
theorem PackerInv.pushBits (h : PackerInv s) (hb : BufferInv s) {q : Bits} (ht : pushBits q s = .ok t) :
    PackerInv t := by
  by_cases hfit : s.olen.toNat + (s.nacc.toNat + q.length) / 8 ≤ s.obufSize.toNat
  · obtain ⟨u, hu, hp⟩ := pushBits_pushed q h hb.olen_le hfit
    rw [hu] at ht
    cases ht
    exact hp.inv
  · rw [pushBits_full q h hb.olen_le (by omega)] at ht
    cases ht

/-- An empty candidate meets the decoder's invariant (rule R37). -/
theorem decoderInv_of_empty (hc : t.candidate = []) : DecoderInv t where
  short := by
    have := length_candidate t
    rw [hc] at this
    rw [← this]
    exact Nat.zero_le _
  noMatch := hc ▸ noMatchIn_nil t

/-- The decoder keeps its invariant: the candidate is emptied by a match, and else grows to at most 254 bits (rule R172). -/
theorem DecoderInv.feedBits (h : DecoderInv s) {q : Bits} (ht : feedBits q s = .ok t) : DecoderInv t := by
  refine feedBits_keeps (P := DecoderInv) (fun {s t x} h ht => ?_) h ht
  rcases feedBit_cases ht with ⟨y, -, -, e⟩ | ⟨y, -, -, e⟩ | ⟨hm, hlt, e⟩ | ⟨-, -, e⟩ <;> cases e
  · exact decoderInv_of_empty (candidate_setCand (by simp) _)
  · have hlen : (s.candidate ++ [x]).length ≤ 254 := by simp; omega
    have hc : (setCand (s.candidate ++ [x]) s).candidate = s.candidate ++ [x] := candidate_setCand (by omega) s
    refine ⟨?_, fun y hy hpre => ?_⟩
    · rw [← length_candidate, hc]
      exact hlen
    · rw [hc] at hpre
      rcases List.prefix_concat_iff.mp hpre with heq | hpre
      · exact matching_none hm y heq
      · exact h.noMatch y hy hpre

/-! ### Counting (rules R28 and R110) -/

/-- The sum of the counts with one symbol's apart. -/
theorem sum_counts (f : Byte → Nat) (x : Byte) :
    (allSymbols.map f).sum = f x + ((allSymbols.erase x).map f).sum :=
  (List.sum_map_erase f (mem_allSymbols x)).symm

/-- `CNT` adds one to the sum as to the total; neither wraps, as the total was not at its largest. -/
theorem totalIsSum_countByte {x : Byte} (h : TotalIsSum s) (ht : countByte x s = .ok t) : TotalIsSum t := by
  obtain ⟨hne, rfl⟩ := countByte_ok ht
  have hsum : (s.freqOf x).toNat + ((allSymbols.erase x).map fun y => (s.freqOf y).toNat).sum = s.total.toNat :=
    (sum_counts _ x).symm.trans h
  have hlt : s.total.toNat < 2 ^ 32 - 1 := by
    have := s.total.isLt
    have : s.total.toNat ≠ Config.totalMax.toNat := fun e => hne (BitVec.eq_of_toNat_eq e)
    simp at this
    omega
  have hfreq : ∀ y, State.freqOf { s with freq := fileWrite s.freq x (s.freqOf x + 1), total := s.total + 1 } y =
      if y = x then s.freqOf x + 1 else s.freqOf y := fun y => fileRead_fileWrite _ _ _ _
  have hothers : ((allSymbols.erase x).map fun y => (if y = x then s.freqOf x + 1 else s.freqOf y).toNat) =
      (allSymbols.erase x).map fun y => (s.freqOf y).toNat := by
    refine List.map_congr_left fun y hy => ?_
    rw [if_neg ((nodup_allSymbols.mem_erase_iff.mp hy).1)]
  unfold TotalIsSum
  simp only [hfreq]
  rw [sum_counts _ x, hothers, if_pos rfl, BitVec.toNat_add, BitVec.toNat_add]
  simp
  omega

/-! ### The table that `GEN` writes (rule R133) -/

/-- Two symbols at the end of one path are one symbol. -/
theorem PathTo.symbol_unique {q : Bits} {x y : Byte} (hx : PathTo s q x) (hy : PathTo s q y) : x = y := by
  obtain ⟨i, hi, -, rfl⟩ := hx
  obtain ⟨j, hj, -, rfl⟩ := hy
  rw [hi] at hj
  cases hj
  rfl

/-- No code of a tree's table begins another: with two symbols or more the codes are the paths of different leaves. -/
theorem CodesOf.prefixFree {codes : List (Byte × Bits)} (ht : TreeInv s) (h : CodesOf s codes) :
    PrefixFree (writeCodes codes s) := by
  intro x y hxy hx hy hpre
  have hxm := h.code_mem hx
  have hym := h.code_mem hy
  have hk : 0 < s.k := by
    obtain ⟨i, hi, -⟩ := ht.leaf_of_present x ((h.entry_iff x).mp hx)
    omega
  by_cases h1 : s.k = 1
  · rw [h.single h1, List.mem_singleton, Prod.mk.injEq] at hxm hym
    exact hxy (hxm.1.trans hym.1.symm)
  · have hpx := (h.paths (by omega) _ _).mp hxm
    have hpy := (h.paths (by omega) _ _).mp hym
    have he := hpx.not_prefix hpy hpre
    exact hxy (hpx.symbol_unique (he ▸ hpy))

theorem CodesOf.entries_eq {codes : List (Byte × Bits)} (h : CodesOf s codes) :
    (writeCodes codes s).entries = s.present := by
  unfold State.entries State.present
  refine List.filter_congr fun x _ => ?_
  rw [decide_eq_decide]
  exact h.entry_iff x

theorem tableInv_generateWrites {codes : List (Byte × Bits)} (ht : TreeInv s) (hc : treeCodes s = some codes) :
    TableInv (generateWrites codes s) := by
  obtain ⟨codes', hc', h⟩ := ht.treeCodes
  obtain rfl := Option.some.inj (hc.symm.trans hc')
  refine ⟨h.prefixFree ht, ?_⟩
  have hk : (generateWrites codes s).k = s.k := by
    show (writeCodes codes s).k = s.k
    rw [writeCodes_frame]
    rfl
  have he : (generateWrites codes s).entries = s.present := h.entries_eq
  rw [hk, he]
  exact ht.k_eq

/-! ### Every command keeps the invariant -/

/-- An error leaves the registers and no phase's part to keep (rule R201). -/
theorem Inv.raise (h : Inv s) (e : ErrorCode) : Inv (raise e s) := by
  refine RegisterInv.inv ⟨by simp, by simp, h.total_sum, h.buffer.congr rfl rfl rfl, h.nsym_le, ?_⟩ trivial
  rintro r (hr | hr)
  · obtain rfl := Option.mem_some.mp (Option.mem_toList.mp hr)
    exact ⟨fun _ => rfl, .inl (by cases e <;> decide)⟩
  · exact h.responses_ok r (.inr hr)

/-- What the ports hold does not touch the registers' invariant. -/
theorem Inv.ports (h : Inv s) {rsp : Option Response} {delivered : List Response} (inputs : List PortIn)
    (rspDelay : Nat) (latencies : List Nat) (hr : ∀ r, r ∈ rsp.toList ∨ r ∈ delivered → ResponseOk r) :
    Inv { s with inputs := inputs, rsp := rsp, rspDelay := rspDelay, latencies := latencies, delivered := delivered } :=
  { h with
    tree := fun e => (h.tree e).congr rfl rfl rfl rfl rfl rfl
    table := fun e => (h.table e).congr rfl rfl rfl
    packer := fun e => (h.packer e).congr rfl rfl rfl
    decoder := fun e => (h.decoder e).congr rfl rfl rfl rfl
    responses_ok := hr }

/-- A response of the right form (rules R88 and R200). -/
theorem Inv.answer (h : Inv s) {r : Response} (hr : ResponseOk r) : Inv { s with rsp := some r } := by
  refine h.ports s.inputs s.rspDelay s.latencies ?_
  rintro r' (hr' | hr')
  · obtain rfl := Option.mem_some.mp (Option.mem_toList.mp hr')
    exact hr
  · exact h.responses_ok r' (.inr hr')

theorem Inv.respond (h : Inv s) (d : BitVec 32) : Inv (respond d s) :=
  h.answer ⟨fun h => absurd rfl h, .inl (Nat.zero_le _)⟩

theorem Inv.answerFaulted (h : Inv s) : Inv (answerFaulted s) :=
  h.answer ⟨fun _ => rfl, .inr rfl⟩

/-- The reset values meet the invariant (rules R40 and R101). -/
theorem clearBlock_inv (hb : BufferInv s) (hr : ∀ r, r ∈ s.rsp.toList ∨ r ∈ s.delivered → ResponseOk r) :
    Inv (clearBlock s) := by
  refine RegisterInv.inv ⟨by simp, by simp, ?_, hb.restart rfl rfl rfl, Nat.zero_le _, hr⟩
    ⟨⟨rfl, rfl⟩, rfl, fun x => by simp [State.lenOf]⟩
  simp [TotalIsSum, State.freqOf]

theorem countByte_inv {x : Byte} (h : Inv s) (hp : s.phase = .idle) (ht : countByte x s = .ok t) : Inv t := by
  have hsum := totalIsSum_countByte h.total_sum ht
  obtain ⟨-, rfl⟩ := countByte_ok ht
  exact h.keep .idle (by simp [hp]) hp (by decide) (hp ▸ h.ovalid_table) hsum (h.buffer.congr rfl rfl rfl) h.nsym_le
    ⟨h.tree_gone (by simp [hp]) (by simp [hp]), h.idle_empty hp⟩

theorem buildWrites_inv (h : Inv s) (hp : s.phase = .idle) : Inv (buildWrites s) := by
  have ht := treeInv_buildWrites h.total_sum
  have hv : (buildWrites s).ovalid = false := h.ovalid_eq_false (by simp [hp])
  exact h.keep .tree (by simp [hp]) rfl (by decide) (by simp [hv]) h.total_sum (h.buffer.congr rfl rfl rfl) ht.k_le ht

theorem generateWrites_inv {codes : List (Byte × Bits)} (h : Inv s) (hp : s.phase = .tree)
    (hc : treeCodes s = some codes) : Inv (generateWrites codes s) := by
  have ht := tableInv_generateWrites (h.tree hp) hc
  have hf : generateWrites codes s = { s with
      len := (writeCodes codes s).len, bits := (writeCodes codes s).bits
      nnodes := 0, root := Config.nil, phase := .table } := by
    unfold generateWrites
    rw [writeCodes_frame]
  rw [hf] at ht ⊢
  exact h.keep .table (by simp [hp]) rfl (by decide) (fun _ => rfl) h.total_sum (h.buffer.congr rfl rfl rfl) h.nsym_le
    ⟨⟨rfl, rfl⟩, ht⟩

/-- Before a table is sealed or a tree built there is neither, and no output (rules R24, R25 and R30). -/
theorem Inv.unsealed (h : Inv s) (hp : s.phase = .idle ∨ s.phase = .load) :
    s.phase ≠ .fault ∧ TreeGone s ∧ s.k = 0 ∧ s.ovalid = false := by
  have hne : s.phase ≠ .fault ∧ s.phase ≠ .tree ∧ s.phase ≠ .table := by rcases hp with hp | hp <;> simp [hp]
  obtain ⟨hfault, htree, htable⟩ := hne
  exact ⟨hfault, h.tree_gone htree hfault, hp.elim (fun hp => (h.idle_empty hp).1) h.load_unsealed,
    h.ovalid_eq_false htable⟩

theorem tsel_inv (x : Byte) (h : Inv s) (hp : s.phase = .idle ∨ s.phase = .load) :
    Inv { setCode x [] s with tsym := x, phase := .load } := by
  obtain ⟨hs, hg, hk, hv⟩ := h.unsealed hp
  exact h.keep .load hs rfl (by decide) (by simp [hv]) h.total_sum (h.buffer.congr rfl rfl rfl) h.nsym_le ⟨hg, hk⟩

theorem extendEntry_inv {bit : Bool} (h : Inv s) (hp : s.phase = .load) (ht : extendEntry bit s = .ok t) : Inv t := by
  obtain ⟨hs, hg, hk, hv⟩ := h.unsealed (.inr hp)
  obtain rfl := extendEntry_ok ht
  exact h.keep .load hs hp (by decide) (by simp [hv]) h.total_sum (h.buffer.congr rfl rfl rfl) h.nsym_le ⟨hg, hk⟩

theorem sealTable_inv (h : Inv s) (hp : s.phase = .idle ∨ s.phase = .load) (ht : sealTable s = .ok t) : Inv t := by
  obtain ⟨hs, hg, -, -⟩ := h.unsealed hp
  obtain ⟨hclash, rfl⟩ := sealTable_ok ht
  have hlen := length_entries_le s
  have hk : (BitVec.ofNat 9 s.entries.length).toNat = s.entries.length := by
    rw [BitVec.toNat_ofNat]
    omega
  exact h.keep .table hs rfl (by decide) (fun _ => rfl) h.total_sum (h.buffer.congr rfl rfl rfl) (hk.trans_le hlen)
    ⟨hg, tableClashes_eq_false hclash, hk⟩

/-- In the phases of a sealed table the tree is gone and the table valid (rules R30 and R33). -/
theorem Inv.sealed (h : Inv s) (hp : s.phase = .table ∨ s.phase = .encode ∨ s.phase = .decode) :
    s.phase ≠ .fault ∧ TreeGone s ∧ TableInv s := by
  have hne : s.phase ≠ .fault ∧ s.phase ≠ .tree := by rcases hp with hp | hp | hp <;> simp [hp]
  exact ⟨hne.1, h.tree_gone hne.2 hne.1, h.table hp⟩

theorem beginEncode_inv (h : Inv s) (hp : s.phase = .table) (ht : beginEncode s = .ok t) : Inv t := by
  obtain ⟨hs, hg, hti⟩ := h.sealed (.inl hp)
  have hb : BufferInv { s with ovalid := false, olen := 0 } := h.buffer.restart rfl rfl rfl
  obtain ⟨u, hu, rfl⟩ := beginEncode_ok ht
  have hbu := hb.append hu
  rcases append_cases hu with ⟨-, e⟩ | ⟨-, e⟩ <;> cases e
  exact h.keep .encode hs rfl (by decide) Bool.noConfusion h.total_sum (hbu.congr rfl rfl rfl) h.nsym_le
    ⟨hg, hti.congr rfl rfl rfl, Nat.le_refl 1, fun i _ => by simp⟩

theorem encodeByte_inv {x : Byte} (h : Inv s) (hp : s.phase = .encode) (ht : encodeByte x s = .ok t) : Inv t := by
  obtain ⟨hs, hg, hti⟩ := h.sealed (.inr (.inl hp))
  have ht := encodeByte_ok ht
  have hb := h.buffer.pushBits ht
  have hpk := (h.packer hp).pushBits h.buffer ht
  have hf := pushBits_frame ht
  generalize t.acc = a, t.nacc = n, t.obuf = m, t.olen = l at hf
  subst hf
  exact h.keep .encode hs hp (by decide) (hp ▸ h.ovalid_table) h.total_sum hb h.nsym_le ⟨hg, hti.congr rfl rfl rfl, hpk⟩

theorem endEncode_inv (h : Inv s) (hp : s.phase = .encode) (ht : endEncode s = .ok t) : Inv t := by
  obtain ⟨hs, hg, hti⟩ := h.sealed (.inr (.inl hp))
  obtain ⟨u, hu, rfl⟩ := endEncode_ok ht
  obtain ⟨hb, hf⟩ : BufferInv u ∧ u = { s with obuf := u.obuf, olen := u.olen } := by
    rcases hu with rfl | hu
    · exact ⟨h.buffer, rfl⟩
    · exact ⟨h.buffer.append hu, append_frame hu⟩
  generalize u.obuf = m, u.olen = l at hf
  subst hf
  have hpos : 0 < s.obufSize.toNat := Nat.pos_of_ne_zero fun e => h.size_pos (BitVec.eq_of_toNat_eq e)
  exact h.keep .table hs rfl (by decide) (fun _ => rfl) h.total_sum (hb.write hpos rfl hb.olen_le rfl) h.nsym_le
    ⟨hg, hti.congr rfl rfl rfl⟩

theorem beginDecode_inv {hdr : Byte} (h : Inv s) (hp : s.phase = .table) (ht : beginDecode hdr s = .ok t) : Inv t := by
  obtain ⟨hs, hg, hti⟩ := h.sealed (.inl hp)
  obtain rfl := beginDecode_ok ht
  exact h.keep .decode hs rfl (by decide) Bool.noConfusion h.total_sum (h.buffer.restart rfl rfl rfl) h.nsym_le
    ⟨hg, hti.congr rfl rfl rfl, decoderInv_of_empty (candidate_setCand (by simp) s)⟩

theorem takePayload_inv {x : Byte} (h : Inv s) (hp : s.phase = .decode) (ht : takePayload x s = .ok t) : Inv t := by
  obtain ⟨hs, hg, hti⟩ := h.sealed (.inr (.inr hp))
  obtain ⟨q, u, hu, rfl⟩ := takePayload_ok ht
  have hb := h.buffer.feedBits hu
  have hd := (h.decoder hp).feedBits hu
  have hf := feedBits_frame hu
  generalize u.cand = c, u.clen = n, u.obuf = m, u.olen = l at hf
  subst hf
  exact h.keep .decode hs hp (by decide) (hp ▸ h.ovalid_table) h.total_sum (hb.congr rfl rfl rfl) h.nsym_le
    ⟨hg, hti.congr rfl rfl rfl, hd.congr rfl rfl rfl rfl⟩

theorem endDecode_inv (h : Inv s) (hp : s.phase = .decode) (ht : endDecode s = .ok t) : Inv t := by
  obtain ⟨hs, hg, hti⟩ := h.sealed (.inr (.inr hp))
  obtain ⟨q, u, hu, rfl⟩ := endDecode_ok ht
  have hb := h.buffer.feedBits hu
  have hf := feedBits_frame hu
  generalize u.cand = c, u.clen = n, u.obuf = m, u.olen = l at hf
  subst hf
  exact h.keep .table hs rfl (by decide) (fun _ => rfl) h.total_sum (hb.congr rfl rfl rfl) h.nsym_le
    ⟨hg, hti.congr rfl rfl rfl⟩

/-- The effect of every command keeps the invariant. -/
theorem Effect.inv {i : Instr} (h : Inv s) (hl : legal i s = true) (he : Effect i s t) : Inv t := by
  match i with
  | .nop | .stat | .frd _ | .ftot | .ncnt | .nwt _ | .nlk _ | .tlen _ | .tget _ _ | .olen | .ord _ =>
    cases he
    exact h
  | .clr =>
    cases he
    exact clearBlock_inv h.buffer h.responses_ok
  | .cnt x => exact countByte_inv h (by simpa [legal] using hl) he
  | .bld =>
    cases he
    exact buildWrites_inv h (by simpa [legal] using hl)
  | .gen =>
    obtain ⟨codes, hc, rfl⟩ := he
    exact generateWrites_inv h (by simpa [legal] using hl) hc
  | .tsel x =>
    cases he
    exact tsel_inv x h (by simpa [legal] using hl)
  | .tbit bit => exact extendEntry_inv h (by simpa [legal] using hl) he
  | .tend => exact sealTable_inv h (by simpa [legal] using hl) he
  | .ebeg => exact beginEncode_inv h (by simpa [legal] using hl) he
  | .enc x => exact encodeByte_inv h (by simpa [legal] using hl) he
  | .efin => exact endEncode_inv h (by simpa [legal] using hl) he
  | .dbeg hdr => exact beginDecode_inv h (by simpa [legal] using hl) he
  | .dpl x => exact takePayload_inv h (by simpa [legal] using hl) he
  | .dfin => exact endDecode_inv h (by simpa [legal] using hl) he

theorem exec_inv {i : Instr} (h : Inv s) (ht : exec i s = .next t) : Inv t := by
  rcases exec_ends ht with rfl | ⟨e, rfl⟩ | ⟨d, u, hl, hu, rfl⟩
  · exact h.answerFaulted
  · exact h.raise e
  · exact Inv.respond (hu.inv h hl) d

/-! ### Every edge keeps the invariant -/

theorem runWord_inv {w : CmdWord} (h : Inv s) (ht : runWord w s = .next t) : Inv t := by
  unfold runWord at ht
  cases hd : decode w with
  | ok i =>
    rw [hd] at ht
    exact exec_inv h ht
  | error e =>
    rw [hd] at ht
    cases ht
    split
    · exact h.answerFaulted
    · exact h.raise .illegal

theorem responseEdge_inv {r : Response} (ready : Bool) (h : Inv s) (hr : s.rsp = some r) :
    Inv (responseEdge r ready s) := by
  unfold responseEdge
  split
  · split
    · refine h.ports s.inputs s.rspDelay s.latencies ?_
      rintro r' (hr' | hr')
      · simp at hr'
      · rcases List.mem_append.mp hr' with hr' | hr'
        · exact h.responses_ok r' (.inr hr')
        · obtain rfl := List.mem_singleton.mp hr'
          exact h.responses_ok r' (.inl (by simp [hr]))
    · exact h
  · exact h.ports s.inputs (s.rspDelay - 1) s.latencies h.responses_ok

theorem clockEdge_inv {p : PortIn} (h : Inv s) (ht : clockEdge p s = .next t) : Inv t := by
  unfold clockEdge at ht
  split at ht
  · cases ht
    exact clearBlock_inv (s := { s with rsp := none, rspDelay := 0 }) (h.buffer.congr rfl rfl rfl)
      fun r hr => h.responses_ok r (.inr (by simpa using hr))
  · cases hr : s.rsp with
    | some r =>
      simp only [hr] at ht
      cases ht
      exact responseEdge_inv p.rspReady h hr
    | none =>
      simp only [hr] at ht
      split at ht
      · exact runWord_inv (s := startCommand s) (h.ports s.inputs _ _ h.responses_ok) ht
      · cases ht
        exact h

end

/-- Settles O54: taking the input touches the ports alone, and each kind of edge keeps the invariant. -/
theorem stepKeepsTheInvariant : Obligations.StepKeepsTheInvariant := by
  intro s t h ht
  exact clockEdge_inv (s := takeInput s) (h.ports s.inputs.tail s.rspDelay s.latencies h.responses_ok) ht

/-- Settles O53: the reset state is a cleared block with an empty buffer. -/
theorem resetMeetsTheInvariant : Obligations.ResetMeetsTheInvariant := by
  have hb : BufferInv State.reset := ⟨by decide, Nat.zero_le _, Memory.wf_nil, fun c hc => nomatch hc⟩
  exact clearBlock_inv (s := State.reset) hb fun r hr => by simp [State.reset] at hr

/-- Settles O15: the registers are written out in `State.reset`; the two files read 0 everywhere. -/
theorem resetValues : Obligations.ResetValues := by
  have hfreq : ∀ x, State.reset.freqOf x = 0#32 := fileRead_replicate 0
  have hlen : ∀ x, State.reset.lenOf x = 0#8 := fileRead_replicate 0
  exact ⟨rfl, rfl, rfl, rfl, hfreq, rfl, rfl, rfl, hlen, rfl, rfl, rfl, rfl, rfl, rfl, rfl, rfl, rfl⟩

/-- Settles O17: with `rst` and `cmd_valid` at 0 and no response due, the edge only takes the input. -/
theorem blockHoldsStateWhenIdle : Obligations.BlockHoldsStateWhenIdle := by
  intro s hr hquiet
  have hp : (nextInput s).rst = false ∧ (nextInput s).cmdValid = false := by
    unfold nextInput
    cases hi : s.inputs with
    | nil => exact ⟨rfl, rfl⟩
    | cons p rest => exact hquiet p (by simp [hi])
  obtain ⟨hrst, hvalid⟩ := hp
  simp [step, clockEdge, hrst, hvalid, hr, takeInput]

end Sys2Proof.Machine

/-! ## A whole encode session (rules R62, R63, R67, R150 to R156)

`EBEG` leaves a packer with no bits, each `ENC` pushes one codeword (`Pushed`), and `EFIN` pads the last byte with zeros and
writes the header. -/

namespace Sys2Proof.Machine

section
variable {s t : State}

/-! ### What `EBEG` and `ENC` do when they succeed -/

/-- A command that the phase accepts and whose own rule reaches the state `t` answers from it (rules R88 and R89). -/
theorem command_answers {l : Bool} {r : Working} {d : State → BitVec 32} (hp : s.phase ≠ .fault) (hl : l = true)
    (hr : r = .ok t) : command l (fun _ => finish s r d) s = .next (respond (d t) t) := by
  rw [hl, command_of_legal hp, hr, finish_ok]

/-- A session just opened: the header's byte reserved, no bit packed (rule R150). -/
def openSession (s : State) : State :=
  { s with obuf := s.obuf.write 0 0, olen := 1, ovalid := false, acc := 0, nacc := 0, phase := .encode }

theorem exec_ebeg_of_table (hp : s.phase = .table) (hsize : s.obufSize ≠ 0#32) :
    exec .ebeg s = .next (respond 0 (openSession s)) := by
  refine command_answers (r := beginEncode s) (d := fun _ => 0) (by simp [hp]) (by simp [legal, hp]) ?_
  unfold beginEncode
  rw [append_ok (s := { s with ovalid := false, olen := 0 }) hsize.symm]
  rfl

theorem packerInv_openSession (s : State) : PackerInv (openSession s) :=
  ⟨Nat.le_refl 1, fun _ _ => BitVec.getLsbD_zero⟩

theorem packedBits_openSession (s : State) : packedBits (openSession s) = [] := rfl

theorem exec_enc_of_pushBits {x : Byte} (hp : s.phase = .encode) (hx : s.lenOf x ≠ 0#8)
    (h : pushBits (s.codeword x) s = .ok t) : exec (.enc x) s = .next (respond 0 t) :=
  command_answers (r := encodeByte x s) (d := fun _ => 0) (by simp [hp]) (by simp [legal, hp]) (by simp [encodeByte, hx, h])

/-- The packer does not look at the response. -/
theorem Pushed.withRsp {q : Bits} (h : Pushed s q t) (r : Option Response) :
    Pushed { s with rsp := r } q { t with rsp := r } where
  packed := h.packed
  inv := h.inv.congr rfl rfl rfl
  olen := h.olen
  nacc := h.nacc
  outside := h.outside
  frame := congrArg (fun t : State => { t with rsp := r }) h.frame

/-- One `ENC` after another pushes the code stream, where it fits (rule R151). -/
theorem execAll_enc_pushed (b : List Byte) {s : State} (hp : s.phase = .encode) (hi : PackerInv s)
    (hle : s.olen.toNat ≤ s.obufSize.toNat) (hb : Covered s b)
    (hfit : s.olen.toNat + (s.nacc.toNat + (codeStream s b).length) / 8 ≤ s.obufSize.toNat) :
    ∃ t, execAll (b.map .enc) s = .next t ∧ Pushed { s with rsp := t.rsp } (codeStream s b) t := by
  induction b generalizing s with
  | nil => exact ⟨s, rfl, .refl hi⟩
  | cons x b ih =>
    rw [codeStream_cons, List.length_append] at hfit
    obtain ⟨u, hu, hx⟩ := pushBits_pushed (s.codeword x) hi hle (by omega)
    have holen := hx.olen
    have hnacc := hx.nacc
    have hframe := hx.frame
    have hphase : u.phase = .encode := by rw [hframe]; exact hp
    have hsize : u.obufSize = s.obufSize := by rw [hframe]
    have hcovers : Covered u b := by
      rw [hframe]
      exact fun y hy => hb y (List.mem_cons_of_mem x hy)
    have hstream : codeStream (respond 0 u) b = codeStream s b := by rw [hframe]; rfl
    obtain ⟨t, ht, hrest⟩ := ih (s := respond 0 u) hphase (hx.inv.congr rfl rfl rfl)
      (by simp only [respond_olen, respond_obufSize, hsize]; omega) hcovers
      (by simp only [respond_olen, respond_obufSize, respond_nacc, hsize, hstream]; omega)
    refine ⟨t, (execAll_cons_next (exec_enc_of_pushBits hp (hb x (by simp)) hu)).trans ht, ?_⟩
    rw [codeStream_cons, ← hstream]
    exact (hx.withRsp t.rsp).trans hrest

/-! ### What `EFIN` does when it succeeds -/

/-- A byte whose low bits are 0 is its high bits, MSB-first, and zeros (rules R62 and R67). -/
theorem bitsMsbFirst_eq_take_append (v : Byte) (n : Nat) (h : ∀ i, i < 8 - n → v.getLsbD i = false) :
    bitsMsbFirst v = (bitsMsbFirst v).take n ++ List.replicate (8 - n) false := by
  have hlow : (bitsMsbFirst v).drop n = List.replicate (8 - n) false := by
    refine List.eq_replicate_iff.mpr ⟨by simp, fun x hx => ?_⟩
    obtain ⟨i, hi, rfl⟩ := List.mem_drop_iff_getElem.mp hx
    have hbits : bitsMsbFirst v = (List.range 8).map fun j => v.getLsbD (7 - j) := rfl
    simp only [hbits, List.getElem_map, List.getElem_range]
    exact h _ (by simp at hi; omega)
  rw [← hlow, List.take_append_drop]

/-- The payload: the output without the header's byte. -/
theorem tail_outBytes (s : State) :
    (outBytes s).tail = (List.range (s.olen.toNat - 1)).map fun a => s.obufAt (a + 1) := by
  apply List.ext_getElem?
  intro a
  rw [List.getElem?_tail, getElem?_outBytes]
  by_cases h : a + 1 < s.olen.toNat
  · rw [if_pos h, List.getElem?_map, List.getElem?_range (by omega)]
    rfl
  · rw [if_neg h, List.getElem?_eq_none (by simp; omega)]

/-- What the last byte leaves (rule R153): the payload is the packed bits and zeros up to a whole byte (rule R67). -/
structure Flushed (s t : State) : Prop where
  payload : (outBytes t).tail.flatMap bitsMsbFirst = packedBits s ++ List.replicate ((8 - s.nacc.toNat) % 8) false
  olen : t.olen.toNat = s.olen.toNat + (s.nacc.toNat + 7) / 8
  frame : t = { s with obuf := t.obuf, olen := t.olen }

theorem flushByte_flushed (hi : PackerInv s) (hle : s.olen.toNat ≤ s.obufSize.toNat)
    (hfit : s.olen.toNat + (s.nacc.toNat + 7) / 8 ≤ s.obufSize.toNat) : ∃ t, flushByte s = .ok t ∧ Flushed s t := by
  unfold flushByte
  by_cases h0 : s.nacc = 0#3
  · rw [if_pos h0]
    exact ⟨s, rfl, by simp [packedBits, h0], by simp [h0], rfl⟩
  · have hpos : s.nacc.toNat ≠ 0 := fun e => h0 (BitVec.eq_of_toNat_eq e)
    have hlt := s.nacc.isLt
    have hne : s.olen ≠ s.obufSize := by
      intro e
      rw [e] at hfit
      omega
    obtain ⟨hsucc, -⟩ := toNat_olen_succ hle hne
    rw [if_neg h0, append_ok hne]
    refine ⟨_, rfl, ?_, by simp only [hsucc]; omega, rfl⟩
    have hout : outBytes s ≠ [] := List.ne_nil_of_length_pos (by rw [length_outBytes]; exact hi.headerReserved)
    have hacc := bitsMsbFirst_eq_take_append s.acc s.nacc.toNat hi.clean
    rw [outBytes_of_write (s := s) rfl hsucc, List.tail_append_of_ne_nil hout, List.flatMap_append, List.flatMap_singleton,
      hacc, ← List.append_assoc, Nat.mod_eq_of_lt (by omega : 8 - s.nacc.toNat < 8)]
    rfl

/-- What a session leaves in which the bits `q` were pushed (rules R63, R67 and R153). -/
structure Packed (s : State) (q : Bits) (t : State) : Prop where
  payload : (outBytes t).tail.flatMap bitsMsbFirst = q ++ List.replicate ((8 - q.length % 8) % 8) false
  olen : t.olen.toNat = 1 + (q.length + 7) / 8
  header : (t.obufAt 0).toNat = q.length % 8
  frame : t = { s with
    obuf := t.obuf, olen := t.olen, acc := 0, nacc := 0, ovalid := true, phase := .table, rsp := t.rsp }

/-- `EFIN` in the state `v` of a session in which the bits `q` were pushed: the header's byte is no part of the payload
(rule R153). -/
theorem exec_efin_packed {v : State} {q : Bits} (hp : v.phase = .encode) (h : Pushed (openSession s) q v)
    (hfit : 1 + (q.length + 7) / 8 ≤ s.obufSize.toNat) : ∃ t, exec .efin v = .next t ∧ Packed s q t := by
  have hframe := h.frame
  have hsize : v.obufSize = s.obufSize := by rw [hframe]; rfl
  have holen : v.olen.toNat = 1 + q.length / 8 := by simpa [openSession] using h.olen
  have hnacc : v.nacc.toNat = q.length % 8 := by simpa [openSession] using h.nacc
  obtain ⟨u, hu, hf⟩ := flushByte_flushed h.inv (by rw [hsize]; omega) (by rw [hsize]; omega)
  have hend : endEncode v = .ok { u with
      obuf := u.obuf.write 0 (v.nacc.setWidth 8), acc := 0, nacc := 0, ovalid := true, phase := .table } := by
    rw [endEncode, hu]
    rfl
  refine ⟨_, command_answers (r := endEncode v) (d := fun _ => 0) (by simp [hp]) (by simp [legal, hp]) hend, ?_, ?_, ?_, ?_⟩
  · have hpayload := hf.payload
    rw [h.packed, packedBits_openSession, List.nil_append, hnacc, tail_outBytes] at hpayload
    rw [← hpayload, tail_outBytes]
    congr 1
    exact List.map_congr_left fun a _ => Memory.read_write_of_ne _ (Nat.succ_ne_zero a) _
  · show u.olen.toNat = _
    rw [hf.olen]
    omega
  · show (Memory.read (u.obuf.write 0 (v.nacc.setWidth 8)) 0).toNat = _
    rw [Memory.read_write_same, BitVec.toNat_setWidth]
    omega
  · rw [hf.frame, hframe]
    rfl

/-- An encode session over a covered byte sequence that fits (rules R87 and R150 to R153). -/
theorem encodeSession_packed {b : List Byte} (hp : s.phase = .table) (hb : Covered s b)
    (hfit : 1 + ((codeStream s b).length + 7) / 8 ≤ s.obufSize.toNat) :
    ∃ t, execAll (encodeSession b) s = .next t ∧ Packed s (codeStream s b) t := by
  have hsize : s.obufSize ≠ 0#32 := by
    intro e
    simp [e] at hfit
  obtain ⟨t, ht, hpushed⟩ := execAll_enc_pushed b (s := respond 0 (openSession s)) rfl
    ((packerInv_openSession s).congr rfl rfl rfl)
    (show 1 ≤ s.obufSize.toNat by omega) hb
    (show 1 + (0 + (codeStream s b).length) / 8 ≤ s.obufSize.toNat by omega)
  have hphase : t.phase = .encode := by rw [hpushed.frame]; rfl
  obtain ⟨u, hu, hpacked⟩ := exec_efin_packed (s := { s with rsp := t.rsp }) hphase hpushed hfit
  refine ⟨u, ?_, hpacked.payload, hpacked.olen, hpacked.header, hpacked.frame⟩
  rw [encodeSession, execAll_cons_next (exec_ebeg_of_table hp hsize), execAll_append, ht]
  exact execAll_cons_next hu

/-- A payload bit is a bit of the pushed ones, or padding (rules R62 and R67). -/
theorem Packed.payload_bit {q : Bits} (h : Packed s q t) {n : Nat} (hn : n < 8 * (t.olen.toNat - 1)) :
    (t.obufAt (1 + n / 8)).getLsbD (7 - n % 8) = q.getD n false := by
  have hbit := congrArg (fun l : Bits => l[n]?.getD false) h.payload
  rw [getElem?_flatMap_bitsMsbFirst, List.getElem?_tail, getElem?_outBytes, if_pos (by omega),
    Nat.add_comm (n / 8)] at hbit
  refine hbit.trans ?_
  rw [List.getD_eq_getElem?_getD, List.getElem?_append]
  split
  · rfl
  · rw [List.getElem?_eq_none (l := q) (by omega), List.getElem?_replicate]
    split <;> rfl

theorem length_codeStream (s : State) (b : List Byte) :
    (codeStream s b).length = (b.map fun x => (s.lenOf x).toNat).sum := by
  simp [codeStream, List.length_flatMap]

end

/-- Settles O42: each clause is one of `Packed`. -/
theorem sessionPacksTheCodeStream : Obligations.SessionPacksTheCodeStream := by
  intro s b hp hb hfit
  obtain ⟨t, ht, h⟩ := encodeSession_packed hp hb hfit
  have htable : SameTable t s := by
    rw [h.frame]
    exact fun _ => ⟨rfl, rfl⟩
  exact ⟨t, ht, by rw [h.frame], by rw [h.frame], htable, length_codeStream s b, h.olen, h.header,
    fun _ hn => h.payload_bit hn⟩

end Sys2Proof.Machine

/-! ## Reads are idempotent (rule R68) -/

namespace Sys2Proof.Machine

section
variable {s t : State}

/-- No error is answered with the code 0 (rule R200). -/
theorem rsp_raise_ne (e : ErrorCode) (s : State) (v : BitVec 32) : (raise e s).rsp ≠ some { err := 0, data := v } := by
  cases e <;> simp [ErrorCode.code]

/-- A command that answers 0 was accepted, and its own rule answered (rules R89 and R202). -/
theorem command_succeeds {l : Bool} {run : State → Outcome} {v : BitVec 32} (h : command l run s = .next t)
    (hr : t.rsp = some { err := 0, data := v }) : s.phase ≠ .fault ∧ l = true ∧ run s = .next t := by
  rcases command_cases h with ⟨-, rfl⟩ | ⟨-, -, rfl⟩ | h
  · simp [errFaulted] at hr
  · exact absurd hr (rsp_raise_ne _ s v)
  · exact h

/-- A read that succeeds changes nothing but the response, and does so again: neither the check of its index nor its
answer looks at the response. -/
theorem read_again {i : Instr} {ok : State → Bool} {d : State → BitVec 32} {v : BitVec 32}
    (h : command (legal i s) (fun s => finish s (inRange (ok s) s) d) s = .next t)
    (hr : t.rsp = some { err := 0, data := v }) (hl : legal i (respond v s) = legal i s := by rfl)
    (hok : ok (respond v s) = ok s := by rfl) (hd : d (respond v s) = d s := by rfl) :
    t = respond v s ∧ command (legal i t) (fun s => finish s (inRange (ok s) s) d) t = .next t := by
  obtain ⟨hp, hlegal, h⟩ := command_succeeds h hr
  rcases inRange_cases (ok := ok s) (s := s) rfl with ⟨hin, e⟩ | ⟨-, e⟩ <;> rw [e] at h <;> cases h
  · obtain rfl : d s = v := by simpa using hr
    refine ⟨rfl, ?_⟩
    rw [hl, hlegal, command_of_legal (s := respond (d s) s) hp, hok, hin, inRange, if_pos rfl, finish_ok, hd]
    rfl
  · exact absurd hr (rsp_raise_ne _ s v)

/-- `STAT` succeeds in every phase (rule R102). -/
theorem stat_again {v : BitVec 32} (h : exec .stat s = .next t) (hr : t.rsp = some { err := 0, data := v }) :
    t = respond v s ∧ exec .stat t = .next t := by
  cases h
  obtain rfl : statusWord s = v := by simpa using hr
  exact ⟨rfl, rfl⟩

end

/-- Settles O52: each read command but `STAT` is `read_again` with the check of its index, or with no check. -/
theorem readsAreIdempotent : Obligations.ReadsAreIdempotent := by
  intro i s t d h hr hi
  rcases hi with rfl | rfl | rfl | rfl | ⟨x, rfl⟩ | ⟨j, rfl⟩ | ⟨j, rfl⟩ | ⟨x, rfl⟩ | ⟨x, y, rfl⟩ | ⟨a, rfl⟩
  · exact stat_again h hr
  · exact read_again (i := .ftot) (ok := fun _ => true) h hr
  · exact read_again (i := .ncnt) (ok := fun _ => true) h hr
  · exact read_again (i := .olen) (ok := fun _ => true) h hr
  · exact read_again (i := .frd x) (ok := fun _ => true) h hr
  · exact read_again (i := .nwt j) (ok := fun s => s.validNode j) h hr
  · exact read_again (i := .nlk j) (ok := fun s => s.validNode j) h hr
  · exact read_again (i := .tlen x) (ok := fun _ => true) h hr
  · exact read_again (i := .tget x y) (ok := fun s => s.validBit x y) h hr
  · exact read_again (i := .ord a) (ok := fun s => s.validAddr a) h hr

end Sys2Proof.Machine

/-! ## Determinism (rules R67 and R121)

After `CLR` two blocks of one `OBUF_SIZE` differ only in what is unreadable and at the ports. No command looks at the ports
(`exec_withPorts`) or shows the unreadable contents (`exec_alike`), so the two blocks go on in step. -/

namespace Sys2Proof.Machine

/-- The state `s` with what waits at the ports of `p`, the response due apart, which every command writes. -/
def withPorts (p s : State) : State :=
  { s with inputs := p.inputs, rspDelay := p.rspDelay, latencies := p.latencies, delivered := p.delivered }

section
variable {p : State}

/-! ### No command looks at the ports: the writes -/

theorem ite_withPorts {c : Prop} [Decidable c] {r r' q q' : Working} (hr : r' = r.map (withPorts p))
    (hq : q' = q.map (withPorts p)) : (if c then r' else q') = (if c then r else q).map (withPorts p) := by
  subst hr hq
  split <;> rfl

theorem map_withPorts {r r' : Working} {f : State → State} (hr : r' = r.map (withPorts p))
    (hf : ∀ t, f (withPorts p t) = withPorts p (f t)) : r'.map f = (r.map f).map (withPorts p) := by
  subst hr
  cases r with
  | ok t => exact congrArg Except.ok (hf t)
  | error e => rfl

theorem bind_withPorts {r r' : Working} {f : State → Working} (hr : r' = r.map (withPorts p))
    (hf : ∀ t, f (withPorts p t) = (f t).map (withPorts p)) : r'.bind f = (r.bind f).map (withPorts p) := by
  subst hr
  cases r with
  | ok t => exact hf t
  | error e => rfl

theorem countByte_withPorts (x : Byte) (s : State) : countByte x (withPorts p s) = (countByte x s).map (withPorts p) :=
  ite_withPorts rfl rfl

theorem extendEntry_withPorts (bit : Bool) (s : State) :
    extendEntry bit (withPorts p s) = (extendEntry bit s).map (withPorts p) :=
  ite_withPorts rfl rfl

theorem sealTable_withPorts (s : State) : sealTable (withPorts p s) = (sealTable s).map (withPorts p) :=
  ite_withPorts rfl rfl

theorem generateWrites_withPorts (codes : List (Byte × Bits)) (s : State) :
    generateWrites codes (withPorts p s) = withPorts p (generateWrites codes s) := by
  have fold : ∀ s, codes.foldl (fun t c => setCode c.1 c.2 t) (withPorts p s) =
      withPorts p (codes.foldl (fun t c => setCode c.1 c.2 t) s) := by
    induction codes with
    | nil => exact fun _ => rfl
    | cons c codes ih => exact fun s => ih (setCode c.1 c.2 s)
  exact congrArg (fun t : State => { t with nnodes := 0, root := Config.nil, phase := .table })
    (fold { s with len := Vector.replicate 256 0 })

theorem append_withPorts (v : Byte) (s : State) : append v (withPorts p s) = (append v s).map (withPorts p) :=
  ite_withPorts rfl rfl

theorem pushBit_withPorts (x : Bool) (s : State) : pushBit x (withPorts p s) = (pushBit x s).map (withPorts p) :=
  ite_withPorts (map_withPorts (append_withPorts _ s) fun _ => rfl) rfl

theorem pushBits_withPorts (q : Bits) (s : State) : pushBits q (withPorts p s) = (pushBits q s).map (withPorts p) := by
  induction q generalizing s with
  | nil => rfl
  | cons x q ih => exact bind_withPorts (pushBit_withPorts x s) ih

theorem beginEncode_withPorts (s : State) : beginEncode (withPorts p s) = (beginEncode s).map (withPorts p) :=
  map_withPorts (append_withPorts 0 { s with ovalid := false, olen := 0 }) fun _ => rfl

theorem encodeByte_withPorts (x : Byte) (s : State) :
    encodeByte x (withPorts p s) = (encodeByte x s).map (withPorts p) :=
  ite_withPorts rfl (pushBits_withPorts _ s)

theorem endEncode_withPorts (s : State) : endEncode (withPorts p s) = (endEncode s).map (withPorts p) :=
  map_withPorts (ite_withPorts rfl (append_withPorts _ s)) fun _ => rfl

theorem feedBit_withPorts (x : Bool) (s : State) : feedBit x (withPorts p s) = (feedBit x s).map (withPorts p) := by
  have hmatch : matching ((withPorts p s).candidate ++ [x]) (withPorts p s) = matching (s.candidate ++ [x]) s := rfl
  unfold feedBit
  rw [hmatch]
  cases matching (s.candidate ++ [x]) s with
  | some t => exact map_withPorts (append_withPorts t s) fun _ => rfl
  | none => exact ite_withPorts rfl rfl

theorem feedBits_withPorts (q : Bits) (s : State) : feedBits q (withPorts p s) = (feedBits q s).map (withPorts p) := by
  induction q generalizing s with
  | nil => rfl
  | cons x q ih => exact bind_withPorts (feedBit_withPorts x s) ih

theorem beginDecode_withPorts (hdr : Byte) (s : State) :
    beginDecode hdr (withPorts p s) = (beginDecode hdr s).map (withPorts p) :=
  ite_withPorts rfl rfl

theorem takePayload_withPorts (x : Byte) (s : State) :
    takePayload x (withPorts p s) = (takePayload x s).map (withPorts p) :=
  map_withPorts (ite_withPorts (feedBits_withPorts _ s) rfl) fun _ => rfl

theorem endDecode_withPorts (s : State) : endDecode (withPorts p s) = (endDecode s).map (withPorts p) :=
  map_withPorts (bind_withPorts (ite_withPorts (feedBits_withPorts _ s) rfl) fun _ => ite_withPorts rfl rfl) fun _ => rfl

/-! ### No command looks at the ports: the commands -/

variable {s t : State}

theorem command_withPorts {l : Bool} {run : State → Outcome}
    (hrun : run s = .next t → run (withPorts p s) = .next (withPorts p t)) (h : command l run s = .next t) :
    command l run (withPorts p s) = .next (withPorts p t) := by
  rcases command_cases h with ⟨hp, rfl⟩ | ⟨hp, rfl, rfl⟩ | ⟨hp, rfl, ht⟩
  · exact command_of_fault (s := withPorts p s) hp
  · exact command_of_not_legal (s := withPorts p s) hp
  · exact (command_of_legal (s := withPorts p s) hp).trans (hrun ht)

/-- A command whose writes, legality and answer do not look at the ports. -/
theorem work_withPorts {l : Bool} {work : State → Working} {d : State → BitVec 32}
    (h : command l (fun s => finish s (work s) d) s = .next t)
    (hw : work (withPorts p s) = (work s).map (withPorts p)) (hd : ∀ t, d (withPorts p t) = d t := by intros; rfl) :
    command l (fun s => finish s (work s) d) (withPorts p s) = .next (withPorts p t) := by
  refine command_withPorts (fun h => ?_) h
  rw [hw]
  rcases finish_cases h with ⟨u, hu, rfl⟩ | ⟨e, he, rfl⟩
  · rw [hu]
    show Host.Outcome.next (respond (d (withPorts p u)) (withPorts p u)) = _
    rw [hd]
    rfl
  · rw [he]
    rfl

theorem exec_withPorts {i : Instr} (h : exec i s = .next t) : exec i (withPorts p s) = .next (withPorts p t) := by
  match i with
  | .nop | .clr | .stat => cases h; rfl
  | .gen =>
    have h : execGen s = .next t := h
    show execGen (withPorts p s) = _
    unfold execGen at h ⊢
    refine command_withPorts (fun h => ?_) h
    have hcodes : treeCodes (withPorts p s) = treeCodes s := rfl
    rw [hcodes]
    cases hc : treeCodes s with
    | none => simp [hc] at h
    | some codes =>
      simp only [hc, finish_ok] at h
      cases h
      exact congrArg (fun t => Host.Outcome.next (respond 0 t)) (generateWrites_withPorts codes s)
  | .cnt x => exact work_withPorts h (countByte_withPorts x s)
  | .bld => exact work_withPorts (work := fun s => .ok (buildWrites s)) h rfl
  | .tsel x => exact work_withPorts (work := fun s => .ok { setCode x [] s with tsym := x, phase := .load }) h rfl
  | .tbit bit => exact work_withPorts h (extendEntry_withPorts bit s)
  | .tend => exact work_withPorts h (sealTable_withPorts s)
  | .ebeg => exact work_withPorts h (beginEncode_withPorts s)
  | .enc x => exact work_withPorts h (encodeByte_withPorts x s)
  | .efin => exact work_withPorts h (endEncode_withPorts s)
  | .dbeg hdr => exact work_withPorts h (beginDecode_withPorts hdr s)
  | .dpl x => exact work_withPorts h (takePayload_withPorts x s)
  | .dfin => exact work_withPorts h (endDecode_withPorts s)
  | .frd _ | .ftot | .ncnt | .tlen _ | .olen => exact work_withPorts (work := fun s => .ok s) h rfl
  | .nwt j | .nlk j => exact work_withPorts (work := fun s => inRange (s.validNode j) s) h (ite_withPorts rfl rfl)
  | .tget x bi => exact work_withPorts (work := fun s => inRange (s.validBit x bi) s) h (ite_withPorts rfl rfl)
  | .ord a => exact work_withPorts (work := fun s => inRange (s.validAddr a) s) h (ite_withPorts rfl rfl)

/-! ### What `BLD` and `GEN` need, and that no command is stuck where it holds -/

/-- The counts add up for `BLD` (rule R28), and the tree is one for `GEN` (rule R30). Unlike `Inv` it asks nothing of the
output buffer and the ports. -/
structure TreeReady (s : State) : Prop where
  counted : s.phase = .idle → TotalIsSum s
  tree : s.phase = .tree → TreeInv s

theorem treeReady_of_phase (hidle : s.phase ≠ .idle) (htree : s.phase ≠ .tree) : TreeReady s :=
  ⟨fun e => absurd e hidle, fun e => absurd e htree⟩

theorem TreeReady.withRsp (h : TreeReady s) (r : Option Response) : TreeReady { s with rsp := r } :=
  ⟨h.counted, fun e => (h.tree e).congr rfl rfl rfl rfl rfl rfl⟩

theorem treeReady_clearBlock (s : State) : TreeReady (clearBlock s) :=
  ⟨fun _ => by simp [TotalIsSum, State.freqOf], by simp⟩

theorem Effect.treeReady {i : Instr} (h : TreeReady s) (hl : legal i s = true) (he : Effect i s t) : TreeReady t := by
  match i with
  | .nop | .stat | .frd _ | .ftot | .ncnt | .nwt _ | .nlk _ | .tlen _ | .tget _ _ | .olen | .ord _ =>
    cases he
    exact h
  | .clr =>
    cases he
    exact treeReady_clearBlock s
  | .cnt x =>
    have hp : s.phase = .idle := by simpa [legal] using hl
    have hsum := totalIsSum_countByte (h.counted hp) he
    obtain ⟨-, rfl⟩ := countByte_ok he
    exact ⟨fun _ => hsum, by simp [hp]⟩
  | .bld =>
    cases he
    have hp : s.phase = .idle := by simpa [legal] using hl
    exact ⟨by simp [buildWrites], fun _ => treeInv_buildWrites (h.counted hp)⟩
  | .gen =>
    obtain ⟨codes, -, rfl⟩ := he
    exact treeReady_of_phase (by simp [generateWrites]) (by simp [generateWrites])
  | .tsel x =>
    cases he
    exact treeReady_of_phase (by simp) (by simp)
  | .tbit bit =>
    have hp : s.phase = .load := by simpa [legal] using hl
    rw [extendEntry_ok he]
    exact treeReady_of_phase (by simp [hp]) (by simp [hp])
  | .tend =>
    rw [(sealTable_ok he).2]
    exact treeReady_of_phase (by simp) (by simp)
  | .ebeg =>
    obtain ⟨u, -, rfl⟩ := beginEncode_ok he
    exact treeReady_of_phase (by simp) (by simp)
  | .enc x =>
    have hp : s.phase = .encode := by simpa [legal] using hl
    rw [pushBits_frame (encodeByte_ok he)]
    exact treeReady_of_phase (by simp [hp]) (by simp [hp])
  | .efin =>
    obtain ⟨u, -, rfl⟩ := endEncode_ok he
    exact treeReady_of_phase (by simp) (by simp)
  | .dbeg hdr =>
    rw [beginDecode_ok he]
    exact treeReady_of_phase (by simp) (by simp)
  | .dpl x =>
    have hp : s.phase = .decode := by simpa [legal] using hl
    obtain ⟨q, u, hu, rfl⟩ := takePayload_ok he
    rw [feedBits_frame hu]
    exact treeReady_of_phase (by simp [hp]) (by simp [hp])
  | .dfin =>
    obtain ⟨q, u, -, rfl⟩ := endDecode_ok he
    exact treeReady_of_phase (by simp) (by simp)

theorem exec_treeReady {i : Instr} (h : TreeReady s) (ht : exec i s = .next t) : TreeReady t := by
  rcases exec_ends ht with rfl | ⟨e, rfl⟩ | ⟨d, u, hl, hu, rfl⟩
  · exact h.withRsp _
  · exact treeReady_of_phase (by simp) (by simp)
  · exact (hu.treeReady h hl).withRsp _

theorem work_completes (l : Bool) (work : State → Working) (d : State → BitVec 32) (s : State) :
    ∃ t, command l (fun s => finish s (work s) d) s = .next t :=
  command_completes fun _ _ => finish_completes s (work s) d

/-- Every command answers where `GEN` has a tree that meets rule R30 (rule R88). -/
theorem exec_completes (i : Instr) (h : s.phase = .tree → TreeInv s) : ∃ t, exec i s = .next t := by
  match i with
  | .nop | .clr | .stat => exact ⟨_, rfl⟩
  | .gen =>
    show ∃ t, execGen s = .next t
    unfold execGen
    refine command_completes fun _ hl => ?_
    obtain ⟨codes, hc, -⟩ := (h (by simpa [legal] using hl)).treeCodes
    rw [hc]
    exact ⟨_, rfl⟩
  | .bld => exact work_completes _ (fun s => .ok (buildWrites s)) _ s
  | .tsel x => exact work_completes _ (fun s => .ok { setCode x [] s with tsym := x, phase := .load }) _ s
  | .cnt _ | .frd _ | .ftot | .ncnt | .nwt _ | .nlk _ | .tbit _ | .tend | .tlen _ | .tget _ _ | .ebeg
  | .enc _ | .efin | .dbeg _ | .dpl _ | .dfin | .olen | .ord _ =>
    exact work_completes _ _ _ s

/-! ### Two blocks in step -/

variable {u : State}

/-- Two states that differ at most in what is unreadable and at the ports. -/
def Twin (s u : State) : Prop := Alike True s (withPorts s u)

theorem Alike.outBytes_eq (h : Alike True s u) : outBytes s = outBytes u := by
  unfold outBytes
  rw [← h.view State.olen]
  exact List.map_congr_left fun a ha => h.obuf trivial a (List.mem_range.mp ha)

theorem Alike.sameTable {shown : Prop} (h : Alike shown s u) : SameTable s u :=
  fun x => ⟨h.view fun t => State.lenOf t x, h.code x⟩

/-- One command in both: it answers, with the same response, and the states go on in step. -/
theorem Twin.exec (h : Twin s u) (hs : TreeReady s) (i : Instr) :
    ∃ t v, Machine.exec i s = .next t ∧ Machine.exec i u = .next v ∧ Twin t v := by
  obtain ⟨t, ht⟩ := exec_completes i hs.tree
  obtain ⟨v, hv, htv⟩ := exec_alike h (fun hp => Alike.treeCodes h (hs.tree hp)) (fun _ => trivial) i t ht
  refine ⟨t, withPorts u v, ht, (exec_withPorts (p := u) hv :), ?_⟩
  obtain ⟨n, b, c, m, rfl⟩ := htv.overlay
  exact htv

/-- A sequence of commands in both. -/
theorem Twin.execAll (is : List Instr) {s u : State} (h : Twin s u) (hs : TreeReady s) :
    ∃ t v, Machine.execAll is s = .next t ∧ Machine.execAll is u = .next v ∧ responses is s = responses is u ∧
      Twin t v := by
  induction is generalizing s u with
  | nil => exact ⟨s, u, rfl, rfl, rfl, h⟩
  | cons i is ih =>
    obtain ⟨t, v, ht, hv, htv⟩ := h.exec hs i
    obtain ⟨t', v', ht', hv', hr, hend⟩ := ih htv (exec_treeReady hs ht)
    refine ⟨t', v', (execAll_cons_next ht).trans ht', (execAll_cons_next hv).trans hv', ?_, hend⟩
    have hrsp : t.rsp = v.rsp := Alike.rsp (u := withPorts t v) htv
    simp only [responses, ht, hv, hrsp, hr]

/-- `CLR` puts any two blocks of one `OBUF_SIZE` in step (rule R101). -/
theorem twin_clear (h : s.obufSize = u.obufSize) : Twin (respond 0 (clearBlock s)) (respond 0 (clearBlock u)) := by
  have empty : ∀ (t : State) x, (respond 0 (clearBlock t)).codeword x = [] := fun t x =>
    codeword_eq_nil (by simp [State.lenOf])
  refine ⟨?_, by simp, fun x => (empty s x).trans (empty u x).symm, rfl, by simp⟩
  simp [withPorts, respond, clearBlock, h]

end

/-- Settles O59: `CLR` puts the two blocks in step, and they stay so. -/
theorem compressionIsDeterministic : Obligations.CompressionIsDeterministic := by
  intro s u b hsize
  have hready : TreeReady (respond 0 (clearBlock s)) := (treeReady_clearBlock s).withRsp _
  obtain ⟨t, v, ht, hv, hr, htv⟩ :=
    (twin_clear hsize).execAll (countAll b ++ [.bld, .gen] ++ encodeSession b) hready
  have halike : Alike True t (withPorts t v) := htv
  exact ⟨t, v, ht, hv, congrArg (_ :: ·) hr, halike.phase, halike.sameTable, halike.view State.olen, halike.outBytes_eq⟩

end Sys2Proof.Machine

/-! ## Command words (rules R80 to R83)

A word is its two fields (`word_eq_fields`), and `decode` is the inverse of `encode` (`decode_eq_ok_iff`). The rows of the
opcode table are the words of their commands (`rows_are_commands`), so masking a word tells what it decodes to. -/

namespace Sys2Proof

/-! ### The two fields of a word, and an operand in its field -/

theorem opField_append (op : BitVec 8) (arg : BitVec 32) : opField (op ++ arg) = op :=
  BitVec.extractLsb'_append_eq_left

theorem argField_append (op : BitVec 8) (arg : BitVec 32) : argField (op ++ arg) = arg :=
  BitVec.extractLsb'_append_eq_right

@[simp] theorem opField_encode (i : Instr) : opField (encode i) = opcode i := opField_append _ _

@[simp] theorem argField_encode (i : Instr) : argField (encode i) = argOf i := argField_append _ _

theorem word_eq_fields (w : CmdWord) : opField w ++ argField w = w := by
  unfold opField argField
  rw [BitVec.extractLsb'_append_extractLsb'_eq_extractLsb' (by decide), BitVec.extractLsb'_eq_self]

/-- A word is an opcode followed by an operand field exactly when its two fields are these. -/
theorem eq_append_iff {op : BitVec 8} {arg : BitVec 32} {w : CmdWord} : op ++ arg = w ↔ opField w = op ∧ argField w = arg := by
  constructor
  · rintro rfl
    exact ⟨opField_append op arg, argField_append op arg⟩
  · rintro ⟨rfl, rfl⟩
    exact word_eq_fields w

/-- The bits from `n` on are zero exactly when the field holds an `n`-bit operand (rule R81). -/
theorem extract_eq_zero_iff {n m : Nat} (h : n + m = 32) (arg : BitVec 32) :
    arg.extractLsb' n m = 0#m ↔ arg = (arg.extractLsb' 0 n).setWidth 32 := by
  have hlt : arg.toNat / 2 ^ n < 2 ^ m := by
    rw [Nat.div_lt_iff_lt_mul (by positivity), ← pow_add, Nat.add_comm m, h]
    exact arg.isLt
  have hpos : 0 < 2 ^ n := by positivity
  simp only [← BitVec.toNat_inj, BitVec.extractLsb'_toNat, BitVec.toNat_setWidth, BitVec.toNat_ofNat, Nat.zero_mod,
    Nat.shiftRight_eq_div_pow, Nat.mod_eq_of_lt hlt, pow_zero, Nat.div_one]
  rw [Nat.mod_eq_of_lt (a := arg.toNat % 2 ^ n) (Nat.lt_of_le_of_lt (Nat.mod_le _ _) arg.isLt), Nat.div_eq_zero_iff_lt hpos,
    eq_comm, Nat.mod_eq_iff_lt hpos.ne']

/-- No bit from `n` on is set, so the field holds an `n`-bit operand. -/
theorem eq_setWidth_of_mask {n : Nat} {arg : BitVec 32} (h : arg &&& BitVec.allOnes 32 <<< n = 0#32) :
    arg = (arg.extractLsb' 0 n).setWidth 32 := by
  refine BitVec.eq_of_getLsbD_eq fun i hi => ?_
  by_cases hn : i < n
  · simp [hn, hi]
  · have hbit := congrArg (BitVec.getLsbD · i) h
    have hone : (BitVec.allOnes 32).getLsbD (i - n) = true := by
      rw [BitVec.getLsbD_allOnes, decide_eq_true]
      omega
    rw [BitVec.getLsbD_and, BitVec.getLsbD_shiftLeft, hone] at hbit
    simpa [hn, hi] using hbit

/-! ### Decoding is the inverse of encoding -/

/-- The commands `mk v` have one opcode and an `n`-bit operand field, every other bit 0 (rule R81). -/
def Family {n : Nat} (mk : BitVec n → Instr) : Prop := ∀ v, encode (mk v) = opcode (mk 0) ++ v.setWidth 32

theorem family_of_no_operand {i : Instr} (h : argOf i = 0#32) : Family (fun _ : BitVec 0 => i) := fun v => by
  rw [BitVec.of_length_zero (x := v), encode, h]
  rfl

theorem family_tbit : Family (fun v : BitVec 1 => .tbit (v.getLsbD 0)) := by unfold Family; decide

theorem family_tget : Family (fun v : BitVec 16 => .tget (v.extractLsb' 0 8) (v.extractLsb' 8 8)) := fun v => by
  simp only [encode, opcode, argOf]
  rw [BitVec.extractLsb'_append_extractLsb'_eq_extractLsb' (by decide), BitVec.extractLsb'_eq_self]

theorem family_ord : Family Instr.ord := fun v => by rw [BitVec.setWidth_eq]; rfl

section
variable {n m : Nat} {w : CmdWord} {i j : Instr}

/-- A word of the opcode of a family with zeros above the operand is a word of the family. -/
theorem Family.encode_eq {mk : BitVec n → Instr} (hf : Family mk) (hop : opField w = opcode (mk 0))
    (harg : argField w = ((argField w).extractLsb' 0 n).setWidth 32) :
    encode (mk ((argField w).extractLsb' 0 n)) = w := by
  rw [hf, eq_append_iff]
  exact ⟨hop, harg⟩

theorem whenZero_ok_iff {mbz : BitVec n} : whenZero mbz j = .ok i ↔ mbz = 0#n ∧ j = i := by
  unfold whenZero
  split <;> simp_all

/-- A word that decodes by an operand form is the word of its command. -/
theorem Family.encode_of_whenZero {mk : BitVec n → Instr} (hf : Family mk) (hnm : n + m = 32)
    (hop : opField w = opcode (mk 0))
    (h : whenZero ((argField w).extractLsb' n m) (mk ((argField w).extractLsb' 0 n)) = .ok i) : encode i = w := by
  obtain ⟨hmbz, rfl⟩ := whenZero_ok_iff.mp h
  exact hf.encode_eq hop ((extract_eq_zero_iff hnm _).mp hmbz)

theorem encode_of_formZ (hop : opField w = opcode j) (h : formZ (argField w) j = .ok i) (hj : argOf j = 0#32) :
    encode i = w := by
  obtain ⟨harg, rfl⟩ := whenZero_ok_iff.mp h
  exact eq_append_iff.mpr ⟨hop, harg.trans hj.symm⟩

theorem encode_of_formS {mk : Byte → Instr} (hop : opField w = opcode (mk 0)) (h : formS (argField w) mk = .ok i)
    (hf : Family mk) : encode i = w :=
  hf.encode_of_whenZero rfl hop h

theorem encode_of_formN {mk : NodeIdx → Instr} (hop : opField w = opcode (mk 0)) (h : formN (argField w) mk = .ok i)
    (hf : Family mk) : encode i = w :=
  hf.encode_of_whenZero rfl hop h

theorem formB_eq (arg : BitVec 32) (mk : Bool → Instr) :
    formB arg mk = whenZero (arg.extractLsb' 1 31) (mk ((arg.extractLsb' 0 1).getLsbD 0)) := by
  simp [formB]

theorem formSI_eq (arg : BitVec 32) (mk : Byte → Byte → Instr) :
    formSI arg mk = whenZero (arg.extractLsb' 16 16)
      (mk ((arg.extractLsb' 0 16).extractLsb' 0 8) ((arg.extractLsb' 0 16).extractLsb' 8 8)) := by
  have hsym : (arg.extractLsb' 0 16).extractLsb' 0 8 = arg.extractLsb' 0 8 := by ext; simp
  have hbi : (arg.extractLsb' 0 16).extractLsb' 8 8 = arg.extractLsb' 8 8 := by ext; simp
  rw [hsym, hbi, formSI]

/-- Every word that decodes is the word of its command: one line for each arm of `decode`. -/
theorem encode_of_decode (h : decode w = .ok i) : encode i = w := by
  unfold decode at h
  split at h <;> rename_i hop
  exacts [
    encode_of_formZ (j := .nop) hop h rfl,
    encode_of_formZ (j := .clr) hop h rfl,
    encode_of_formZ (j := .stat) hop h rfl,
    encode_of_formS (mk := .cnt) hop h fun _ => rfl,
    encode_of_formZ (j := .bld) hop h rfl,
    encode_of_formZ (j := .gen) hop h rfl,
    encode_of_formS (mk := .frd) hop h fun _ => rfl,
    encode_of_formZ (j := .ftot) hop h rfl,
    encode_of_formZ (j := .ncnt) hop h rfl,
    encode_of_formN (mk := .nwt) hop h fun _ => rfl,
    encode_of_formN (mk := .nlk) hop h fun _ => rfl,
    encode_of_formS (mk := .tsel) hop h fun _ => rfl,
    family_tbit.encode_of_whenZero rfl hop (formB_eq _ _ ▸ h),
    encode_of_formZ (j := .tend) hop h rfl,
    encode_of_formS (mk := .tlen) hop h fun _ => rfl,
    family_tget.encode_of_whenZero rfl hop (formSI_eq _ _ ▸ h),
    encode_of_formZ (j := .ebeg) hop h rfl,
    encode_of_formS (mk := .enc) hop h fun _ => rfl,
    encode_of_formZ (j := .efin) hop h rfl,
    encode_of_formS (mk := .dbeg) hop h fun _ => rfl,
    encode_of_formS (mk := .dpl) hop h fun _ => rfl,
    encode_of_formZ (j := .dfin) hop h rfl,
    encode_of_formZ (j := .olen) hop h rfl,
    Except.ok.inj h ▸ eq_append_iff.mpr ⟨hop, rfl⟩,
    nomatch h]

theorem whenZero_operand (hnm : n + m = 32) (mk : BitVec n → Instr) (v : BitVec n) :
    whenZero ((v.setWidth 32).extractLsb' n m) (mk ((v.setWidth 32).extractLsb' 0 n)) = .ok (mk v) := by
  have hv : (v.setWidth 32).extractLsb' 0 n = v := by
    rw [BitVec.extractLsb'_setWidth_of_le (by omega), BitVec.extractLsb'_eq_self]
  rw [whenZero_ok_iff, extract_eq_zero_iff hnm, hv]
  exact ⟨rfl, rfl⟩

/-- No operand bit is dropped: each command's word decodes to the command. -/
theorem decode_encode (i : Instr) : decode (encode i) = .ok i := by
  unfold decode
  rw [opField_encode, argField_encode]
  match i with
  | .nop | .clr | .stat | .bld | .gen | .ftot | .ncnt | .tend | .ebeg | .efin | .dfin | .olen => rfl
  | .cnt x => exact whenZero_operand rfl .cnt x
  | .frd x => exact whenZero_operand rfl .frd x
  | .tsel x => exact whenZero_operand rfl .tsel x
  | .tlen x => exact whenZero_operand rfl .tlen x
  | .enc x => exact whenZero_operand rfl .enc x
  | .dpl x => exact whenZero_operand rfl .dpl x
  | .dbeg x => exact whenZero_operand rfl .dbeg x
  | .nwt j => exact whenZero_operand rfl .nwt j
  | .nlk j => exact whenZero_operand rfl .nlk j
  | .tbit b => cases b <;> rfl
  | .tget x y =>
    have h := whenZero_operand (m := 16) rfl (fun v : BitVec 16 => .tget (v.extractLsb' 0 8) (v.extractLsb' 8 8)) (y ++ x)
    rw [BitVec.extractLsb'_append_eq_left, BitVec.extractLsb'_append_eq_right] at h
    exact (formSI_eq _ _).trans h
  | .ord a => rfl

theorem decode_eq_ok_iff : decode w = .ok i ↔ encode i = w := ⟨encode_of_decode, fun h => h ▸ decode_encode i⟩

/-! ### The rows of the opcode table -/

/-- Every word that the row masks to its pattern is the word of a command with the row's mnemonic and form. -/
def RowIsCommands (row : OpcodeRow) : Prop :=
  ∀ w : CmdWord, w &&& row.mask = row.pattern → ∃ i, encode i = w ∧ i.mnemonic = row.mnemonic ∧ i.form = row.form

theorem masked_fields {op : BitVec 8} {mask : BitVec 32} (h : w &&& (0xFF#8 ++ mask) = op ++ 0#32) :
    opField w = op ∧ argField w &&& mask = 0#32 := by
  rw [← word_eq_fields w, BitVec.and_append] at h
  obtain ⟨hop, harg⟩ := eq_append_iff.mp h.symm
  rw [opField_append] at hop
  rw [argField_append] at harg
  exact ⟨BitVec.and_allOnes.symm.trans hop, harg⟩

/-- A row whose pattern is a family's opcode and whose mask covers every bit but the family's operand. -/
theorem Family.row {mk : BitVec n → Instr} (hf : Family mk) {row : OpcodeRow}
    (hmask : row.mask = 0xFF#8 ++ BitVec.allOnes 32 <<< n := by rfl)
    (hpattern : row.pattern = opcode (mk 0) ++ 0#32 := by rfl)
    (hm : ∀ v, (mk v).mnemonic = row.mnemonic := by intro; rfl)
    (hform : ∀ v, (mk v).form = row.form := by intro; rfl) : RowIsCommands row := by
  intro w h
  rw [hmask, hpattern] at h
  obtain ⟨hop, harg⟩ := masked_fields h
  exact ⟨_, hf.encode_eq hop (eq_setWidth_of_mask harg), hm _, hform _⟩

theorem rows_are_commands : ∀ row ∈ opcodeTable, RowIsCommands row := by
  simp only [opcodeTable, List.cons_append, List.nil_append, List.forall_mem_cons]
  exact ⟨
    (family_of_no_operand (i := .nop) rfl).row,
    (family_of_no_operand (i := .clr) rfl).row,
    (family_of_no_operand (i := .stat) rfl).row,
    Family.row (mk := .cnt) fun _ => rfl,
    (family_of_no_operand (i := .bld) rfl).row,
    (family_of_no_operand (i := .gen) rfl).row,
    Family.row (mk := .frd) fun _ => rfl,
    (family_of_no_operand (i := .ftot) rfl).row,
    (family_of_no_operand (i := .ncnt) rfl).row,
    Family.row (mk := .nwt) fun _ => rfl,
    Family.row (mk := .nlk) fun _ => rfl,
    Family.row (mk := .tsel) fun _ => rfl,
    family_tbit.row,
    (family_of_no_operand (i := .tend) rfl).row,
    Family.row (mk := .tlen) fun _ => rfl,
    family_tget.row,
    (family_of_no_operand (i := .ebeg) rfl).row,
    Family.row (mk := .enc) fun _ => rfl,
    (family_of_no_operand (i := .efin) rfl).row,
    Family.row (mk := .dbeg) fun _ => rfl,
    Family.row (mk := .dpl) fun _ => rfl,
    (family_of_no_operand (i := .dfin) rfl).row,
    (family_of_no_operand (i := .olen) rfl).row,
    family_ord.row,
    fun _ h => nomatch h⟩

theorem matchesRow (i : Instr) : Laws.MatchesRow.Statement i := by
  open Laws.MatchesRow in
  cases i
  exacts [
    nop, clr, stat, cnt _, bld, gen, frd _, ftot, ncnt, nwt _, nlk _, tsel _, tbit _, tend, tlen _, tget _ _,
    ebeg, enc _, efin, dbeg _, dpl _, dfin, olen, ord _]

theorem mnemonic_injOn_opcodeTable {row row' : OpcodeRow} (hrow : row ∈ opcodeTable) (hrow' : row' ∈ opcodeTable)
    (h : row.mnemonic = row'.mnemonic) : row = row' :=
  List.inj_on_of_nodup_map (f := OpcodeRow.mnemonic) (by decide +kernel) hrow hrow' h

/-- Masking tells whether a word is a row's command (rule R82). -/
theorem masked_iff {row : OpcodeRow} (hrow : row ∈ opcodeTable) :
    w &&& row.mask = row.pattern ↔ ∃ i, decode w = .ok i ∧ i.mnemonic = row.mnemonic ∧ i.form = row.form := by
  constructor
  · intro h
    obtain ⟨i, hi, hrest⟩ := rows_are_commands row hrow w h
    exact ⟨i, decode_eq_ok_iff.mpr hi, hrest⟩
  · rintro ⟨i, hi, hm, -⟩
    obtain ⟨row', hrow', hm', -, hw⟩ := matchesRow i
    obtain rfl := mnemonic_injOn_opcodeTable hrow' hrow (hm'.trans hm)
    rwa [decode_eq_ok_iff.mp hi] at hw

end

/-- Settles O1: `decode_encode` holds of every term of `Instr`. -/
theorem decodeOfEncode : Obligations.DecodeOfEncode := fun i _ => decode_encode i

/-- Settles O2. -/
theorem encodeOfDecode : Obligations.EncodeOfDecode := fun _ _ => encode_of_decode

/-- Settles O3: a word that two rows mask decodes to one command, and its mnemonic is that of one row. -/
theorem wordIsRowsCommandExactlyWhenMasked : Obligations.WordIsRowsCommandExactlyWhenMasked := by
  refine ⟨fun w row hrow => masked_iff hrow, fun w row row' hrow hrow' h h' => ?_⟩
  obtain ⟨i, hi, hm, -⟩ := (masked_iff hrow).mp h
  obtain ⟨j, hj, hm', -⟩ := (masked_iff hrow').mp h'
  obtain rfl : i = j := Except.ok.inj (hi.symm.trans hj)
  exact mnemonic_injOn_opcodeTable hrow hrow' (hm.symm.trans hm')

/-- Settles O6: the seven words are those of their commands; of the two others, one has a reserved bit set and one an
unassigned opcode. -/
theorem writtenOutWordsDecode : Obligations.WrittenOutWordsDecode :=
  ⟨decode_encode (.cnt 0x61), decode_encode (.nwt 510), decode_encode (.tbit true), decode_encode (.tget 0x63 1),
    decode_encode (.enc 0x7A), decode_encode (.dbeg 0xFF), decode_encode (.ord 0xFFFFFFFF), rfl, rfl⟩

/-! ### The assembler (rule R86) -/

theorem instr_wellFormed (i : Instr) : i.wellFormed = true := by
  open Laws.WellFormed in
  cases i
  exacts [
    nop, clr, stat, cnt _, bld, gen, frd _, ftot, ncnt, nwt _, nlk _, tsel _, tbit _, tend, tlen _, tget _ _,
    ebeg, enc _, efin, dbeg _, dpl _, dfin, olen, ord _]

theorem assemble_line (i : Instr) : Machine.assemble i.line = some i := by
  have h : i.line.wellFormed = true := instr_wellFormed i
  unfold Machine.assemble
  rw [if_pos h]
  cases i <;> simp [Instr.line, Instr.mnemonic, Instr.operands]

theorem toNat_of_fits {n a : Nat} (h : fitFields [n] [a] = true) : (BitVec.ofNat n a).toNat = a :=
  Nat.mod_eq_of_lt (by simpa [fitFields] using h)

/-- The line of a command with one operand, when the operand fits its field. -/
theorem line_of_operand {n a : Nat} {m : String} {mk : BitVec n → Instr} (h : fitFields [n] [a] = true)
    (hm : ∀ v, (mk v).line = { mnemonic := m, operands := [v.toNat] } := by intro; rfl) :
    (mk (BitVec.ofNat n a)).line = { mnemonic := m, operands := [a] } := by
  rw [hm, toNat_of_fits h]

theorem line_tbit {a : Nat} (h : fitFields [1] [a] = true) :
    (Instr.tbit (a == 1)).line = { mnemonic := "TBIT", operands := [a] } := by
  have ha : a < 2 := by simpa [fitFields] using h
  interval_cases a <;> rfl

theorem line_tget {a b : Nat} (h : fitFields [8, 8] [a, b] = true) :
    (Instr.tget (BitVec.ofNat 8 a) (BitVec.ofNat 8 b)).line = { mnemonic := "TGET", operands := [a, b] } := by
  obtain ⟨ha, hb⟩ : a < 256 ∧ b < 256 := by simpa [fitFields] using h
  simp [Instr.line, Instr.mnemonic, Instr.operands, Nat.mod_eq_of_lt ha, Nat.mod_eq_of_lt hb]

theorem line_of_assemble {l : Line} {i : Instr} (h : Machine.assemble l = some i) : i.line = l := by
  obtain ⟨m, ops⟩ := l
  unfold Machine.assemble at h
  split at h
  · rename_i hwf
    dsimp only at h
    split at h <;> cases h
    case h_13 => exact line_tbit hwf
    case h_16 => exact line_tget hwf
    case h_4 | h_7 | h_10 | h_11 | h_12 | h_15 | h_18 | h_20 | h_21 | h_24 => exact line_of_operand hwf
    all_goals rfl
  · cases h

/-- Settles O5. -/
theorem assemblerIsExact : Obligations.AssemblerIsExact :=
  fun _ i => ⟨line_of_assemble, fun h => h ▸ assemble_line i⟩

end Sys2Proof

/-! ## What a command does past the common steps (rules R88 to R91)

A command that its phase does not accept is refused (`exec_of_not_legal`); one that it accepts ends with its writes `work`
and the answer `answer`, or with an error of its own (`exec_of_legal`). -/

namespace Sys2Proof.Machine

/-! ### The two ways through the common steps (rule R89) -/

section
variable {i : Instr} {s t u : State}

/-- What the block answers to a command that its phase does not accept. -/
def refuse (e : ErrorCode) (s : State) : State := if s.phase = .fault then answerFaulted s else raise e s

theorem refuse_of_fault (e : ErrorCode) (h : s.phase = .fault) : refuse e s = answerFaulted s := if_pos h

theorem refuse_of_not_fault (e : ErrorCode) (h : s.phase ≠ .fault) : refuse e s = raise e s := if_neg h

theorem command_false (run : State → Outcome) (s : State) : command false run s = .next (refuse .seq s) := by
  unfold command refuse
  split <;> rfl

/-- In phase `FAULT` only `NOP`, `CLR` and `STAT` are accepted (rule R90). -/
theorem legal_of_fault (h : s.phase = .fault) (i : Instr) : legal i s = true ↔ i = .nop ∨ i = .clr ∨ i = .stat := by
  cases i <;> simp [legal, h]

/-- The writes of a command past the common steps, or the error it raises. `GEN` stops where its tree has no codes
(`exec_of_legal` leaves that case out). -/
def work : Instr → State → Working
  | .nop, s | .stat, s | .frd _, s | .ftot, s | .ncnt, s | .tlen _, s | .olen, s => .ok s
  | .clr, s => .ok (clearBlock s)
  | .cnt x, s => countByte x s
  | .bld, s => .ok (buildWrites s)
  | .gen, s => .ok (generateWrites ((treeCodes s).getD []) s)
  | .nwt j, s | .nlk j, s => inRange (s.validNode j) s
  | .tsel x, s => .ok { setCode x [] s with tsym := x, phase := .load }
  | .tbit bit, s => extendEntry bit s
  | .tend, s => sealTable s
  | .tget x n, s => inRange (s.validBit x n) s
  | .ebeg, s => beginEncode s
  | .enc x, s => encodeByte x s
  | .efin, s => endEncode s
  | .dbeg h, s => beginDecode h s
  | .dpl x, s => takePayload x s
  | .dfin, s => endDecode s
  | .ord a, s => inRange (s.validAddr a) s

/-- What a command answers from the state it leaves: 0 when it returns no result (rule R88). -/
def answer : Instr → State → BitVec 32
  | .stat, t => statusWord t
  | .frd x, t => t.freqOf x
  | .ftot, t => t.total
  | .ncnt, t => nodeCountWord t
  | .nwt j, t => (t.nodeAt j.toNat).w
  | .nlk j, t => (t.nodeAt j.toNat).linkWord
  | .tlen x, t => (t.lenOf x).setWidth 32
  | .tget x n, t => (BitVec.ofBool ((t.codeword x).getD n.toNat false)).setWidth 32
  | .olen, t => t.olen
  | .ord a, t => (t.obufAt a.toNat).setWidth 32
  | .nop, _ | .clr, _ | .cnt _, _ | .bld, _ | .gen, _ | .tsel _, _ | .tbit _, _ | .tend, _ | .ebeg, _ | .enc _, _
  | .efin, _ | .dbeg _, _ | .dpl _, _ | .dfin, _ => 0

/-- The commands that every phase accepts are not looked at by the common steps, and `GEN` can stop (log entry 6); every
other command is its writes and its answer behind the common steps. -/
theorem exec_eq_command (hi : ¬ (i = .nop ∨ i = .clr ∨ i = .stat)) (hgen : i ≠ .gen) (s : State) :
    exec i s = command (legal i s) (fun s => finish s (work i s) (answer i)) s := by
  cases i
  case nop | clr | stat | gen => simp at hi hgen
  all_goals rfl

theorem exec_of_not_legal (h : legal i s = false) : exec i s = .next (refuse .seq s) := by
  by_cases hgen : i = .gen
  · subst hgen
    show execGen s = _
    rw [execGen, h, command_false]
  · rw [exec_eq_command _ hgen, h, command_false]
    rintro (rfl | rfl | rfl) <;> cases h

theorem raises_seq_of_not_legal (hp : s.phase ≠ .fault) (hl : legal i s = false) : Raises i s .seq := by
  rw [Raises, exec_of_not_legal hl, refuse_of_not_fault _ hp]
  rfl

/-- A faulted block answers every command but `NOP`, `CLR` and `STAT` with `ERR_FAULTED` (rule R202). -/
theorem exec_of_fault (hp : s.phase = .fault) (hi : ¬ (i = .nop ∨ i = .clr ∨ i = .stat)) :
    legal i s = false ∧ exec i s = .next (answerFaulted s) := by
  have hl : legal i s = false := by rwa [← Bool.not_eq_true, legal_of_fault hp]
  exact ⟨hl, by rw [exec_of_not_legal hl, refuse_of_fault _ hp]⟩

theorem exec_of_legal (hl : legal i s = true) (h : exec i s = .next t) : finish s (work i s) (answer i) = .next t := by
  by_cases hi : i = .nop ∨ i = .clr ∨ i = .stat
  · rcases hi with rfl | rfl | rfl <;> exact h
  have hp : s.phase ≠ .fault := fun hp => hi ((legal_of_fault hp i).mp hl)
  by_cases hgen : i = .gen
  · subst hgen
    replace h : execGen s = .next t := h
    rw [execGen, hl, command_of_legal hp] at h
    cases hc : treeCodes s with
    | none => simp [hc] at h
    | some codes =>
      have hw : work .gen s = .ok (generateWrites codes s) :=
        congrArg (fun c : Option _ => (.ok (generateWrites (c.getD []) s) : Working)) hc
      rw [hw]
      simp only [hc] at h
      exact h
  · rwa [exec_eq_command hi hgen, hl, command_of_legal hp] at h

/-! ### The errors that commands raise of their own are not `ERR_SEQ` -/

/-- The working state is reached, or the error is not `ERR_SEQ`. -/
def NotSeq (r : Working) : Prop := r ≠ .error .seq

theorem NotSeq.ok (t : State) : NotSeq (.ok t) := nofun

theorem NotSeq.map {r : Working} (h : NotSeq r) (f : State → State) : NotSeq (r.map f) := by
  cases r with
  | ok t => exact .ok (f t)
  | error e => exact h

theorem NotSeq.bind {r : Working} {f : State → Working} (h : NotSeq r) (hf : ∀ t, NotSeq (f t)) : NotSeq (r.bind f) := by
  cases r with
  | ok t => exact hf t
  | error e => exact h

theorem NotSeq.ite {c : Prop} [Decidable c] {r q : Working} (hr : NotSeq r := by nofun) (hq : NotSeq q := by nofun) :
    NotSeq (if c then r else q) := by
  split
  · exact hr
  · exact hq

theorem append_notSeq (v : Byte) (s : State) : NotSeq (append v s) := .ite

theorem pushBits_notSeq (q : Bits) (s : State) : NotSeq (pushBits q s) := by
  induction q generalizing s with
  | nil => exact .ok s
  | cons x q ih => exact .bind (.ite (.map (append_notSeq _ s) _)) ih

theorem feedBit_notSeq (x : Bool) (s : State) : NotSeq (feedBit x s) := by
  unfold feedBit
  cases matching (s.candidate ++ [x]) s with
  | some t => exact .map (append_notSeq t s) _
  | none => exact .ite

theorem feedBits_notSeq (q : Bits) (s : State) : NotSeq (feedBits q s) := by
  induction q generalizing s with
  | nil => exact .ok s
  | cons x q ih => exact .bind (feedBit_notSeq x s) ih

theorem work_notSeq (i : Instr) (s : State) : NotSeq (work i s) := by
  match i with
  | .nop | .clr | .stat | .bld | .gen | .tsel _ | .frd _ | .ftot | .ncnt | .tlen _ | .olen => exact .ok _
  | .cnt _ | .nwt _ | .nlk _ | .tbit _ | .tend | .tget _ _ | .dbeg _ | .ord _ => exact .ite
  | .ebeg => exact .map (append_notSeq 0 _) _
  | .enc x => exact .ite (hq := pushBits_notSeq _ s)
  | .efin => exact .map (.ite (.ok s) (append_notSeq _ s)) _
  | .dpl x => exact .map (.ite (feedBits_notSeq _ s) (.ok s)) _
  | .dfin => exact .map (.bind (.ite (feedBits_notSeq _ s) (.ok s)) fun _ => .ite) _

/-! ### The three ways a command ends -/

/-- A command that its phase accepts ends with its writes and its answer, or with an error other than `ERR_SEQ`. -/
theorem exec_legal_cases (hl : legal i s = true) (h : exec i s = .next t) :
    (∃ u, work i s = .ok u ∧ t = respond (answer i u) u) ∨ ∃ e, e ≠ .seq ∧ t = raise e s := by
  rcases finish_cases (exec_of_legal hl h) with h | ⟨e, he, ht⟩
  · exact .inl h
  · exact .inr ⟨e, fun e0 => work_notSeq i s (e0 ▸ he), ht⟩

/-- Every command that answers ends with its writes and its answer, with an error, or as phase `FAULT` has it. -/
theorem exec_cases (h : exec i s = .next t) :
    (∃ u, legal i s = true ∧ work i s = .ok u ∧ t = respond (answer i u) u) ∨ (∃ e, t = raise e s) ∨
      (s.phase = .fault ∧ t = answerFaulted s) := by
  cases hl : legal i s with
  | true =>
    rcases exec_legal_cases hl h with ⟨u, hu, ht⟩ | ⟨e, -, ht⟩
    · exact .inl ⟨u, rfl, hu, ht⟩
    · exact .inr (.inl ⟨e, ht⟩)
  | false =>
    obtain rfl : refuse .seq s = t := Host.Outcome.next.inj ((exec_of_not_legal hl).symm.trans h)
    by_cases hp : s.phase = .fault
    · exact .inr (.inr ⟨hp, refuse_of_fault _ hp⟩)
    · exact .inr (.inl ⟨.seq, refuse_of_not_fault _ hp⟩)

/-- No command writes the record of what was delivered: no command looks at the ports. -/
theorem exec_delivered (h : exec i s = .next t) : t.delivered = s.delivered := by
  have hports : exec i s = .next (withPorts s t) := exec_withPorts (p := s) h
  have ht : t = withPorts s t := Host.Outcome.next.inj (h.symm.trans hports)
  exact (congrArg State.delivered ht :)

theorem ErrorCode.code_le (e : ErrorCode) : e.code.toNat ≤ 8 := by cases e <;> decide

theorem ErrorCode.code_ne_zero (e : ErrorCode) : e.code ≠ 0#4 := by cases e <;> decide

theorem ErrorCode.code_eq_seq {e : ErrorCode} (h : e.code = 2#4) : e = .seq := by cases e <;> revert h <;> decide

theorem ErrorCode.code_ne_faulted (e : ErrorCode) : e.code ≠ 15#4 := by cases e <;> decide

end

/-! ### Words (rules R83 and R89) -/

section
variable {w : CmdWord} {i : Instr} {s : State}

theorem runWord_of_decode (h : decode w = .ok i) (s : State) : runWord w s = exec i s := by
  rw [runWord, h]

theorem runWord_of_illegal (h : ∀ i, decode w ≠ .ok i) (s : State) : runWord w s = .next (refuse .illegal s) := by
  unfold runWord
  cases hd : decode w with
  | ok i => exact absurd hd (h i)
  | error e => rfl

end

/-- Settles O4: a word that decodes matches the row of its command, so a word that matches none is illegal. -/
theorem unmatchedWordRaisesIllegal : Obligations.UnmatchedWordRaisesIllegal := by
  intro w s hrows hp
  have hillegal : ∀ i, decode w ≠ .ok i := by
    intro i hi
    obtain ⟨row, hrow, -, -, hw⟩ := matchesRow i
    exact hrows row hrow (decode_eq_ok_iff.mp hi ▸ hw)
  rw [runWord_of_illegal hillegal, refuse_of_not_fault _ hp]
  rfl

/-- Settles O10: the lemmas on refused, accepted and faulted commands say what the table decides; its rows are those of
`legal`. -/
theorem legalityTable : Obligations.LegalityTable := by
  refine ⟨fun i s => raises_seq_of_not_legal, fun i s t r hl h hr => ?_,
    fun i s hp hnop hclr hstat => exec_of_fault hp (by simp [hnop, hclr, hstat]), fun s x y j b a => ?_⟩
  · rcases exec_legal_cases hl h with ⟨u, -, rfl⟩ | ⟨e, he, rfl⟩ <;> cases hr
    · exact ⟨nofun, nofun⟩
    · exact ⟨fun hc => he (ErrorCode.code_eq_seq hc), e.code_ne_faulted⟩
  · refine ⟨?_, ?_, ?_, ?_, ?_, ?_, ?_, ?_, ?_, ?_⟩
    · rintro i (rfl | rfl | rfl) <;> rfl
    · rintro i (rfl | rfl) <;> simp [legal]
    · rintro i (rfl | rfl) <;> simp [legal]
    · rintro i (rfl | rfl | rfl | rfl) <;> simp [legal]
    · rintro i (rfl | rfl) <;> simp [legal]
    · simp [legal]
    · rintro i (rfl | rfl | rfl | rfl) <;> simp [legal]
    · rintro i (rfl | rfl) <;> simp [legal]
    · rintro i (rfl | rfl) <;> simp [legal]
    · rintro i (rfl | rfl) <;> simp [legal]

/-- Settles O12: a command completes by `exec_completes`, and its one response is that of the way it ends. -/
theorem everyCommandAnswers : Obligations.EveryCommandAnswers := by
  intro i s
  refine ⟨exec_completes i, fun t h => ?_⟩
  have hdelivered := exec_delivered h
  rcases exec_cases h with ⟨u, -, -, rfl⟩ | ⟨e, rfl⟩ | ⟨-, rfl⟩
  · refine ⟨_, rfl, hdelivered, .inl (Nat.zero_le 8), fun h => absurd rfl h, ?_⟩
    intro hfrd hnwt hnlk htlen htget hord hstat hftot hncnt holen
    match i with
    | .stat => exact absurd rfl hstat
    | .ftot => exact absurd rfl hftot
    | .ncnt => exact absurd rfl hncnt
    | .olen => exact absurd rfl holen
    | .frd x => exact absurd rfl (hfrd x)
    | .nwt j => exact absurd rfl (hnwt j)
    | .nlk j => exact absurd rfl (hnlk j)
    | .tlen x => exact absurd rfl (htlen x)
    | .tget x n => exact absurd rfl (htget x n)
    | .ord a => exact absurd rfl (hord a)
    | .nop | .clr | .cnt _ | .bld | .gen | .tsel _ | .tbit _ | .tend | .ebeg | .enc _ | .efin | .dbeg _ | .dpl _ | .dfin =>
      rfl
  · exact ⟨_, rfl, hdelivered, .inl e.code_le, fun _ => rfl, by intros; rfl⟩
  · exact ⟨_, rfl, hdelivered, .inr rfl, fun _ => rfl, by intros; rfl⟩

/-- Settles O13: a command that succeeds ends with its writes (`exec_cases`), and the legality table tells where it began. -/
theorem phaseTransitions : Obligations.PhaseTransitions := by
  intro i s t r h hr
  rcases exec_cases h with ⟨u, hl, hw, rfl⟩ | ⟨e, rfl⟩ | ⟨hp, rfl⟩ <;> cases hr
  · refine ⟨fun _ => ?_, fun h => absurd rfl h⟩
    match i with
    | .nop | .stat | .frd _ | .ftot | .ncnt | .tlen _ | .olen | .clr => cases hw; rfl
    | .nwt _ | .nlk _ | .tget _ _ | .ord _ => exact (congrArg State.phase (eq_of_inRange_ok hw) :)
    | .bld | .gen | .tsel _ =>
      cases hw
      exact ⟨by simpa [legal] using hl, rfl⟩
    | .tend =>
      rw [(sealTable_ok hw).2]
      exact ⟨by simpa [legal] using hl, rfl⟩
    | .ebeg =>
      obtain ⟨v, -, rfl⟩ := beginEncode_ok hw
      exact ⟨by simpa [legal] using hl, rfl⟩
    | .efin =>
      obtain ⟨v, -, rfl⟩ := endEncode_ok hw
      exact ⟨by simpa [legal] using hl, rfl⟩
    | .dbeg _ =>
      rw [beginDecode_ok hw]
      exact ⟨by simpa [legal] using hl, rfl⟩
    | .dfin =>
      obtain ⟨q, v, -, rfl⟩ := endDecode_ok hw
      exact ⟨by simpa [legal] using hl, rfl⟩
    | .cnt _ => exact (congrArg State.phase (countByte_ok hw).2 :)
    | .tbit _ => exact (congrArg State.phase (extendEntry_ok hw) :)
    | .enc _ => exact (congrArg State.phase (pushBits_frame (encodeByte_ok hw)) :)
    | .dpl _ =>
      obtain ⟨q, v, hv, rfl⟩ := takePayload_ok hw
      exact (congrArg State.phase (feedBits_frame hv) :)
  · exact ⟨fun h0 => absurd h0 e.code_ne_zero, fun _ => rfl⟩
  · exact ⟨nofun, fun _ => hp⟩

/-- Settles O8: the cases of `runWord`, then those of `exec`. -/
theorem wordsAreProcessedInOrder : Obligations.WordsAreProcessedInOrder := by
  intro w s
  refine ⟨fun i _ hi _ => runWord_of_decode hi s, fun hp hnop hclr hstat => ?_, fun hp hi => ?_, fun i hp hi hl => ?_,
    fun i _ hi _ => runWord_of_decode hi s⟩
  · by_cases hd : ∃ i, decode w = .ok i
    · obtain ⟨i, hi⟩ := hd
      exact (runWord_of_decode hi s).trans (exec_of_fault hp (by rintro (rfl | rfl | rfl) <;> contradiction)).2
    · rw [runWord_of_illegal (not_exists.mp hd), refuse_of_fault _ hp]
      rfl
  · rw [runWord_of_illegal hi, refuse_of_not_fault _ hp]
    rfl
  · exact (runWord_of_decode hi s).trans (raises_seq_of_not_legal hp hl)

/-- Settles O7: the edge is a command's, and what it runs is `runWord` of the offered word. -/
theorem stepRunsTheIssuedCommand : Obligations.StepRunsTheIssuedCommand := by
  intro s p rest hin hrst hvalid hrsp issued
  have hstep : step s = runWord p.cmdWord issued := by
    simp [step, nextInput, takeInput, clockEdge, startCommand, issued, hin, hrst, hvalid, hrsp]
  rw [hstep]
  refine ⟨fun i hi => runWord_of_decode hi issued, fun hi => ⟨fun hp => ?_, fun hp => ?_⟩⟩
  · rw [runWord_of_illegal hi, refuse_of_not_fault (s := issued) _ hp]
    rfl
  · rw [runWord_of_illegal hi, refuse_of_fault (s := issued) _ hp]
    rfl

/-- Settles O16: the edge is a response's, whose three cases are those of `responseEdge`. -/
theorem oneCommandOutstanding : Obligations.OneCommandOutstanding := by
  intro s p rest r hin hrst hrsp
  have hstep : step s = .next (responseEdge r p.rspReady { s with inputs := rest }) := by
    simp [step, nextInput, takeInput, clockEdge, hin, hrst, hrsp]
  have hvalid : s.rspValid = true ↔ s.rspDelay = 0 := by simp [State.rspValid, hrsp]
  simp only [hstep, hvalid]
  unfold responseEdge
  by_cases hdelay : s.rspDelay = 0
  · by_cases hready : p.rspReady = true
    · simp [hdelay, hready, deliver]
    · simp [hdelay, hready]
  · simp [hdelay]

/-- Settles O48: outside its session each of the three commands is one that the phase does not accept. -/
theorem sessionCommandsNeedASession : Obligations.SessionCommandsNeedASession := by
  intro s x hp
  have encoded (i : Instr) : EncodedAs i (opcode i) i.form := ⟨opField_encode i, rfl⟩
  refine ⟨encoded (.dpl x), encoded .dfin, encoded (.enc x),
    fun hd => ⟨raises_seq_of_not_legal hp ?_, raises_seq_of_not_legal hp ?_⟩, fun he => raises_seq_of_not_legal hp ?_⟩
  · simpa [legal] using hd
  · simpa [legal] using hd
  · simpa [legal] using he

end Sys2Proof.Machine

/-! ## Reading a table and loading it back (rules R87, R135 to R140)

`READTABLE` is a list of reads with their answers (`tableReads`). `LOADTABLE` writes one entry after another
(`execAll_entries`), so the codewords end as those of the list, and `TEND` seals the table they make. -/

namespace Sys2Proof.Machine

section
variable {s t u : State}

/-! ### `READTABLE` -/

/-- The commands of `READTABLE` (rule R87) with what each answers on the table of `s`. -/
def tableReads (s : State) : List (Instr × BitVec 32) :=
  allSymbols.flatMap fun t => (.tlen t, (s.lenOf t).setWidth 32) ::
    (List.range (s.lenOf t).toNat).map fun i =>
      (.tget t (BitVec.ofNat 8 i), if (s.codeword t).getD i false then 1 else 0)

theorem tableReads_commands (s : State) : (tableReads s).map Prod.fst = readTable s.len := by
  simp [tableReads, readTable, List.map_flatMap, Function.comp_def, State.lenOf]

theorem codeword_eq_map (s : State) (x : Byte) :
    s.codeword x = (List.range (s.lenOf x).toNat).map fun i => (s.codeword x).getD i false := by
  refine List.ext_getElem (by simp) fun i h _ => ?_
  rw [List.getElem_map, List.getElem_range, List.getD_eq_getElem _ _ h]

theorem tableReads_answers (s : State) :
    (tableReads s).map (fun e => ({ err := 0, data := e.2 } : Response)) = tableAnswers s := by
  simp only [tableReads, tableAnswers, List.map_flatMap, List.map_cons, List.map_map, Function.comp_def]
  refine congrArg (allSymbols.flatMap ·) (funext fun x => ?_)
  conv_rhs => rw [codeword_eq_map, List.map_map]
  rfl

theorem exec_tlen_of_table (hp : t.phase = .table) (x : Byte) :
    exec (.tlen x) t = .next (respond ((t.lenOf x).setWidth 32) t) :=
  command_answers (r := .ok t) (d := fun t => (t.lenOf x).setWidth 32) (by simp [hp]) (by simp [legal, hp]) rfl

theorem exec_tget_of_table (hp : t.phase = .table) {x : Byte} {n : Nat} (hn : n < (t.lenOf x).toNat) :
    exec (.tget x (BitVec.ofNat 8 n)) t = .next (respond (if (t.codeword x).getD n false then 1 else 0) t) := by
  have hlt : n < 256 := Nat.lt_trans hn (t.lenOf x).isLt
  have hin : inRange (t.validBit x (BitVec.ofNat 8 n)) t = .ok t := by
    simp [inRange, State.validBit, BitVec.lt_def, Nat.mod_eq_of_lt hlt, hn]
  have hdata : ∀ b, (BitVec.ofBool b).setWidth 32 = if b then 1#32 else 0#32 := by decide
  refine (command_answers (l := legal (.tget x (BitVec.ofNat 8 n)) t) (s := t)
    (d := fun t => (BitVec.ofBool ((t.codeword x).getD (BitVec.ofNat 8 n).toNat false)).setWidth 32)
    (by simp [hp]) (by simp [legal, hp]) hin).trans ?_
  rw [hdata, BitVec.toNat_ofNat, Nat.mod_eq_of_lt hlt]
  rfl

/-- On the table of `s`, each command of `READTABLE` answers as listed and changes nothing. -/
theorem exec_tableReads {e : Instr × BitVec 32} (he : e ∈ tableReads s) (hp : s.phase = .table) (r : Option Response) :
    exec e.1 { s with rsp := r } = .next (respond e.2 { s with rsp := r }) := by
  obtain ⟨x, -, he⟩ := List.mem_flatMap.mp he
  rcases List.mem_cons.mp he with rfl | he
  · exact exec_tlen_of_table (t := { s with rsp := r }) hp x
  · obtain ⟨n, hn, rfl⟩ := List.mem_map.mp he
    exact exec_tget_of_table (t := { s with rsp := r }) hp (List.mem_range.mp hn)

theorem readTable_run (hp : s.phase = .table) :
    (∃ v, execAll (readTable s.len) s = .next v ∧ v = { s with rsp := v.rsp }) ∧
      responses (readTable s.len) s = tableAnswers s := by
  rw [← tableReads_commands, ← tableReads_answers]
  refine run_reads (P := fun t => t = { s with rsp := t.rsp }) (fun t r ht => by rw [ht]) (fun e he t ht => ?_) rfl
  rw [ht]
  exact exec_tableReads he hp t.rsp

/-! ### `LOADTABLE` -/

/-- The state `t` accepts the commands that load a table, and its codewords are `code`. -/
structure Loading (code : Byte → Bits) (t : State) : Prop where
  phase : t.phase = .idle ∨ t.phase = .load
  codeword : t.codeword = code

variable {code : Byte → Bits}

theorem exec_tsel_loading (h : Loading code s) (x : Byte) :
    ∃ t, exec (.tsel x) s = .next t ∧ t.phase = .load ∧ t.tsym = x ∧ t.codeword = Function.update code x [] := by
  have hp := h.phase
  refine ⟨_, command_answers (l := legal (.tsel x) s) (r := .ok { setCode x [] s with tsym := x, phase := .load })
    (by rcases hp with hp | hp <;> simp [hp]) (by simpa [legal] using hp) rfl, rfl, rfl, funext fun y => ?_⟩
  rw [Function.update_apply, ← h.codeword]
  exact codeword_setCode (by simp) x y s

theorem exec_tbit_load (hp : s.phase = .load) (hlen : (s.codeword s.tsym).length < 255) (b : Bool) :
    exec (.tbit b) s = .next (respond 0 (setCode s.tsym (s.codeword s.tsym ++ [b]) s)) := by
  have hne : s.lenOf s.tsym ≠ 255#8 := fun h => by simp [h] at hlen
  exact command_answers (l := legal (.tbit b) s) (by simp [hp]) (by simp [legal, hp]) (by rw [extendEntry, if_neg hne])

theorem execAll_tbits (q : Bits) {s : State} (hp : s.phase = .load) (hlen : (s.codeword s.tsym ++ q).length ≤ 255) :
    ∃ t, execAll (q.map .tbit) s = .next t ∧ t.phase = .load ∧
      t.codeword = Function.update s.codeword s.tsym (s.codeword s.tsym ++ q) := by
  induction q generalizing s with
  | nil => exact ⟨s, rfl, hp, by simp⟩
  | cons b q ih =>
    have hlt : (s.codeword s.tsym ++ [b]).length ≤ 255 := by simp at hlen ⊢; omega
    let u := respond 0 (setCode s.tsym (s.codeword s.tsym ++ [b]) s)
    have hu : u.codeword = Function.update s.codeword s.tsym (s.codeword s.tsym ++ [b]) :=
      funext fun y => (codeword_setCode hlt s.tsym y s).trans (Function.update_apply ..).symm
    have husym : u.codeword u.tsym = s.codeword s.tsym ++ [b] := by rw [hu]; exact Function.update_self ..
    obtain ⟨t, ht, htp, htc⟩ := ih (s := u) hp (by rw [husym]; simpa using hlen)
    refine ⟨t, (execAll_cons_next (exec_tbit_load hp (by simp at hlt; simp; omega) b)).trans ht, htp, ?_⟩
    rw [htc, husym, hu, List.append_assoc]
    exact Function.update_idem ..

/-- One entry of `LOADTABLE`. -/
theorem execAll_entry (h : Loading code s) (x : Byte) {q : Bits} (hq : q.length ≤ 255) :
    ∃ t, execAll (.tsel x :: q.map .tbit) s = .next t ∧ Loading (Function.update code x q) t := by
  obtain ⟨u, hu, hup, husym, huc⟩ := exec_tsel_loading h x
  have hempty : u.codeword u.tsym = [] := by rw [huc, husym]; exact Function.update_self ..
  obtain ⟨t, ht, htp, htc⟩ := execAll_tbits q hup (by rw [hempty]; exact hq)
  refine ⟨t, (execAll_cons_next hu).trans ht, .inr htp, ?_⟩
  rw [htc, hempty, huc, husym]
  exact Function.update_idem ..

theorem execAll_append_next {p q : List Instr} (h : execAll p s = .next t) : execAll (p ++ q) s = execAll q t := by
  rw [execAll_append, h]

/-- The entries of the symbols `xs` with their codes in `s`: these codewords are written, every other one is kept. -/
theorem execAll_entries (s : State) (xs : List Byte) {code : Byte → Bits} (h : Loading code u) :
    ∃ t, execAll ((xs.map fun x => (x, s.codeword x)).flatMap fun e => .tsel e.1 :: e.2.map .tbit) u = .next t ∧
      Loading (fun y => if y ∈ xs then s.codeword y else code y) t := by
  induction xs generalizing u code with
  | nil => exact ⟨u, rfl, by simpa using h⟩
  | cons x xs ih =>
    obtain ⟨v, hv, hvl⟩ := execAll_entry h x (length_codeword_le s x)
    obtain ⟨t, ht, htl⟩ := ih hvl
    refine ⟨t, (execAll_append_next hv).trans ht, htl.phase, htl.codeword.trans (funext fun y => ?_)⟩
    by_cases hy : y = x
    · simp [hy]
    · simp [hy]

/-- A codeword tells its length. -/
theorem lenOf_eq_of_codeword {x : Byte} (h : t.codeword x = s.codeword x) : t.lenOf x = s.lenOf x := by
  have hlen := congrArg List.length h
  rw [length_codeword, length_codeword] at hlen
  exact BitVec.eq_of_toNat_eq hlen

theorem entries_eq_of_codeword (h : t.codeword = s.codeword) : t.entries = s.entries := by
  have hlen : t.lenOf = s.lenOf := funext fun x => lenOf_eq_of_codeword (congrFun h x)
  rw [State.entries, hlen, State.entries]

theorem prefixFree_of_codeword (h : t.codeword = s.codeword) (hs : PrefixFree s) : PrefixFree t := by
  intro x y hxy hx hy
  rw [h]
  rw [lenOf_eq_of_codeword (congrFun h _)] at hx hy
  exact hs x y hxy hx hy

/-- `TEND` finds no fault in a table that meets `PrefixFree` (rule R137). -/
theorem tableClashes_of_prefixFree (h : PrefixFree s) : tableClashes s = false := by
  refine List.any_eq_false.mpr fun x hx => ?_
  rw [Bool.not_eq_true, List.any_eq_false]
  intro y hy hclash
  obtain ⟨hxy, hpre⟩ : x ≠ y ∧ s.codeword x <+: s.codeword y := by simpa [clash] using hclash
  exact h x y hxy ((mem_entries s x).mp hx) ((mem_entries s y).mp hy) hpre

theorem exec_tend_loading (h : Loading code s) (hs : PrefixFree s) :
    exec .tend s = .next (respond 0 { s with nsym := BitVec.ofNat 9 s.entries.length, phase := .table }) := by
  have hp := h.phase
  refine command_answers (l := legal .tend s) (by rcases hp with hp | hp <;> simp [hp]) (by simpa [legal] using hp) ?_
  rw [sealTable, tableClashes_of_prefixFree hs]
  rfl

/-- `LOADTABLE` of the codes of a valid table, in a block that has none, loads that table (rule R87). -/
theorem loadsTableOf_tableCodes (hs : TableInv s) (hp : u.phase = .idle) (hu : ∀ x, u.lenOf x = 0#8) :
    LoadsTableOf s u (tableCodes s) := by
  obtain ⟨v, hv, hload⟩ := execAll_entries s s.entries (code := u.codeword) ⟨.inl hp, rfl⟩
  have hcode : v.codeword = s.codeword := hload.codeword.trans (funext fun x => by
    by_cases hx : s.lenOf x = 0#8
    · simp [hx, codeword_eq_nil hx, codeword_eq_nil (hu x)]
    · simp [hx])
  have hfree := prefixFree_of_codeword hcode hs.prefixFree
  have hnsym : BitVec.ofNat 9 v.entries.length = s.nsym := by
    rw [entries_eq_of_codeword hcode, ← hs.count, State.k, BitVec.ofNat_toNat, BitVec.setWidth_eq]
  refine ⟨_, (execAll_append_next hv).trans (execAll_cons_next (exec_tend_loading hload hfree)), rfl, hnsym,
    fun x => ⟨lenOf_eq_of_codeword (congrFun hcode x), congrFun hcode x⟩, hfree, ?_⟩
  show (BitVec.ofNat 9 v.entries.length).toNat = v.entries.length
  exact Nat.mod_eq_of_lt (Nat.lt_of_le_of_lt (length_entries_le v) (by decide))

end

/-- Settles O37: `READTABLE` answers the table, the host reads its codes from the answers, and `LOADTABLE` loads them. -/
theorem loadedTableEqualsTheOneRead : Obligations.LoadedTableEqualsTheOneRead := by
  intro s u hs hp hu
  have hloads := loadsTableOf_tableCodes hs hp hu
  refine ⟨fun htable => ?_, hloads⟩
  obtain ⟨hrun, hanswers⟩ := readTable_run htable
  rw [hanswers, tableRead_tableAnswers]
  exact ⟨hrun, rfl, rfl, hloads⟩

end Sys2Proof.Machine

/-! ## The control commands (rules R100 to R102)

`NOP`, `CLR` and `STAT` check no phase: each answers by its own equation. What `STAT` answers is read field by field, and
`CLR` leaves the block as `State.reset` has it. -/

namespace Sys2Proof.Machine

/-- A command's word carries its opcode (rules R80 and R82). -/
theorem encodedAs_opcode_form (i : Instr) : EncodedAs i (opcode i) i.form := ⟨opField_encode i, rfl⟩

section
variable (s : State)

theorem answers_nop : Answers .nop s 0 s := rfl

theorem answers_stat : Answers .stat s (statusWord s) s := rfl

theorem answers_clr : Answers .clr s 0 (clearBlock s) := rfl

/-! ### The fields of the status word (rule R26)

Bit by bit: `omega` tells which of the four fields a bit lies in. -/

theorem statusWord_phase : (statusWord s).extractLsb' 0 3 = s.phase.code := by
  ext i hi
  have h4 : i < 4 := by omega
  have h8 : i < 8 := by omega
  simp (disch := omega) [statusWord, hi, h4, h8]

theorem statusWord_ovalid : (statusWord s).getLsbD 3 = s.ovalid := by
  simp [statusWord]

theorem statusWord_err : (statusWord s).extractLsb' 4 4 = errField s.err := by
  ext i hi
  have h8 : ¬ 8 ≤ 4 + i := by omega
  simp (disch := omega) [statusWord, h8]

theorem statusWord_nsym : (statusWord s).extractLsb' 8 9 = s.nsym := by
  ext i hi
  simp (disch := omega) [statusWord]

theorem statusWord_unused : (statusWord s).extractLsb' 17 15 = 0 := by
  ext i hi
  simp (disch := omega) [statusWord]

/-! ### The cleared block (rule R101) -/

/-- `CLR` and reset leave every register as `State.reset` has it; the unreadable memories, the buffer's size and the ports
stay. -/
theorem clearBlock_eq_reset : clearBlock s = { State.reset with
    node := s.node, bits := s.bits, obuf := s.obuf, obufSize := s.obufSize, inputs := s.inputs
    rsp := s.rsp, rspDelay := s.rspDelay, latencies := s.latencies, delivered := s.delivered } := rfl

@[simp] theorem clearBlock_candidate : (clearBlock s).candidate = [] := seqOf_zero _

end

/-- Settles O20: the numbers are those of the two coding functions, and the fields those of `statusWord`. -/
theorem nopAndStatusComplete : Obligations.NopAndStatusComplete := by
  refine ⟨by decide, by decide, encodedAs_opcode_form .nop, encodedAs_opcode_form .stat, fun s => ⟨answers_nop s, ?_⟩⟩
  exact ⟨statusWord s, answers_stat s, statusWord_phase s, statusWord_ovalid s, statusWord_err s, statusWord_nsym s,
    statusWord_unused s⟩

/-- Settles O21: `CLR` leaves the cleared block, which is the reset one but for what no reset writes. -/
theorem clrRestoresTheResetState : Obligations.ClrRestoresTheResetState :=
  ⟨encodedAs_opcode_form .clr, fun s => ⟨clearBlock s, answers_clr s, clearBlock_candidate s, clearBlock_eq_reset s⟩⟩

end Sys2Proof.Machine

/-! ## The tree builder (rules R110 to R121)

A command other than `GEN` that its phase accepts answers, or raises, as its writes `work` say (`answers_of_work`,
`raises_of_work`), and `GEN` as its traversal says (`exec_gen_of_codes`). `CNT` commands commute because counting one byte
does (`countStep_comm`); the tree of `BLD` is greedy by the merge loop's invariant (`greedyTree_buildWrites`). -/

namespace Sys2Proof.Machine

section
variable {i : Instr} {s t : State}

/-! ### How an accepted command ends -/

theorem exec_eq_finish (hgen : i ≠ .gen) (hl : legal i s = true) : exec i s = finish s (work i s) (answer i) := by
  by_cases hi : i = .nop ∨ i = .clr ∨ i = .stat
  · rcases hi with rfl | rfl | rfl <;> rfl
  · have hp : s.phase ≠ .fault := fun hp => hi ((legal_of_fault hp i).mp hl)
    rw [exec_eq_command hi hgen, hl, command_of_legal hp]

theorem answers_of_work (hgen : i ≠ .gen) (hl : legal i s = true) (hw : work i s = .ok t) : Answers i s (answer i t) t := by
  rw [Answers, exec_eq_finish hgen hl, hw]
  rfl

theorem raises_of_work {e : ErrorCode} (hgen : i ≠ .gen) (hl : legal i s = true) (hw : work i s = .error e) :
    Raises i s e := by
  rw [Raises, exec_eq_finish hgen hl, hw]
  rfl

theorem exec_gen_of_codes {codes : List (Byte × Bits)} (hp : s.phase = .tree) (hc : treeCodes s = some codes) :
    exec .gen s = .next (respond 0 (generateWrites codes s)) := by
  have hl : legal .gen s = true := by simp [legal, hp]
  show execGen s = _
  rw [execGen, hl, command_of_legal (by simp [hp])]
  simp only [hc, finish_ok]

/-! ### Counting (rule R110) -/

/-- What one `CNT` leaves where the total is not at its largest, its answer included. -/
def countStep (s : State) (x : Byte) : State :=
  respond 0 { s with freq := fileWrite s.freq x (s.freqOf x + 1), total := s.total + 1 }

@[simp] theorem countStep_phase (s : State) (x : Byte) : (countStep s x).phase = s.phase := rfl

@[simp] theorem countStep_total (s : State) (x : Byte) : (countStep s x).total = s.total + 1#32 := rfl

theorem countStep_freqOf (s : State) (x y : Byte) :
    (countStep s x).freqOf y = if y = x then s.freqOf y + 1#32 else s.freqOf y := by
  refine (fileRead_fileWrite s.freq x y _).trans ?_
  by_cases hy : y = x
  · simp [hy]
  · simp [hy, State.freqOf]

theorem countByte_of_ne (x : Byte) (h : s.total ≠ Config.totalMax) :
    countByte x s = .ok { s with freq := fileWrite s.freq x (s.freqOf x + 1), total := s.total + 1 } := if_neg h

theorem answers_cnt (x : Byte) (hp : s.phase = .idle) (h : s.total ≠ Config.totalMax) :
    Answers (.cnt x) s 0 { s with freq := fileWrite s.freq x (s.freqOf x + 1), total := s.total + 1 } :=
  answers_of_work (i := .cnt x) nofun (by simp [legal, hp]) (countByte_of_ne x h)

theorem exec_cnt_of_idle (x : Byte) (hp : s.phase = .idle) (h : s.total ≠ Config.totalMax) :
    exec (.cnt x) s = .next (countStep s x) := answers_cnt x hp h

/-- Two bytes counted in either order leave the same state. -/
theorem countStep_comm (s : State) (x y : Byte) : countStep (countStep s x) y = countStep (countStep s y) x := by
  have hfreq : (countStep (countStep s x) y).freq = (countStep (countStep s y) x).freq := by
    refine file_ext fun z => ?_
    show (countStep (countStep s x) y).freqOf z = (countStep (countStep s y) x).freqOf z
    simp only [countStep_freqOf]
    split_ifs <;> rfl
  exact congrArg (fun f => respond 0 { s with freq := f, total := s.total + 1 + 1 }) hfreq

theorem foldl_countStep_total (b : List Byte) (s : State) :
    (b.foldl countStep s).total = s.total + BitVec.ofNat 32 b.length := by
  induction b generalizing s with
  | nil => simp
  | cons x b ih =>
    rw [List.foldl_cons, ih, countStep_total, List.length_cons, Nat.add_comm b.length, BitVec.ofNat_add, BitVec.add_assoc]

theorem foldl_countStep_freqOf (b : List Byte) (s : State) (y : Byte) :
    (b.foldl countStep s).freqOf y = s.freqOf y + BitVec.ofNat 32 (b.count y) := by
  induction b generalizing s with
  | nil => simp
  | cons x b ih =>
    rw [List.foldl_cons, ih, countStep_freqOf]
    by_cases hy : y = x
    · rw [if_pos hy, hy, List.count_cons_self, Nat.add_comm (b.count x), BitVec.ofNat_add, BitVec.add_assoc]
    · rw [if_neg hy, List.count_cons_of_ne (Ne.symm hy)]

/-- `COUNT b` (rule R87) where the total has room for all of `b`. -/
theorem execAll_countAll (b : List Byte) (hp : s.phase = .idle) (hb : s.total.toNat + b.length ≤ 0xFFFFFFFF) :
    execAll (countAll b) s = .next (b.foldl countStep s) := by
  induction b generalizing s with
  | nil => rfl
  | cons x b ih =>
    rw [List.length_cons] at hb
    have hne : s.total ≠ Config.totalMax := fun e => by
      rw [e] at hb
      simp at hb
    have hroom : (countStep s x).total.toNat + b.length ≤ 0xFFFFFFFF := by
      rw [countStep_total, BitVec.toNat_add, BitVec.toNat_ofNat]
      omega
    exact (execAll_cons_next (exec_cnt_of_idle x hp hne)).trans (ih hp hroom)

/-- No count is above the total (rule R28). -/
theorem freqOf_le_total (h : TotalIsSum s) (x : Byte) : (s.freqOf x).toNat ≤ s.total.toNat := by
  have hle : (s.freqOf x).toNat ≤ (allSymbols.map fun t => (s.freqOf t).toNat).sum :=
    List.single_le_sum (fun _ _ => Nat.zero_le _) _ (List.mem_map_of_mem (mem_allSymbols x))
  exact hle.trans_eq h

/-! ### The tree of `BLD` (rules R113 to R115) -/

theorem answers_bld (hp : s.phase = .idle) : Answers .bld s 0 (buildWrites s) := exec_bld_of_idle hp

/-- Node by node, the finished tree is as the merge loop's invariant says. -/
theorem greedyTree_buildWrites (s : State) : GreedyTree (buildWrites s) := by
  intro i hki hin
  have hc := buildCounts s
  have active_iff : ∀ j, ActiveAt (buildWrites s) i j ↔ Active (buildTree s).mem s.present.length i j := fun j => by
    rw [ActiveAt, hc.k_eq]
    rfl
  rw [hc.k_eq] at hki
  rw [← hc.made] at hin
  have hg := (buildTree_merging s).1.greedy i hki hin
  exact ⟨hg.leaf, hg.sym, hg.w, (active_iff _).mpr hg.left, (active_iff _).mpr hg.right, hg.before,
    fun j hj => hg.least j ((active_iff j).mp hj)⟩

/-- `BLD` writes no entry above the tree. -/
theorem nodeAt_buildWrites_above (s : State) {i : Nat} (hi : (buildWrites s).nnodes.toNat ≤ i) :
    (buildWrites s).nodeAt i = s.nodeAt i := by
  have hm := (buildTree_merging s).1
  rw [← (buildCounts s).made] at hi
  exact (hm.above i hi).trans (nodeRead_above_leaves s (hm.n_ge.trans hi))

/-! ### Empty and one-symbol alphabets (rules R119 and R120) -/

theorem present_eq_nil (h : ∀ x, s.freqOf x = 0#32) : s.present = [] :=
  List.eq_nil_iff_forall_not_mem.mpr fun x hx => mem_present.mp hx (h x)

theorem present_eq_singleton {x : Byte} (hx : s.freqOf x ≠ 0#32) (h : ∀ y, y ≠ x → s.freqOf y = 0#32) :
    s.present = [x] := by
  refine List.perm_singleton.mp ((List.perm_ext_iff_of_nodup (nodup_allSymbols.filter _) (List.nodup_singleton x)).mpr
    fun y => ?_)
  rw [List.mem_singleton]
  refine mem_present.trans ⟨fun hy => ?_, ?_⟩
  · by_contra hne
    exact hy (h y hne)
  · rintro rfl
    exact hx

/-- The count of the only symbol is the total (rule R120). -/
theorem freqOf_eq_total {x : Byte} (hs : TotalIsSum s) (h : s.present = [x]) : s.freqOf x = s.total := by
  have hsum := (sum_present s).trans hs
  rw [h, List.map_singleton, List.sum_singleton] at hsum
  exact BitVec.eq_of_toNat_eq hsum

/-- `GEN` makes the empty table of the empty tree (rule R132). -/
theorem gen_of_no_nodes (hp : s.phase = .tree) (hn : s.nnodes = 0#9) :
    ∃ u, exec .gen s = .next u ∧ u.phase = .table ∧ ∀ x, u.lenOf x = 0#8 :=
  ⟨_, exec_gen_of_codes hp (if_pos hn), rfl, fun x => fileRead_replicate _ x⟩

/-! ### The fields of the two packed answers (rules R116 and R118) -/

theorem nodeCountWord_nnodes (s : State) : (nodeCountWord s).extractLsb' 0 9 = s.nnodes := by
  ext j hj
  simp (disch := omega) [nodeCountWord, hj]

theorem nodeCountWord_root (s : State) : (nodeCountWord s).extractLsb' 9 9 = s.root := by
  ext j hj
  simp (disch := omega) [nodeCountWord]

theorem nodeCountWord_unused (s : State) : (nodeCountWord s).extractLsb' 18 14 = 0 := by
  ext j hj
  simp (disch := omega) [nodeCountWord]

section
variable (e : Node)

theorem Node.linkWord_leaf : e.linkWord.getLsbD 31 = e.leaf := by
  simp [Node.linkWord]

theorem Node.linkWord_unused : e.linkWord.extractLsb' 26 5 = 0 := by
  ext j hj
  have h31 : ¬ 31 ≤ 26 + j := by omega
  simp (disch := omega) [Node.linkWord, h31]

theorem Node.linkWord_sym : e.linkWord.extractLsb' 18 8 = e.sym := by
  ext j hj
  have h31 : ¬ 31 ≤ 18 + j := by omega
  simp (disch := omega) [Node.linkWord, h31]

theorem Node.linkWord_left : e.linkWord.extractLsb' 9 9 = e.left := by
  ext j hj
  have h31 : ¬ 31 ≤ 9 + j := by omega
  have h18 : ¬ 18 ≤ 9 + j := by omega
  simp (disch := omega) [Node.linkWord, h31, h18]

theorem Node.linkWord_right : e.linkWord.extractLsb' 0 9 = e.right := by
  ext j hj
  have h31 : ¬ 31 ≤ j := by omega
  have h18 : ¬ 18 ≤ j := by omega
  have h9 : ¬ 9 ≤ j := by omega
  simp (disch := omega) [Node.linkWord, h31, h18, h9]

end

theorem validNode_iff (j : NodeIdx) : s.validNode j = true ↔ j.toNat < s.nnodes.toNat := by
  simp [State.validNode, BitVec.lt_def]

end

/-- Settles O24: the merge loop's invariant at its end (`Merging`), with the registers it is read into (`BuildCounts`). -/
theorem bldBuildsTheGreedyTree : Obligations.BldBuildsTheGreedyTree := by
  refine ⟨encodedAs_opcode_form .bld, fun s => ⟨fun hp => ?_, fun hi hf =>
    raises_seq_of_not_legal hf (by simpa [legal] using hi)⟩⟩
  have hc := buildCounts s
  refine ⟨buildWrites s, answers_bld hp, hc.k_eq, hc.nnodes_eq, hc.root_nil, hc.root_last, fun i x hx => ?_,
    greedyTree_buildWrites s, fun i => nodeAt_buildWrites_above s, rfl⟩
  obtain ⟨hi, rfl⟩ := List.getElem?_eq_some_iff.mp hx
  exact nodeAt_buildWrites_leaf s hi

/-- Settles O32: every entry of the table is one of the traversal's codes (`CodesOf`), a path of at most `k - 1` edges. -/
theorem generatedCodesAreShort : Obligations.GeneratedCodesAreShort := by
  intro s t hp htree hk ht x
  obtain ⟨codes, hc, hcodes⟩ := htree.treeCodes
  rw [exec_gen_of_codes hp hc] at ht
  cases ht
  show ((writeCodes codes s).lenOf x).toNat + 1 ≤ s.k
  by_cases hx : (writeCodes codes s).lenOf x = 0#8
  · rw [hx]
    exact (Nat.le_succ 1).trans hk
  · have hshort := hcodes.short hk _ (hcodes.code_mem hx)
    rwa [length_codeword] at hshort

/-- Settles O22: one `CNT` is `countStep`, and permuted sequences fold it to the same state. -/
theorem cntCountsBytesInAnyOrder : Obligations.CntCountsBytesInAnyOrder := by
  refine ⟨fun s x => ⟨encodedAs_opcode_form (.cnt x), fun hp hne => ?_, fun hp hmax => ?_, fun hi hf =>
    raises_seq_of_not_legal hf (by simpa [legal] using hi)⟩, fun s b c hp hb hbc => ?_⟩
  · refine ⟨_, answers_cnt x hp hne, ?_, fun y hy => ?_, rfl⟩
    · exact fileRead_fileWrite_same _ _ _
    · exact fileRead_fileWrite_of_ne _ hy _
  · exact raises_of_work (i := .cnt x) nofun (by simp [legal, hp]) (if_pos hmax)
  · have hfold : c.foldl countStep s = b.foldl countStep s :=
      (hbc.foldl_eq' (fun x _ y _ u => countStep_comm u x y) s).symm
    refine ⟨b.foldl countStep s, execAll_countAll b hp hb, ?_, ?_, fun hs x => ?_⟩
    · rw [execAll_countAll c hp (hbc.length_eq ▸ hb), hfold]
    · rw [foldl_countStep_total, BitVec.toNat_add, BitVec.toNat_ofNat]
      omega
    · have hle := freqOf_le_total hs x
      have hcount := List.count_le_length (a := x) (l := b)
      rw [foldl_countStep_freqOf, BitVec.toNat_add, BitVec.toNat_ofNat]
      omega

/-- Settles O26: the tree of no symbol and of one symbol, read off the registers of `BLD` (`BuildCounts`). -/
theorem bldOfDegenerateAlphabets : Obligations.BldOfDegenerateAlphabets := by
  intro s hp
  have hc := buildCounts s
  have hk := hc.k_eq
  have hn := hc.nnodes_eq
  refine ⟨fun hzero => ?_, fun x hs hx hothers => ?_⟩
  · rw [present_eq_nil hzero] at hk hn
    have hnnodes : (buildWrites s).nnodes = 0#9 := BitVec.eq_of_toNat_eq hn
    exact ⟨buildWrites s, answers_bld hp, hnnodes, hc.root_nil (by rw [present_eq_nil hzero]; rfl),
      BitVec.eq_of_toNat_eq hk, rfl, gen_of_no_nodes rfl hnnodes⟩
  · have hpresent := present_eq_singleton hx hothers
    have hlast := hc.root_last (by simp [hpresent])
    have hleaf := nodeAt_buildWrites_leaf s (i := 0) (by simp [hpresent])
    rw [hpresent] at hk hn
    simp only [hpresent, List.getElem_cons_zero, freqOf_eq_total hs hpresent] at hleaf
    have hone : (buildWrites s).nnodes.toNat = 1 := hn
    have hroot : (buildWrites s).root.toNat = 0 := by omega
    exact ⟨buildWrites s, answers_bld hp, BitVec.eq_of_toNat_eq hone, hleaf, BitVec.eq_of_toNat_eq hroot,
      BitVec.eq_of_toNat_eq hk⟩

/-- Settles O23: both reads are accepted in every phase but `FAULT`. -/
theorem countsReadBack : Obligations.CountsReadBack := fun s x =>
  ⟨encodedAs_opcode_form (.frd x), encodedAs_opcode_form .ftot, fun hf =>
    ⟨answers_of_work (i := .frd x) nofun (by simpa [legal] using hf) rfl,
      answers_of_work (i := .ftot) nofun (by simpa [legal] using hf) rfl⟩⟩

/-- Settles O27: the answer is `nodeCountWord`, read field by field. -/
theorem nodeCountReadsBack : Obligations.NodeCountReadsBack := by
  refine ⟨encodedAs_opcode_form .ncnt, fun s => ⟨fun hp => ?_, fun ht hf =>
    raises_seq_of_not_legal hf (by simpa [legal] using ht)⟩⟩
  exact ⟨nodeCountWord s, answers_of_work (i := .ncnt) nofun (by simp [legal, hp]) rfl, nodeCountWord_nnodes s,
    nodeCountWord_root s, nodeCountWord_unused s⟩

/-- Settles O28: both reads are behind one check of the index, and `NLK` answers `Node.linkWord`, read field by field. -/
theorem nodesReadBack : Obligations.NodesReadBack := by
  intro s j
  refine ⟨encodedAs_opcode_form (.nwt j), encodedAs_opcode_form (.nlk j), fun hp hj => ?_, fun hp hj => ?_, fun ht hf =>
    ⟨raises_seq_of_not_legal hf (by simpa [legal] using ht), raises_seq_of_not_legal hf (by simpa [legal] using ht)⟩⟩
  · have hin : inRange (s.validNode j) s = .ok s := if_pos ((validNode_iff j).mpr hj)
    exact ⟨answers_of_work (i := .nwt j) nofun (by simp [legal, hp]) hin, _,
      answers_of_work (i := .nlk j) nofun (by simp [legal, hp]) hin, Node.linkWord_leaf _, Node.linkWord_unused _,
      Node.linkWord_sym _, Node.linkWord_left _, Node.linkWord_right _⟩
  · have hout : inRange (s.validNode j) s = .error .range := if_neg fun h => by
      have := (validNode_iff j).mp h
      omega
    exact ⟨raises_of_work (i := .nwt j) nofun (by simp [legal, hp]) hout,
      raises_of_work (i := .nlk j) nofun (by simp [legal, hp]) hout⟩

end Sys2Proof.Machine

/-! ## The code table (rules R130 to R139)

What `GEN` leaves is read off its list of codes (`CodesOf`): the code of a listed symbol, which symbols have one, and that
nothing else changes. A counted input gives each symbol the length of its code once per occurrence (`sum_count_mul`). -/

namespace Sys2Proof.Machine

section
variable {s t : State}

/-! ### What `GEN` leaves (rules R130 to R132) -/

/-- In a tree that meets rule R30, `GEN` answers and writes the codes of its traversal. -/
theorem exec_gen_of_treeInv (hp : s.phase = .tree) (ht : TreeInv s) :
    ∃ codes, treeCodes s = some codes ∧ CodesOf s codes ∧
      exec .gen s = .next (respond 0 (generateWrites codes s)) := by
  obtain ⟨codes, hc, hcodes⟩ := ht.treeCodes
  exact ⟨codes, hc, hcodes, exec_gen_of_codes hp hc⟩

theorem generateWrites_frame (codes : List (Byte × Bits)) (s : State) :
    generateWrites codes s = { s with
      len := (generateWrites codes s).len, bits := (generateWrites codes s).bits
      nnodes := 0, root := Config.nil, phase := .table } :=
  congrArg (fun t : State => { t with nnodes := 0, root := Config.nil, phase := .table }) (writeCodes_frame codes s)

theorem generateWrites_freqOf (codes : List (Byte × Bits)) (s : State) (x : Byte) :
    (generateWrites codes s).freqOf x = s.freqOf x := by
  rw [generateWrites_frame]
  rfl

section
variable {codes : List (Byte × Bits)} (h : CodesOf s codes) {x : Byte}
include h

theorem CodesOf.generated_entry_iff : (generateWrites codes s).lenOf x ≠ 0#8 ↔ s.freqOf x ≠ 0#32 := h.entry_iff x

theorem CodesOf.generated_codeword {q : Bits} (hm : (x, q) ∈ codes) : (generateWrites codes s).codeword x = q :=
  ((table_writeCodes s h.nodup h.length x).1 q hm).1

theorem CodesOf.generated_lenOf {q : Bits} (hm : (x, q) ∈ codes) : ((generateWrites codes s).lenOf x).toNat = q.length :=
  ((table_writeCodes s h.nodup h.length x).1 q hm).2

/-- With two symbols or more, every infinite bit sequence begins with a code: it runs into a leaf (rule R133 c). -/
theorem CodesOf.exists_code_along (ht : TreeInv s) (hk : 2 ≤ s.k) (f : Nat → Bool) :
    ∃ x n, (x, (List.range n).map f) ∈ codes := by
  obtain ⟨n, j, hj, hleaf⟩ := ht.leaf_along (Nat.zero_lt_of_lt hk) f
  exact ⟨(s.nodeAt j.toNat).sym, n, (h.paths hk _ _).mpr ⟨j, hj, hleaf, rfl⟩⟩

end

/-- Of two beginnings of an infinite sequence the shorter begins the longer. -/
theorem range_map_prefix (f : Nat → Bool) {m n : Nat} (h : m ≤ n) : (List.range m).map f <+: (List.range n).map f := by
  obtain ⟨d, rfl⟩ := Nat.exists_eq_add_of_le h
  rw [List.range_add, List.map_append]
  exact List.prefix_append _ _

/-- An infinite sequence begins with at most one codeword of a table that meets `PrefixFree` (rule R133 c). -/
theorem PrefixFree.code_along_unique (h : PrefixFree t) (f : Nat → Bool) {x y : Byte} (hx : t.lenOf x ≠ 0#8)
    (hxf : t.codeword x = (List.range (t.lenOf x).toNat).map f) (hy : t.lenOf y ≠ 0#8)
    (hyf : t.codeword y = (List.range (t.lenOf y).toNat).map f) : x = y := by
  by_contra hne
  rcases Nat.le_total (t.lenOf x).toNat (t.lenOf y).toNat with hle | hle
  · exact h x y hne hx hy (hxf ▸ hyf ▸ range_map_prefix f hle)
  · exact h y x (Ne.symm hne) hy hx (hxf ▸ hyf ▸ range_map_prefix f hle)

/-! ### The code stream of a counted input (rules R133 d and R156) -/

/-- Summed over all symbols, occurrences times `f` is the sum of `f` over the sequence. -/
theorem sum_count_mul (b : List Byte) (f : Byte → Nat) :
    (allSymbols.map fun x => b.count x * f x).sum = (b.map f).sum := by
  rw [← List.sum_toFinset _ nodup_allSymbols, Finset.sum_list_map_count]
  refine (Finset.sum_subset (fun x _ => List.mem_toFinset.mpr (mem_allSymbols x)) fun x _ hx => ?_).symm
  rw [List.mem_toFinset] at hx
  rw [List.count_eq_zero.mpr hx, Nat.zero_mul]

theorem foldl_countStep_phase (b : List Byte) (s : State) : (b.foldl countStep s).phase = s.phase := by
  induction b generalizing s with
  | nil => rfl
  | cons x b ih => exact ih (countStep s x)

/-- What `COUNT b` leaves after `CLR`. -/
def afterCount (s : State) (b : List Byte) : State := b.foldl countStep (respond 0 (clearBlock s))

theorem execAll_clr_countAll (s : State) {b : List Byte} (hb : b.length ≤ 0xFFFFFFFF) :
    execAll (.clr :: countAll b) s = .next (afterCount s b) := by
  refine (execAll_cons_next (t := respond 0 (clearBlock s)) rfl).trans (execAll_countAll b rfl ?_)
  simpa using hb

theorem afterCount_phase (s : State) (b : List Byte) : (afterCount s b).phase = .idle := foldl_countStep_phase b _

theorem afterCount_freqOf (s : State) {b : List Byte} (hb : b.length ≤ 0xFFFFFFFF) (x : Byte) :
    ((afterCount s b).freqOf x).toNat = b.count x := by
  have hle := List.count_le_length (a := x) (l := b)
  have hzero : (respond 0 (clearBlock s)).freqOf x = 0#32 := fileRead_replicate _ x
  rw [afterCount, foldl_countStep_freqOf, hzero, BitVec.zero_add, BitVec.toNat_ofNat]
  omega

theorem afterCount_totalIsSum (s : State) {b : List Byte} (hb : b.length ≤ 0xFFFFFFFF) : TotalIsSum (afterCount s b) := by
  have htotal : (afterCount s b).total.toNat = b.length := by
    rw [afterCount, foldl_countStep_total]
    simp
    omega
  have hsum := sum_count_mul b fun _ => 1
  simpa [TotalIsSum, afterCount_freqOf s hb, htotal] using hsum

/-- After the bytes have been counted, `BLD` and `GEN` complete and leave the counts as they are. -/
theorem makeTable_run (s : State) {b : List Byte} (hb : b.length ≤ 0xFFFFFFFF) :
    ∃ u, execAll (makeTable b) s = .next u ∧ ∀ x, (u.freqOf x).toNat = b.count x := by
  let v := respond 0 (buildWrites (afterCount s b))
  have hbld : exec .bld (afterCount s b) = .next v := exec_bld_of_idle (afterCount_phase s b)
  have htree : TreeInv v := bldEstablishesTheTreeInvariants _ v (afterCount_phase s b) (afterCount_totalIsSum s hb) hbld
  obtain ⟨codes, -, -, hgen⟩ := exec_gen_of_treeInv (s := v) rfl htree
  refine ⟨_, (execAll_append_next (p := .clr :: countAll b) (execAll_clr_countAll s hb)).trans
    ((execAll_cons_next hbld).trans (execAll_cons_next hgen)), fun x => ?_⟩
  have hfreq := generateWrites_freqOf codes v x
  exact (congrArg BitVec.toNat hfreq).trans (afterCount_freqOf s hb x)

end

/-- Settles O29: the codes of the traversal (`CodesOf`) are the leaves' paths, and the table holds them. -/
theorem genRecordsThePaths : Obligations.GenRecordsThePaths := by
  refine ⟨encodedAs_opcode_form .gen, fun s => ⟨fun hp ht => ?_, fun hi hf =>
    raises_seq_of_not_legal hf (by simpa [legal] using hi)⟩⟩
  obtain ⟨codes, -, hcodes, hrun⟩ := exec_gen_of_treeInv hp ht
  refine ⟨generateWrites codes s, hrun, fun x => hcodes.generated_entry_iff, fun hk q j hj hleaf => ?_, fun hk => ?_,
    generateWrites_frame codes s⟩
  · exact hcodes.generated_codeword ((hcodes.paths hk _ _).mpr ⟨j, hj, hleaf, rfl⟩)
  · exact hcodes.generated_codeword (by rw [hcodes.single hk]; exact List.mem_singleton_self _)

/-- Settles O30: the table invariant of what `GEN` writes, and an entry for each symbol that has a code. -/
theorem generatedTableIsPrefixFree : Obligations.GeneratedTableIsPrefixFree := by
  intro s t hp htree ht
  obtain ⟨codes, hc, hcodes, hrun⟩ := exec_gen_of_treeInv hp htree
  obtain rfl := Host.Outcome.next.inj (hrun.symm.trans ht)
  refine ⟨(tableInv_generateWrites htree hc).congr rfl rfl rfl, fun x => ?_⟩
  rw [respond_lenOf, respond_freqOf, generateWrites_freqOf]
  exact hcodes.generated_entry_iff

/-- Settles O31: the sequence runs into a leaf, so a code begins it, and a table that meets `PrefixFree` has no second one. -/
theorem generatedCodesAreComplete : Obligations.GeneratedCodesAreComplete := by
  intro s t hp htree hk ht f
  obtain ⟨htable, hentry⟩ := generatedTableIsPrefixFree s t hp htree ht
  obtain ⟨codes, -, hcodes, hrun⟩ := exec_gen_of_treeInv hp htree
  obtain rfl := Host.Outcome.next.inj (hrun.symm.trans ht)
  obtain ⟨x, n, hm⟩ := hcodes.exists_code_along htree hk f
  have hlen : ((generateWrites codes s).lenOf x).toNat = n := by simpa using hcodes.generated_lenOf hm
  have hx : (generateWrites codes s).lenOf x ≠ 0#8 :=
    hcodes.generated_entry_iff.mpr ((hcodes.present x).mp (List.mem_map_of_mem hm))
  have hxf : (generateWrites codes s).codeword x = (List.range ((generateWrites codes s).lenOf x).toNat).map f := by
    rw [hlen]
    exact hcodes.generated_codeword hm
  exact ⟨x, ⟨hx, hxf⟩, fun y ⟨hy, hyf⟩ => htable.prefixFree.code_along_unique f hy hyf hx hxf⟩

/-- Settles O58: the stream is as long as the sum of its codewords' lengths, each counted once per occurrence. -/
theorem countedInputBitCount : Obligations.CountedInputBitCount := by
  intro s b hb
  obtain ⟨u, hu, hfreq⟩ := makeTable_run s hb
  refine ⟨u, hu, ?_⟩
  simp only [hfreq]
  rw [length_codeStream, sum_count_mul b fun x => (u.lenOf x).toNat]

/-- Settles O33: the entry is written empty (`setCode`). -/
theorem tselOpensAnEntry : Obligations.TselOpensAnEntry := by
  intro s x
  refine ⟨encodedAs_opcode_form (.tsel x), fun hp => ?_, fun hi hl hf =>
    raises_seq_of_not_legal hf (by simp [legal, hi, hl])⟩
  have hempty : (setCode x [] s).lenOf x = 0#8 := by simp [lenOf_setCode]
  refine ⟨{ setCode x [] s with tsym := x, phase := .load },
    answers_of_work (i := .tsel x) nofun (by simpa [legal] using hp) rfl, hempty, codeword_eq_nil hempty, fun y hy => ?_,
    rfl⟩
  exact ⟨(lenOf_setCode x y [] s).trans (if_neg hy), (codeword_setCode (by simp) x y s).trans (if_neg hy)⟩

/-- Settles O34: the longer code is written (`setCode`) where it still fits the entry. -/
theorem tbitExtendsTheEntry : Obligations.TbitExtendsTheEntry := by
  intro s b
  refine ⟨encodedAs_opcode_form (.tbit b), fun hp hne => ?_, fun hp hfull => ?_, fun hi hf =>
    raises_seq_of_not_legal hf (by simpa [legal] using hi)⟩
  · have hlt : (s.codeword s.tsym).length < 255 := by
      have hne : (s.lenOf s.tsym).toNat ≠ 255 := fun e => hne (BitVec.eq_of_toNat_eq e)
      have := length_codeword_le s s.tsym
      rw [length_codeword] at this ⊢
      omega
    have hfits : (s.codeword s.tsym ++ [b]).length ≤ 255 := by simpa using hlt
    have hsucc : BitVec.ofNat 8 (s.codeword s.tsym ++ [b]).length = s.lenOf s.tsym + 1 := by
      simp [BitVec.ofNat_add]
    refine ⟨_, exec_tbit_load hp hlt b, ?_, ?_, fun y hy => ⟨?_, ?_⟩, rfl⟩
    · exact (lenOf_setCode _ _ _ s).trans ((if_pos rfl).trans hsucc)
    · exact (codeword_setCode hfits _ _ s).trans (if_pos rfl)
    · exact (lenOf_setCode _ _ _ s).trans (if_neg hy)
    · exact (codeword_setCode hfits _ _ s).trans (if_neg hy)
  · exact raises_of_work (i := .tbit b) nofun (by simp [legal, hp]) (if_pos hfull)

/-- Settles O35: the check of `TEND` finds a clash exactly in the tables that do not meet `PrefixFree`. -/
theorem tendSealsPrefixFreeTables : Obligations.TendSealsPrefixFreeTables := by
  refine ⟨encodedAs_opcode_form .tend, fun s => ⟨fun hp hfree => ?_, fun hp hfree => ?_, fun hi hl hf =>
    raises_seq_of_not_legal hf (by simp [legal, hi, hl])⟩⟩
  · exact ⟨exec_tend_loading ⟨hp, rfl⟩ hfree, length_entries_le s, mem_entries s, nodup_entries s⟩
  · have hclash : tableClashes s = true := Bool.of_not_eq_false fun h => hfree (tableClashes_eq_false h)
    exact raises_of_work (i := .tend) nofun (by simpa [legal] using hp) (if_pos hclash)

/-- Settles O36: a bit of the code is read below its length, and there is none from its length on. -/
theorem tableReadsBack : Obligations.TableReadsBack := by
  intro s x n
  refine ⟨encodedAs_opcode_form (.tlen x), encodedAs_opcode_form (.tget x n), fun hp =>
    ⟨exec_tlen_of_table hp x, fun b hb => ?_, fun hn => ?_⟩, fun hi hf =>
    ⟨raises_seq_of_not_legal hf (by simpa [legal] using hi), raises_seq_of_not_legal hf (by simpa [legal] using hi)⟩,
    length_codeword s x⟩
  · have hlt : n.toNat < (s.lenOf x).toNat := length_codeword s x ▸ (List.getElem?_eq_some_iff.mp hb).1
    have hrun := exec_tget_of_table hp hlt
    rwa [BitVec.ofNat_toNat, BitVec.setWidth_eq, List.getD_eq_getElem?_getD, hb, Option.getD_some] at hrun
  · have hout : s.validBit x n = false := by simpa [State.validBit] using hn
    exact raises_of_work (i := .tget x n) nofun (by simp [legal, hp]) (by rw [work, inRange, hout]; rfl)

end Sys2Proof.Machine

/-! ## The encoder and the packer (rules R150 to R154, R175)

`ENC` pushes the byte's codeword: `pushBits_pushed` where it fits, `pushBits_full` where it does not. `EFIN` stores the last
byte, where there is one, and then the header (`endEncode_of_flushByte`); as `OLEN` is at least 1, the two bytes are
different ones. -/

namespace Sys2Proof.Machine

section
variable {s t : State}

theorem obufAt_openSession (s : State) (a : Nat) : (openSession s).obufAt a = if a = 0 then 0 else s.obufAt a :=
  Memory.read_write s.obuf 0 a 0

theorem encodeByte_of_entry {x : Byte} (hx : s.lenOf x ≠ 0#8) : encodeByte x s = pushBits (s.codeword x) s := if_neg hx

theorem flushByte_of_empty (h : s.nacc = 0#3) : flushByte s = .ok s := if_pos h

theorem flushByte_of_partial (h : s.nacc ≠ 0#3) : flushByte s = append s.acc s := if_neg h

theorem endEncode_of_flushByte (h : flushByte s = .ok t) : endEncode s = .ok { t with
    obuf := t.obuf.write 0 (s.nacc.setWidth 8), acc := 0, nacc := 0, ovalid := true, phase := .table } := by
  rw [endEncode, h]
  rfl

/-- A decode session just opened: no output, no byte held, no candidate (rule R170). -/
def openDecode (h : Byte) (s : State) : State :=
  { setCand [] s with ovalid := false, olen := 0, hdr := h.setWidth 3, hold := 0, holdV := false, phase := .decode }

theorem answers_dbeg {h : Byte} (hp : s.phase = .table) (hh : h.toNat ≤ 7) : Answers (.dbeg h) s 0 (openDecode h s) := by
  have hle : ¬ 7#8 < h := Nat.not_lt.mpr hh
  exact answers_of_work (i := .dbeg h) nofun (by simp [legal, hp]) (if_neg hle)

end

/-- Settles O40: the codeword's bits are pushed one after another (`Pushed`), or one of them finds the buffer full. -/
theorem encPacksTheCodeword : Obligations.EncPacksTheCodeword := by
  intro s x hp hi hle
  have hl : legal (.enc x) s = true := by simp [legal, hp]
  rw [← length_codeword s x]
  refine ⟨fun hx hfit => ?_, fun hx => raises_of_work (i := .enc x) nofun hl (if_pos hx), fun hx hbig => ?_⟩
  · obtain ⟨t, ht, h⟩ := pushBits_pushed (s.codeword x) hi hle hfit
    exact ⟨t, answers_of_work (i := .enc x) nofun hl ((encodeByte_of_entry hx).trans ht),
      h.packed, h.inv, h.olen, h.nacc, h.outside, h.frame⟩
  · exact raises_of_work (i := .enc x) nofun hl ((encodeByte_of_entry hx).trans (pushBits_full _ hi hle hbig))

/-- Settles O41: with `NACC` at 0 the header is the only byte written, else the last byte is written before it. -/
theorem efinWritesTheHeader : Obligations.EfinWritesTheHeader := by
  refine ⟨encodedAs_opcode_form .efin, fun s => ⟨fun hp hpos hroom => ?_, fun hp h0 hfull => ?_, fun hi hf =>
    raises_seq_of_not_legal hf (by simpa [legal] using hi)⟩⟩
  · have hl : legal .efin s = true := by simp [legal, hp]
    by_cases h0 : s.nacc = 0#3
    · refine ⟨_, answers_of_work (i := .efin) nofun hl (endEncode_of_flushByte (flushByte_of_empty h0)),
        Memory.read_write_same _ _ _, (if_pos h0).symm, fun hne => absurd h0 hne, fun a ha _ => ?_, rfl⟩
      exact Memory.read_write_of_ne _ ha _
    · have hflush := (flushByte_of_partial h0).trans (append_ok (hroom.resolve_left h0))
      refine ⟨_, answers_of_work (i := .efin) nofun hl (endEncode_of_flushByte hflush),
        Memory.read_write_same _ _ _, (if_neg h0).symm, fun _ => ?_, fun a ha hlast => ?_, rfl⟩
      · have hne : s.olen.toNat ≠ 0 := Nat.pos_iff_ne_zero.mp hpos
        exact (Memory.read_write_of_ne _ hne _).trans (Memory.read_write_same _ _ _)
      · exact (Memory.read_write_of_ne _ ha _).trans (Memory.read_write_of_ne _ (hlast h0) _)
  · have hflush := (flushByte_of_partial h0).trans (append_full hfull)
    exact raises_of_work (i := .efin) nofun (by simp [legal, hp]) (by rw [work, endEncode, hflush]; rfl)

/-- Settles O39: the state it leaves is `openSession`, whose only byte written is the header's. -/
theorem ebegOpensASession : Obligations.EbegOpensASession := by
  refine ⟨encodedAs_opcode_form .ebeg, fun s => ⟨fun hp hsize => ?_, fun hi hf =>
    raises_seq_of_not_legal hf (by simpa [legal] using hi)⟩⟩
  exact ⟨openSession s, exec_ebeg_of_table hp hsize, (obufAt_openSession s 0).trans (if_pos rfl),
    fun a ha => (obufAt_openSession s a).trans (if_neg ha), rfl⟩

/-- Settles O47: `DFIN` finds no held byte and no candidate; `EFIN` finds `NACC` at 0. -/
theorem emptySessions : Obligations.EmptySessions := by
  refine fun s h hp => ⟨fun hh => ?_, fun hsize => ?_⟩
  · have hdbeg := answers_dbeg hp hh
    have hdfin := answers_of_work (i := .dfin) (s := respond 0 (openDecode h s)) nofun rfl rfl
    exact ⟨_, (execAll_cons_next hdbeg).trans (execAll_cons_next hdfin), rfl, rfl, rfl, rfl⟩
  · have hebeg := exec_ebeg_of_table hp hsize
    obtain ⟨t, hefin, hheader, holen, -, -, hframe⟩ :=
      (efinWritesTheHeader.2 (respond 0 (openSession s))).1 rfl (Nat.le_refl 1) (.inl rfl)
    refine ⟨_, (execAll_cons_next hebeg).trans (execAll_cons_next hefin), rfl, ?_, holen, hheader, ?_⟩
    · exact (congrArg State.phase hframe :)
    · exact (congrArg State.ovalid hframe :)

end Sys2Proof.Machine

/-! ## The unpacker and the decoder (rules R170 to R177)

`DPL` feeds all bits of the held byte and `DFIN` the valid ones of the last (`payloadBits`), so over a whole session the
decoder is fed the payload without its padding. `cut_codeStream` cuts the code stream where a byte ends: the symbols before
the cut are in the output, the begun codeword is the candidate. -/

namespace Sys2Proof.Machine

section
variable {s t : State}

/-! ### The bits that a payload holds (rules R155 and R174) -/

/-- The bits of the payload `p` without the padding of its last byte, of which the header tells the valid ones. -/
def payloadBits (hdr : BitVec 3) (p : List Byte) : Bits :=
  (p.flatMap bitsMsbFirst).take (8 * p.length - (8 - lastValidBits hdr))

theorem payloadBits_nil (hdr : BitVec 3) : payloadBits hdr [] = [] := List.take_nil

theorem lastValidBits_le (hdr : BitVec 3) : lastValidBits hdr ≤ 8 := by
  have := hdr.isLt
  unfold lastValidBits
  split <;> omega

theorem payloadBits_singleton (hdr : BitVec 3) (v : Byte) :
    payloadBits hdr [v] = (bitsMsbFirst v).take (lastValidBits hdr) := by
  have := lastValidBits_le hdr
  rw [payloadBits, List.flatMap_singleton, List.length_singleton]
  congr 1
  omega

theorem payloadBits_cons_cons (hdr : BitVec 3) (v w : Byte) (p : List Byte) :
    payloadBits hdr (v :: w :: p) = bitsMsbFirst v ++ payloadBits hdr (w :: p) := by
  have := lastValidBits_le hdr
  rw [payloadBits, List.flatMap_cons, List.take_append, List.take_of_length_le (by simp; omega), payloadBits]
  congr 2
  simp only [List.length_cons, length_bitsMsbFirst]
  omega

/-- The byte held, if any (rule R36), as the beginning of the payload that is still to be decoded. -/
def heldBytes (s : State) : List Byte := if s.holdV then [s.hold] else []

theorem payloadBits_held (s : State) :
    payloadBits s.hdr (heldBytes s) = if s.holdV then (bitsMsbFirst s.hold).take (lastValidBits s.hdr) else [] := by
  unfold heldBytes
  split
  · exact payloadBits_singleton s.hdr s.hold
  · exact payloadBits_nil s.hdr

/-! ### How `DPL` and `DFIN` end -/

theorem answers_dpl_of_not_held (x : Byte) (hp : s.phase = .decode) (hv : s.holdV = false) :
    Answers (.dpl x) s 0 { s with hold := x, holdV := true } :=
  answers_of_work (i := .dpl x) nofun (by simp [legal, hp]) (by rw [work, takePayload, hv]; rfl)

theorem answers_dpl_of_feedBits (x : Byte) (hp : s.phase = .decode) (hv : s.holdV = true)
    (hf : feedBits (bitsMsbFirst s.hold) s = .ok t) : Answers (.dpl x) s 0 { t with hold := x, holdV := true } :=
  answers_of_work (i := .dpl x) nofun (by simp [legal, hp]) (by rw [work, takePayload, if_pos hv, hf]; rfl)

/-- `DFIN` feeds the valid bits of the byte held, if any, and then looks at the candidate (rule R174). -/
theorem endDecode_of_feedBits (hf : feedBits (payloadBits s.hdr (heldBytes s)) s = .ok t) : endDecode s =
    (candidateEmpty t).map fun t => { t with holdV := false, ovalid := true, phase := .table } := by
  rw [payloadBits_held] at hf
  unfold endDecode
  split at hf
  · rw [if_pos ‹_›, hf]
    rfl
  · rw [if_neg ‹_›]
    cases hf
    rfl

theorem candidateEmpty_of_nil (h : t.candidate = []) : candidateEmpty t = .ok t := by
  have hlen := length_candidate t
  rw [h] at hlen
  exact if_pos (BitVec.eq_of_toNat_eq hlen.symm)

theorem candidateEmpty_of_ne_nil (h : t.candidate ≠ []) : candidateEmpty t = .error .malformedStream := by
  refine if_neg fun h0 => h (List.eq_nil_of_length_eq_zero ?_)
  rw [length_candidate, h0]
  rfl

theorem answers_dfin_of_feedBits (hp : s.phase = .decode) (hf : feedBits (payloadBits s.hdr (heldBytes s)) s = .ok t)
    (hc : t.candidate = []) : Answers .dfin s 0 { t with holdV := false, ovalid := true, phase := .table } :=
  answers_of_work (i := .dfin) nofun (by simp [legal, hp])
    (by rw [work, endDecode_of_feedBits hf, candidateEmpty_of_nil hc]; rfl)

theorem raises_dfin_of_feedBits (hp : s.phase = .decode) (hf : feedBits (payloadBits s.hdr (heldBytes s)) s = .ok t)
    (hc : t.candidate ≠ []) : Raises .dfin s .malformedStream :=
  raises_of_work (i := .dfin) nofun (by simp [legal, hp])
    (by rw [work, endDecode_of_feedBits hf, candidateEmpty_of_ne_nil hc]; rfl)

end

/-- Settles O44: the held byte's bits are fed, and `Fed` tells what that leaves. -/
theorem dplDecodesTheHeldByte : Obligations.DplDecodesTheHeldByte := by
  intro s x hp ht hd _
  refine ⟨answers_dpl_of_not_held x hp, fun b rest hv hb hr hl he hfit => ?_⟩
  obtain ⟨t, hf, hfed⟩ := feedBits_stream b ht.prefixFree hd.noMatch hb hr hl he hfit
  refine ⟨_, answers_dpl_of_feedBits x hp hv hf, hfed.out, hfed.cand, hfed.above, ?_⟩
  exact congrArg (fun t : State => { t with hold := x, holdV := true }) hfed.frame

/-- Settles O46: the valid bits are fed, and the candidate they leave (`Fed`) is the rest. -/
theorem dfinEndsTheSession : Obligations.DfinEndsTheSession := by
  intro s b rest hp ht hd _ hb hr hl he hfit
  have he : s.candidate ++ payloadBits s.hdr (heldBytes s) = codeStream s b ++ rest := by
    rw [payloadBits_held]
    exact he
  obtain ⟨t, hf, hfed⟩ := feedBits_stream b ht.prefixFree hd.noMatch hb hr hl he hfit
  refine ⟨fun hrest => ?_, fun hrest => raises_dfin_of_feedBits hp hf (hfed.cand ▸ hrest)⟩
  have hc : t.candidate = [] := hfed.cand.trans hrest
  refine ⟨_, answers_dfin_of_feedBits hp hf hc, hfed.out, hc, hfed.above, ?_⟩
  exact congrArg (fun t : State => { t with holdV := false, ovalid := true, phase := .table }) hfed.frame

/-- Settles O43: an accepted header leaves `openDecode`. -/
theorem dbegOpensASession : Obligations.DbegOpensASession := by
  refine fun s h => ⟨encodedAs_opcode_form (.dbeg h), fun hp hh => ?_, fun hp hh => ?_, fun hi hf =>
    raises_seq_of_not_legal hf (by simpa [legal] using hi)⟩
  · exact ⟨openDecode h s, answers_dbeg hp hh, seqOf_zero _, rfl⟩
  · have hlt : 7#8 < h := hh
    exact raises_of_work (i := .dbeg h) nofun (by simp [legal, hp]) (if_pos hlt)

end Sys2Proof.Machine

/-! ## Decoding what was encoded (rule R176)

`Decoding` is kept by each `DPL` as a codeword may begin in one byte and end in a later one; the bytes of an encode session
(`Packed`) meet it, as the header says how much of the last byte is padding. -/

namespace Sys2Proof.Machine

section
variable {s t u : State}

/-! ### A decode session -/

/-- A decode session in which the payload bytes `p` are still to come, and in which the candidate, the held byte and they
are whole codewords, those of `b`, for which there is room. -/
structure Decoding (p b : List Byte) (s : State) : Prop where
  phase : s.phase = .decode
  prefixFree : PrefixFree s
  noMatch : NoMatchIn s s.candidate
  covered : Covered s b
  bits : s.candidate ++ payloadBits s.hdr (heldBytes s ++ p) = codeStream s b
  room : s.olen.toNat + b.length ≤ s.obufSize.toNat

theorem heldBytes_of_not_held (hv : s.holdV = false) : heldBytes s = [] := if_neg (by simp [hv])

theorem heldBytes_of_held (hv : s.holdV = true) : heldBytes s = [s.hold] := if_pos hv

/-- `DPL` decodes the symbols that end in the held byte, and the rest of the payload is what follows (rule R173). -/
theorem Decoding.exec_dpl {x : Byte} {p b : List Byte} (h : Decoding (x :: p) b s) : ∃ t b1 b2,
    exec (.dpl x) s = .next t ∧ b = b1 ++ b2 ∧ outBytes t = outBytes s ++ b1 ∧ Decoding p b2 t := by
  have hbits := h.bits
  cases hv : s.holdV with
  | true =>
    rw [heldBytes_of_held hv, List.singleton_append, payloadBits_cons_cons, ← List.append_assoc] at hbits
    obtain ⟨b1, b2, rest, rfl, hcut, hrest, hno, hle⟩ := cut_codeStream h.prefixFree b h.covered hbits.symm
    have hroom := h.room
    rw [List.length_append] at hroom
    obtain ⟨t, hf, hfed⟩ := feedBits_stream b1 h.prefixFree h.noMatch (fun y hy => h.covered y (by simp [hy])) hno hle
      hcut (by omega)
    have hframe := hfed.frame
    refine ⟨_, b1, b2, answers_dpl_of_feedBits x h.phase hv hf, rfl, hfed.out, ?_, hfed.prefixFree h.prefixFree,
      hfed.cand.symm ▸ hfed.noMatchIn.mpr hno, hfed.covered.mpr fun y hy => h.covered y (by simp [hy]), ?_, ?_⟩
    · show t.phase = .decode
      rw [hframe]
      exact h.phase
    · show t.candidate ++ payloadBits t.hdr (x :: p) = codeStream t b2
      have hhdr : t.hdr = s.hdr := by rw [hframe]
      rw [hfed.cand, hhdr, hrest, hfed.codeStream]
    · show t.olen.toNat + b2.length ≤ t.obufSize.toNat
      rw [hfed.olen, hfed.obufSize]
      omega
  | false =>
    rw [heldBytes_of_not_held hv] at hbits
    exact ⟨_, [], b, answers_dpl_of_not_held x h.phase hv, rfl, (List.append_nil _).symm, h.phase, h.prefixFree, h.noMatch,
      h.covered, hbits, h.room⟩

/-- `DFIN` decodes the last symbols, and no bit is left over (rule R174). -/
theorem Decoding.exec_dfin {b : List Byte} (h : Decoding [] b s) :
    ∃ t, exec .dfin s = .next t ∧ t.phase = .table ∧ t.ovalid = true ∧ outBytes t = outBytes s ++ b := by
  have hbits := h.bits
  rw [List.append_nil, ← List.append_nil (codeStream s b)] at hbits
  obtain ⟨t, hf, hfed⟩ :=
    feedBits_stream b h.prefixFree h.noMatch h.covered (noMatchIn_nil s) (Nat.zero_le _) hbits h.room
  exact ⟨_, answers_dfin_of_feedBits h.phase hf hfed.cand, rfl, rfl, hfed.out⟩

theorem Decoding.run {p b : List Byte} (h : Decoding p b s) : ∃ t, execAll (p.map .dpl ++ [.dfin]) s = .next t ∧
    t.phase = .table ∧ t.ovalid = true ∧ outBytes t = outBytes s ++ b := by
  induction p generalizing s b with
  | nil =>
    obtain ⟨t, ht, hend⟩ := h.exec_dfin
    exact ⟨t, execAll_cons_next ht, hend⟩
  | cons x p ih =>
    obtain ⟨u, b1, b2, hu, rfl, hout, hd⟩ := h.exec_dpl
    obtain ⟨t, ht, hphase, hvalid, ht'⟩ := ih hd
    exact ⟨t, (execAll_cons_next hu).trans ht, hphase, hvalid, by rw [ht', hout, List.append_assoc]⟩

/-- A decode session over a payload that is the code stream of `b` gives `b` (rules R170 to R174). -/
theorem decodeSession_of_payloadBits {h : Byte} {p b : List Byte} (hp : s.phase = .table) (hh : h.toNat ≤ 7)
    (hfree : PrefixFree s) (hb : Covered s b) (hbits : payloadBits (h.setWidth 3) p = codeStream s b)
    (hroom : b.length ≤ s.obufSize.toNat) :
    ∃ t, execAll (decodeSession h p) s = .next t ∧ t.phase = .table ∧ t.ovalid = true ∧ outBytes t = b := by
  have hempty : (openDecode h s).candidate = [] := seqOf_zero _
  have hopen : Decoding p b (respond 0 (openDecode h s)) := by
    refine ⟨rfl, hfree, ?_, hb, hbits, ?_⟩
    · rw [respond_candidate, hempty]
      exact noMatchIn_nil _
    · exact (Nat.zero_add _).trans_le hroom
  obtain ⟨t, ht, hend⟩ := hopen.run
  exact ⟨t, (execAll_cons_next (answers_dbeg hp hh)).trans ht, hend⟩

/-! ### The bytes of an encode session -/

/-- The header tells how many bits the last byte is padded with (rule R155). -/
theorem padding_of_header {hdr : BitVec 3} {n : Nat} (h : hdr.toNat = n % 8) :
    8 - lastValidBits hdr = (8 - n % 8) % 8 := by
  unfold lastValidBits
  by_cases h0 : hdr = 0#3
  · rw [h0, BitVec.toNat_ofNat] at h
    rw [if_pos h0]
    omega
  · rw [if_neg h0]
    have hne : hdr.toNat ≠ 0 := fun e => h0 (BitVec.eq_of_toNat_eq e)
    omega

/-- The payload of an encode session without its padding is what was pushed (rules R67, R153 and R155). -/
theorem Packed.payloadBits_eq {q : Bits} (h : Packed s q t) :
    payloadBits ((t.obufAt 0).setWidth 3) (outBytes t).tail = q := by
  have hlen := congrArg List.length h.payload
  rw [length_flatMap_bitsMsbFirst, List.length_append, List.length_replicate] at hlen
  have hhdr : ((t.obufAt 0).setWidth 3).toNat = q.length % 8 := by
    rw [BitVec.toNat_setWidth, h.header]
    omega
  rw [payloadBits, h.payload, padding_of_header hhdr, hlen, Nat.add_sub_cancel]
  exact List.take_left

theorem outBytes_eq_cons (h : 0 < t.olen.toNat) : outBytes t = t.obufAt 0 :: (outBytes t).tail := by
  refine (List.cons_head?_tail ?_).symm
  rw [List.head?_eq_getElem?, getElem?_outBytes, if_pos h]
  rfl

theorem Packed.outBytes_eq {q : Bits} (h : Packed s q t) : outBytes t = t.obufAt 0 :: (outBytes t).tail :=
  outBytes_eq_cons (by rw [h.olen]; omega)

/-- What an encode session leaves is readable, and the table is the one it began with (rules R24 and R72). -/
theorem Packed.sealed {q : Bits} (h : Packed s q t) : t.phase = .table ∧ t.ovalid = true ∧ SameTable t s := by
  rw [h.frame]
  exact ⟨rfl, rfl, fun _ => ⟨rfl, rfl⟩⟩

/-- A decode session in any block with the same table, over the bytes an encode session left (rule R176). -/
theorem Packed.decodeSession_run {b : List Byte} (h : Packed s (codeStream s b) t) (hfree : PrefixFree s) (hb : Covered s b)
    (hp : u.phase = .table) (hsame : SameTable u s) (hroom : b.length ≤ u.obufSize.toNat) :
    ∃ v, execAll (decodeSession (t.obufAt 0) (outBytes t).tail) u = .next v ∧ v.phase = .table ∧
      v.ovalid = true ∧ outBytes v = b := by
  have hcode : u.codeword = s.codeword := funext fun x => (hsame x).2
  refine decodeSession_of_payloadBits hp ?_ (prefixFree_of_codeword hcode hfree) (fun x hx => ?_) ?_ hroom
  · have := h.header
    omega
  · rw [(hsame x).1]
    exact hb x hx
  · rw [h.payloadBits_eq, codeStream, codeStream, hcode]

end

/-- Settles O56: what the encode session leaves is `Packed`, and the decode session's payload is read off it. -/
theorem sessionRoundTrip : Obligations.SessionRoundTrip := by
  intro s u b hp ht hb hfit hup hsame hroom
  obtain ⟨t, hrun, hpacked⟩ := encodeSession_packed hp hb hfit
  obtain ⟨v, hv, hend⟩ := hpacked.decodeSession_run ht.prefixFree hb hup hsame hroom
  refine ⟨t, v, hrun, ?_, hend⟩
  rw [hpacked.outBytes_eq]
  exact hv

end Sys2Proof.Machine

/-! ## Compress, then decompress (rules R87 and R176)

The table that `makeTable` leaves covers the counted bytes. No command writes `OBUF_SIZE` (`execAll_obufSize`), so the room
that the statement asks for in the first states is there in every later one. -/

namespace Sys2Proof.Machine

section
variable {i : Instr} {s t u : State}

/-! ### `OBUF_SIZE` is a build parameter (rules R6 and R22) -/

theorem Effect.obufSize (h : Effect i s t) : t.obufSize = s.obufSize := by
  match i with
  | .clr | .bld | .tsel _ | .nop | .stat | .frd _ | .ftot | .ncnt | .nwt _ | .nlk _ | .tlen _ | .tget _ _ | .olen
  | .ord _ =>
    cases h
    rfl
  | .cnt _ => rw [(countByte_ok h).2]
  | .gen =>
    obtain ⟨codes, -, rfl⟩ := h
    rw [generateWrites_frame]
  | .tbit _ =>
    rw [extendEntry_ok h]
    rfl
  | .tend => rw [(sealTable_ok h).2]
  | .ebeg =>
    obtain ⟨u, hu, rfl⟩ := beginEncode_ok h
    rw [append_frame hu]
  | .enc _ => rw [pushBits_frame (encodeByte_ok h)]
  | .efin =>
    obtain ⟨u, rfl | hu, rfl⟩ := endEncode_ok h
    · rfl
    · rw [append_frame hu]
  | .dbeg _ =>
    rw [beginDecode_ok h]
    rfl
  | .dpl _ =>
    obtain ⟨q, u, hu, rfl⟩ := takePayload_ok h
    rw [feedBits_frame hu]
  | .dfin =>
    obtain ⟨q, u, hu, rfl⟩ := endDecode_ok h
    rw [feedBits_frame hu]

theorem exec_obufSize (h : exec i s = .next t) : t.obufSize = s.obufSize := by
  rcases exec_ends h with rfl | ⟨e, rfl⟩ | ⟨d, u, -, hu, rfl⟩
  · rfl
  · rfl
  · exact hu.obufSize

theorem execAll_obufSize {is : List Instr} (h : execAll is s = .next t) : t.obufSize = s.obufSize := by
  induction is generalizing s with
  | nil =>
    cases h
    rfl
  | cons i is ih =>
    cases hi : exec i s with
    | next u =>
      rw [execAll_cons_next hi] at h
      exact (ih h).trans (exec_obufSize hi)
    | fault f => simp [execAll, hi] at h
    | refused r => simp [execAll, hi] at h

/-! ### The table of a counted input (rule R133) -/

/-- `GEN` finds a tree that meets rule R30 when a byte sequence has been counted. -/
theorem makeTable_tree (s : State) {b : List Byte} (hb : b.length ≤ 0xFFFFFFFF) :
    ∃ v, v.phase = .tree ∧ TreeInv v ∧ execAll (makeTable b) s = execAll [.gen] v := by
  have hp := afterCount_phase s b
  have hbld := exec_bld_of_idle hp
  exact ⟨_, rfl, bldEstablishesTheTreeInvariants _ _ hp (afterCount_totalIsSum s hb) hbld,
    (execAll_append_next (p := .clr :: countAll b) (execAll_clr_countAll s hb)).trans (execAll_cons_next hbld)⟩

/-- Counting, building and generating leave a valid table that covers the counted bytes. -/
theorem makeTable_table (s : State) {b : List Byte} (hb : b.length ≤ 0xFFFFFFFF) :
    ∃ u, execAll (makeTable b) s = .next u ∧ u.phase = .table ∧ TableInv u ∧ Covered u b := by
  obtain ⟨v, hp, htree, htail⟩ := makeTable_tree s hb
  obtain ⟨codes, -, -, hgen⟩ := exec_gen_of_treeInv hp htree
  obtain ⟨htable, hentry⟩ := generatedTableIsPrefixFree v _ hp htree hgen
  obtain ⟨u, hu, hfreq⟩ := makeTable_run s hb
  obtain rfl := Host.Outcome.next.inj (hu.symm.trans (htail.trans (execAll_cons_next hgen)))
  refine ⟨_, hu, rfl, htable, fun x hx => (hentry x).mpr fun h0 => ?_⟩
  have hcount := hfreq x
  rw [h0] at hcount
  exact (List.count_pos_iff.mpr hx).ne hcount

/-! ### `READOUT` -/

theorem exec_olen_of_table (hp : s.phase = .table) (hv : s.ovalid = true) :
    exec .olen s = .next (respond s.olen s) :=
  answers_of_work (i := .olen) nofun (by simp [legal, hp, hv]) rfl

theorem exec_ord_of_table (hp : s.phase = .table) (hv : s.ovalid = true) {a : Nat} (ha : a < s.olen.toNat) :
    exec (.ord (BitVec.ofNat 32 a)) s = .next (respond ((s.obufAt a).setWidth 32) s) := by
  have hlt : (BitVec.ofNat 32 a).toNat = a := Nat.mod_eq_of_lt (Nat.lt_trans ha s.olen.isLt)
  have hin : s.validAddr (BitVec.ofNat 32 a) = true := by simpa [State.validAddr, BitVec.lt_def, hlt] using ha
  have hrun := answers_of_work (i := .ord (BitVec.ofNat 32 a)) (s := s) (t := s) nofun (by simp [legal, hp, hv])
    (by rw [work, inRange, if_pos hin])
  rwa [answer, hlt] at hrun

/-- The commands of `READOUT` (rule R87) with what each answers on the output of `s`. -/
def outReads (s : State) : List (Instr × BitVec 32) :=
  (.olen, s.olen) :: (List.range s.olen.toNat).map fun a => (.ord (BitVec.ofNat 32 a), (s.obufAt a).setWidth 32)

theorem outReads_commands (s : State) : (outReads s).map Prod.fst = readOut s.olen.toNat := by
  simp [outReads, readOut, Function.comp_def]

theorem outReads_answers (s : State) :
    (outReads s).map (fun e => ({ err := 0, data := e.2 } : Response)) = readAnswers (outBytes s) := by
  simp [outReads, readAnswers, outBytes, Function.comp_def]

theorem readOut_answers (hp : s.phase = .table) (hv : s.ovalid = true) :
    responses (readOut s.olen.toNat) s = readAnswers (outBytes s) := by
  rw [← outReads_commands, ← outReads_answers]
  refine (run_reads (P := fun t => t = { s with rsp := t.rsp }) (fun t r ht => by rw [ht]) (fun e he t ht => ?_) rfl).2
  rw [ht]
  rcases List.mem_cons.mp he with rfl | he
  · exact exec_olen_of_table hp hv
  · obtain ⟨a, ha, rfl⟩ := List.mem_map.mp he
    exact exec_ord_of_table (s := { s with rsp := t.rsp }) hp hv (List.mem_range.mp ha)

/-- `READOUT` of an output of which the host knows the length. -/
theorem readOut_of_outBytes {b : List Byte} (hp : s.phase = .table) (hv : s.ovalid = true) (hb : outBytes s = b) :
    responses (readOut b.length) s = readAnswers b := by
  have hlen := length_outBytes s
  rw [hb] at hlen
  rw [hlen, ← hb]
  exact readOut_answers hp hv

/-! ### `DECOMPRESS` -/

/-- `DECOMPRESS` decodes in the block that `CLR` and `LOADTABLE` leave, which holds the given table (rule R87). -/
theorem execAll_decompress (hs : TableInv s) (w : State) (h : Byte) (p : List Byte) : ∃ u,
    execAll (decompress (tableCodes s) h p) w = execAll (decodeSession h p) u ∧
      u.phase = .table ∧ SameTable u s ∧ u.obufSize = w.obufSize := by
  obtain ⟨u, hu, hp, -, hsame, -⟩ :=
    loadsTableOf_tableCodes (u := respond 0 (clearBlock w)) hs rfl (fileRead_replicate 0)
  have hclr : exec .clr w = .next (respond 0 (clearBlock w)) := answers_clr w
  exact ⟨u, (execAll_cons_next hclr).trans (execAll_append_next hu), hp, hsame, (execAll_obufSize hu :)⟩

end

/-- Settles O57: both decode sessions run in a block with the table of `makeTable`, over the bytes of the encode session. -/
theorem compressThenDecompressIsIdentity : Obligations.CompressThenDecompressIsIdentity := by
  intro s w b hb
  obtain ⟨u, hu, hup, htable, hcov⟩ := makeTable_table s hb
  refine ⟨u, hu, hup, htable, hcov, fun hfit hroom hroomw => ?_⟩
  have husize : u.obufSize = s.obufSize := execAll_obufSize hu
  rw [← husize] at hfit hroom
  obtain ⟨t, ht, hpacked⟩ := encodeSession_packed hup hcov hfit
  obtain ⟨htp, htv, htsame⟩ := hpacked.sealed
  obtain ⟨v, hv, hvp, hvv, hvb⟩ := hpacked.decodeSession_run htable.prefixFree hcov htp htsame
    (by rw [execAll_obufSize ht]; exact hroom)
  obtain ⟨u', hdec, hup', husame', husize'⟩ := execAll_decompress htable w (t.obufAt 0) (outBytes t).tail
  obtain ⟨v', hv', hvp', hvv', hvb'⟩ := hpacked.decodeSession_run htable.prefixFree hcov hup' husame'
    (by rw [husize']; exact hroomw)
  refine ⟨t, v, v', t.obufAt 0, (outBytes t).tail, (execAll_append_next hu).trans ht, ?_, hv,
    readOut_of_outBytes hvp hvv hvb, hdec.trans hv', readOut_of_outBytes hvp' hvv' hvb'⟩
  rw [← hpacked.outBytes_eq]
  exact readOut_answers htp htv

end Sys2Proof.Machine

/-! ## Reading the output (rules R190 and R191)

The phase and `OVALID` together are what the legality table asks of `OLEN` and `ORD`; `ORD` then checks its address. -/

namespace Sys2Proof.Machine

section
variable {s : State}

theorem validAddr_iff (a : BitVec 32) : s.validAddr a = true ↔ a.toNat < s.olen.toNat := by
  simp [State.validAddr, BitVec.lt_def]

theorem raises_ord_of_olen_le (hp : s.phase = .table) (hv : s.ovalid = true) {a : BitVec 32}
    (ha : s.olen.toNat ≤ a.toNat) : Raises (.ord a) s .range :=
  raises_of_work (i := .ord a) nofun (by simp [legal, hp, hv]) (if_neg (mt (validAddr_iff a).mp ha.not_gt))

end

/-- Settles O49: `ORD` answers below `OLEN` and raises from `OLEN` on; where the output cannot be read, the legality table
refuses both commands. -/
theorem outputReadsBack : Obligations.OutputReadsBack := by
  intro s a
  refine ⟨encodedAs_opcode_form .olen, encodedAs_opcode_form (.ord a), fun hp hv => ⟨exec_olen_of_table hp hv, fun ha => ?_,
    raises_ord_of_olen_le hp hv⟩, fun hf hn => ?_⟩
  · have hrun := exec_ord_of_table hp hv ha
    rwa [BitVec.ofNat_toNat, BitVec.setWidth_eq] at hrun
  · have hl : (s.phase == .table && s.ovalid) = false := by simpa using hn
    exact ⟨raises_seq_of_not_legal hf hl, raises_seq_of_not_legal hf hl⟩

end Sys2Proof.Machine

/-! ## Faults and the faulted block (rules R201, R202 and R204)

A command that ends with an error of its own leaves what `raise` leaves (`exec_cases`). In phase `FAULT` a word other than
`CLR`'s leaves nothing but a response, and an edge without a word or a reset writes only what the ports hold. -/

namespace Sys2Proof.Machine

/-- Settles O11: of the three ways a command ends (`exec_cases`), its writes answer 0 and a faulted block answers 15, which
leaves `raise`. -/
theorem faultsArePrecise : Obligations.FaultsArePrecise := by
  refine ⟨by decide, fun i s t r h hr h0 h15 => ?_⟩
  rcases exec_cases h with ⟨u, -, -, rfl⟩ | ⟨e, rfl⟩ | ⟨-, rfl⟩ <;> cases hr
  · exact absurd rfl h0
  · exact ⟨e, rfl, rfl⟩
  · exact absurd rfl h15

/-- Settles O9: the three accepted commands answer as in every phase, and rule R89's order has `FAULT` answer the rest. -/
theorem faultedBlockAnswers : Obligations.FaultedBlockAnswers := by
  intro s w hp
  obtain ⟨-, hrest, -⟩ := wordsAreProcessedInOrder w s
  refine ⟨fun h => (runWord_of_decode h s).trans (answers_nop s), fun h => (runWord_of_decode h s).trans (answers_stat s),
    fun h => ?_, fun hnop hstat hclr => hrest hp hnop hclr hstat⟩
  exact ⟨respond 0 (clearBlock s), (runWord_of_decode h s).trans (answers_clr s), rfl, clearBlock_candidate s,
    congrArg (respond 0) (clearBlock_eq_reset s)⟩

section
variable {s t : State} {p : PortIn}

/-- `t` is `s` but for what the ports hold, the response due among it: every register and every memory is the same. -/
def SameBlock (s t : State) : Prop := t = { withPorts t s with rsp := t.rsp }

theorem responseEdge_sameBlock (r : Response) (ready : Bool) (s : State) : SameBlock s (responseEdge r ready s) := by
  unfold responseEdge
  split
  · cases ready <;> rfl
  · rfl

/-- A faulted block changes nothing for a word other than `CLR`'s (rule R202). -/
theorem runWord_sameBlock_of_fault {w : CmdWord} (hp : s.phase = .fault) (hclr : decode w ≠ .ok .clr)
    (h : runWord w s = .next t) : SameBlock s t := by
  obtain ⟨hnop, hstat, -, hrest⟩ := faultedBlockAnswers s w hp
  by_cases h0 : decode w = .ok .nop
  · cases h.symm.trans (hnop h0)
    rfl
  by_cases h2 : decode w = .ok .stat
  · cases h.symm.trans (hstat h2)
    rfl
  cases h.symm.trans (hrest h0 h2 hclr)
  rfl

/-- What an edge without a reset can be (rule R92): a response's, a command's, or one at which nothing happens. -/
theorem clockEdge_cases (hrst : p.rst = false) (h : clockEdge p s = .next t) :
    (∃ r, s.rsp = some r ∧ t = responseEdge r p.rspReady s) ∨
      (s.rsp = none ∧ p.cmdValid = true ∧ runWord p.cmdWord (startCommand s) = .next t) ∨
      (s.rsp = none ∧ p.cmdValid = false ∧ t = s) := by
  simp only [clockEdge, hrst] at h
  cases hr : s.rsp with
  | some r =>
    simp only [hr] at h
    cases h
    exact .inl ⟨r, rfl, rfl⟩
  | none =>
    simp only [hr] at h
    cases hv : p.cmdValid with
    | true => exact .inr (.inl ⟨rfl, rfl, by simpa [hv] using h⟩)
    | false => exact .inr (.inr ⟨rfl, rfl, by simpa [hv] using h.symm⟩)

/-- An edge that neither resets a faulted block nor issues `CLR` to it changes only the ports (rule R204). -/
theorem clockEdge_sameBlock_of_fault (hp : s.phase = .fault) (hrst : p.rst = false)
    (hclr : p.cmdValid = true → s.rsp = none → p.cmdWord ≠ encode .clr) (h : clockEdge p s = .next t) :
    SameBlock s t := by
  rcases clockEdge_cases hrst h with ⟨r, -, rfl⟩ | ⟨hr, hv, h⟩ | ⟨-, -, rfl⟩
  · exact responseEdge_sameBlock r p.rspReady s
  · exact runWord_sameBlock_of_fault (s := startCommand s) hp (fun hd => hclr hv hr (decode_eq_ok_iff.mp hd).symm) h
  · rfl

/-- What holds of the quiet host and of a listed first input holds of the coming edge's input (rule R20). -/
theorem nextInput_of_head {P : PortIn → Prop} (hquiet : P PortIn.quiet) (h : ∀ p, s.inputs.head? = some p → P p) :
    P (nextInput s) := by
  unfold nextInput
  cases hi : s.inputs with
  | nil => exact hquiet
  | cons p rest => exact h p (congrArg List.head? hi)

end

/-- Settles O19: the step is such an edge with the input taken, and `PHASE`, `ERR` and `OVALID` are not at the ports. -/
theorem firstErrorSticks : Obligations.FirstErrorSticks := by
  intro s t hp h hin
  obtain ⟨hrst, hclr⟩ := nextInput_of_head ⟨rfl, nofun⟩ hin
  have hsame : SameBlock (takeInput s) t := clockEdge_sameBlock_of_fault hp hrst hclr h
  exact ⟨(congrArg State.phase hsame).trans hp, (congrArg State.err hsame :), (congrArg State.ovalid hsame :)⟩

end Sys2Proof.Machine

/-! ## Reset, the coming response and progress (rules R92, R230, R236 and R243)

An edge stops only where the command issued there does, and a command does not where the tree meets rule R30
(`exec_completes`). While a response is due and the host is ready, each edge lowers the wait by one, and the edge that finds
no wait left delivers (`step_waits`, `step_delivers`). -/

namespace Sys2Proof.Machine

section
variable {s : State}

theorem step_of_inputs {p : PortIn} {rest : List PortIn} (h : s.inputs = p :: rest) :
    step s = clockEdge p { s with inputs := rest } := by
  simp [step, nextInput, takeInput, h]

/-! ### Every edge completes (rule R236) -/

theorem runWord_completes (w : CmdWord) (h : s.phase = .tree → TreeInv s) : ∃ t, runWord w s = .next t := by
  by_cases hd : ∃ i, decode w = .ok i
  · obtain ⟨i, hi⟩ := hd
    rw [runWord_of_decode hi]
    exact exec_completes i h
  · exact ⟨_, runWord_of_illegal (not_exists.mp hd) s⟩

theorem clockEdge_completes (p : PortIn) (h : s.phase = .tree → TreeInv s) : ∃ t, clockEdge p s = .next t := by
  unfold clockEdge
  split
  · exact ⟨_, rfl⟩
  · split
    · exact ⟨_, rfl⟩
    · split
      · exact runWord_completes p.cmdWord fun hp => (h hp).congr rfl rfl rfl rfl rfl rfl
      · exact ⟨_, rfl⟩

/-! ### The wait for a response (rules R92 and R243) -/

/-- What a host drives at an edge at which it issues nothing and is ready for a response. -/
def readyInput : PortIn := { PortIn.quiet with rspReady := true }

theorem step_waits {r : Response} {rest : List PortIn} {n : Nat} (hr : s.rsp = some r)
    (hin : s.inputs = readyInput :: rest) (hn : s.rspDelay = n + 1) :
    step s = .next { s with inputs := rest, rspDelay := n } := by
  rw [oneCommandOutstanding s readyInput rest r hin rfl hr, if_neg (by simp [State.rspValid, hn]), hn]
  rfl

theorem step_delivers {r : Response} {rest : List PortIn} (hr : s.rsp = some r) (hin : s.inputs = readyInput :: rest)
    (hn : s.rspDelay = 0) :
    step s = .next { s with inputs := rest, rspDelay := 0, rsp := none, delivered := s.delivered ++ [r] } := by
  rw [oneCommandOutstanding s readyInput rest r hin rfl hr, if_pos ⟨by simp [State.rspValid, hr, hn], rfl⟩, hn]

theorem run_succ_of_step {M : Host.Core} {s t : M.State} (k : Nat) (h : M.step s = .next t) :
    M.run (k + 1) s = M.run k t := by
  rw [Host.Core.run, h]

/-- The response is delivered after as many edges as the wait counts, and one more (rule R243). -/
theorem run_delivers (n : Nat) {r : Response} {rest : List PortIn} (hr : s.rsp = some r) (hn : s.rspDelay = n)
    (hin : s.inputs = List.replicate (n + 1) readyInput ++ rest) :
    core.run (n + 1) s = .next { s with
      inputs := rest, rspDelay := 0, rsp := none, delivered := s.delivered ++ [r] } := by
  induction n generalizing s with
  | zero => exact run_succ_of_step (M := core) 0 (step_delivers hr hin hn)
  | succ n ih => exact (run_succ_of_step (M := core) (n + 1) (step_waits hr hin hn)).trans (ih hr rfl rfl)

/-! ### The reset edge (rule R230) -/

/-- The registers are those of the reset state; what no reset writes stays, and no response is due. -/
theorem resetEdge_eq_reset (s : State) : resetEdge s = { State.reset with
    node := s.node, bits := s.bits, obuf := s.obuf, obufSize := s.obufSize
    inputs := s.inputs, latencies := s.latencies, delivered := s.delivered } :=
  congrArg (fun u : State => { u with rsp := none, rspDelay := 0 }) (clearBlock_eq_reset s)

theorem clockEdge_of_rst {p : PortIn} (h : p.rst = true) (s : State) : clockEdge p s = .next (resetEdge s) := if_pos h

end

/-- Settles O55: the invariant holds a tree that meets rule R30, and taking the input does not touch it. -/
theorem blockNeverHalts : Obligations.BlockNeverHalts := fun s h =>
  clockEdge_completes (s := takeInput s) (nextInput s) fun hp => (h.tree hp).congr rfl rfl rfl rfl rfl rfl

/-- Settles O18, by induction on the wait (`run_delivers`). -/
theorem responseIsDelivered : Obligations.ResponseIsDelivered := fun s _ _ hr hin => run_delivers s.rspDelay hr rfl hin

/-- Settles O14: the edge is a reset's, which leaves what `resetEdge_eq_reset` says. -/
theorem resetInputClearsTheBlock : Obligations.ResetInputClearsTheBlock := fun s _ rest hin hrst =>
  ⟨resetEdge { s with inputs := rest }, (step_of_inputs hin).trans (clockEdge_of_rst hrst _), rfl, rfl,
    resetEdge_eq_reset { s with inputs := rest }⟩

end Sys2Proof.Machine
